-- ==== Sys2Proof/Word.lean ====
section
/-! DEFINITION. The word types of HUFFPACK (spec R5, R7, R8): every value is an unsigned bit vector of a stated width. -/

namespace Sys2Proof

/-- One byte of the sink (R39). -/
abbrev Byte := BitVec 8

/-- A word of the host bus and of the command register (R61, R90). -/
abbrev Word32 := BitVec 32

/-- A byte offset of the host register space (R61: MMIO_AW = 16). -/
abbrev Offset := BitVec 16

/-- A symbol, 0..255 (R5: SYM_W = 8). -/
abbrev Sym := BitVec 8

/-- An occurrence count or a node weight (R5: WEIGHT_W = 64). -/
abbrev Weight := BitVec 64

/-- A node record (R5: REC_W = 64). -/
abbrev NodeRecord := BitVec 64

/-- An arena index as the LEFT, RIGHT and ROOT fields hold it, 9 bits (R29, R32). -/
abbrev NodeIdx := BitVec 9

/-- An entry of the CODE table (R5: CODE_W = 256). -/
abbrev CodeWord := BitVec 256

/-- An entry of the LEN table, 9 bits (R34). -/
abbrev CodeLen := BitVec 9

/-- The packer's accumulator (R5: ACC_W = 264). -/
abbrev Accumulator := BitVec 264

end Sys2Proof
end

