-- ==== Sys2Proof/Syntax.lean ====
section
/-! DEFINITION. The ten commands of HUFFPACK command set version 1 (spec R1, R95; spec/opcode_table.json), one constructor a row. -/

namespace Sys2Proof

/-- A command with its operand. SYM is the only operand a command word carries (R90, R92); SETFREQ's 64-bit
operand is in DATA_HI and DATA_LO (R93). -/
inductive Instr where
  /-- CLEAR, OP 0x01 (R230) -/
  | clear
  /-- COUNT s, OP 0x02 (R110) -/
  | count (sym : Sym)
  /-- SETFREQ s, OP 0x03 (R111) -/
  | setfreq (sym : Sym)
  /-- FINIT, OP 0x04 (R132) -/
  | finit
  /-- MERGE, OP 0x05 (R133) -/
  | merge
  /-- BUILD, OP 0x06 (R134) -/
  | build
  /-- GENCODES, OP 0x07 (R161) -/
  | gencodes
  /-- SERIALIZE, OP 0x08 (R182) -/
  | serialize
  /-- PACK s, OP 0x09 (R201) -/
  | pack (sym : Sym)
  /-- FLUSH, OP 0x0A (R202) -/
  | flush
deriving DecidableEq, Repr

end Sys2Proof
end

