-- ==== Sys2Proof/WellFormed.lean ====
section
/-! DEFINITION. Which command words are well formed (spec R94, R96, R97). A term of Instr needs no check of its own: its
only operand is a symbol, and the type Sym holds exactly 0..255 (R92); every check R97 makes is a check of the word. -/

namespace Sys2Proof

/-- RSV = v[31:16] must be 0 (R94). -/
def rsvIsZero (v : Word32) : Bool := v.extractLsb' 16 16 == 0#16

/-- OP = v[7:0] must be one of 0x01..0x0A (R96). -/
def opIsAssigned (v : Word32) : Bool :=
  let op := v.extractLsb' 0 8
  0x01#8 ≤ op && op ≤ 0x0A#8

/-- Whether the opcode takes a symbol: COUNT, SETFREQ, PACK (R95, R97). -/
def opTakesSymbol (v : Word32) : Bool :=
  let op := v.extractLsb' 0 8
  op == 0x02#8 || op == 0x03#8 || op == 0x09#8

/-- SYM = v[15:8] must be 0 unless the opcode takes a symbol (R94). -/
def symIsAllowed (v : Word32) : Bool := opTakesSymbol v || v.extractLsb' 8 8 == 0#8

/-- WellFormed(v) of R97. -/
def wellFormed (v : Word32) : Bool := rsvIsZero v && opIsAssigned v && symIsAllowed v

end Sys2Proof
end

