-- ==== Sys2Proof/Decode.lean ====
section
/-! DEFINITION. The decoder of the 32-bit command word, total and rejecting by name (spec R90 to R98), and the encoder
written from the same opcode map (spec R95, R99). -/

namespace Sys2Proof

/-- OP, the opcode field v[7:0] (R90, R91). -/
def fieldOp (v : Word32) : BitVec 8 := v.extractLsb' 0 8

/-- SYM, the symbol field v[15:8] (R90, R92). -/
def fieldSym (v : Word32) : Sym := v.extractLsb' 8 8

/-- RSV, the reserved field v[31:16] (R90, R94). -/
def fieldRsv (v : Word32) : BitVec 16 := v.extractLsb' 16 16

/-- Why a word is no command. Each of them raises ILLEGAL_CMD (R94, R96, R233). -/
inductive Reject where
  /-- RSV is not 0 (R94) -/
  | reservedFieldSet
  /-- the opcode is 0x00 or 0x0B..0xFF (R96) -/
  | reservedOpcode
  /-- SYM is not 0 on an opcode that takes no symbol (R94) -/
  | symbolNotAllowed
deriving DecidableEq, Repr

/-- A command without a symbol operand: SYM must be 0 (R94). -/
def plainCommand (i : Instr) (v : Word32) : Except Reject Instr :=
  if fieldSym v = 0#8 then .ok i else .error .symbolNotAllowed

/-- The opcode map of R95. -/
def decodeOp (v : Word32) : Except Reject Instr :=
  match (fieldOp v).toNat with
  | 0x01 => plainCommand .clear v
  | 0x02 => .ok (.count (fieldSym v))
  | 0x03 => .ok (.setfreq (fieldSym v))
  | 0x04 => plainCommand .finit v
  | 0x05 => plainCommand .merge v
  | 0x06 => plainCommand .build v
  | 0x07 => plainCommand .gencodes v
  | 0x08 => plainCommand .serialize v
  | 0x09 => .ok (.pack (fieldSym v))
  | 0x0A => plainCommand .flush v
  | _ => .error .reservedOpcode

/-- The decoder: exactly one command of R95 with its operand, or a named rejection (R97). -/
def decode (v : Word32) : Except Reject Instr :=
  if fieldRsv v = 0#16 then decodeOp v else .error .reservedFieldSet

/-- The word {RSV = 0, SYM, OP} of the format CMD32 (R90). -/
def cmdWord (op : BitVec 8) (sym : Sym) : Word32 := (0#16 ++ sym ++ op : BitVec 32)

/-- The encoder: (s << 8) | OP, or OP alone (R95, R99). -/
def encode : Instr → Word32
  | .clear => cmdWord 0x01#8 0#8
  | .count s => cmdWord 0x02#8 s
  | .setfreq s => cmdWord 0x03#8 s
  | .finit => cmdWord 0x04#8 0#8
  | .merge => cmdWord 0x05#8 0#8
  | .build => cmdWord 0x06#8 0#8
  | .gencodes => cmdWord 0x07#8 0#8
  | .serialize => cmdWord 0x08#8 0#8
  | .pack s => cmdWord 0x09#8 s
  | .flush => cmdWord 0x0A#8 0#8

/-- The bus word whose bits are `w`, numbered as the opcode table numbers them: every bit from `nbits` on is 0, and the
format has 32 bits (R90, R98). `none` where a bit above the format is set. -/
def tableWord (nbits w : Nat) : Option Word32 :=
  if w % 2 ^ nbits < 2 ^ 32 then some (BitVec.ofNat 32 (w % 2 ^ nbits)) else none

/-- What the decoder reads from a word given by its bits. -/
def decodeTableWord (nbits w : Nat) : Option Instr :=
  match tableWord nbits w with
  | none => none
  | some v =>
    match decode v with
    | .ok i => some i
    | .error _ => none

end Sys2Proof
end

