-- ==== Sys2Proof/Config.lean ====
section
/-! DEFINITION. What is fixed for the machine (spec R5), and its open parameters and free values (spec R6, R256). -/

namespace Sys2Proof.Config

/-- SYM_W = 8 makes 256 symbols (R5: NSYM_MAX). -/
abbrev nsymMax : Nat := 256

/-- NODE_MAX = 2 * 256 - 1 arena entries (R5). -/
abbrev nodeMax : Nat := 511

/-- STACK_MAX, the entries of a traversal stack (R5, R38, D27). -/
def stackMax : Nat := 256

/-- REC_WEIGHT_W, the weight bits a node record keeps (R5, R180). -/
def recWeightBits : Nat := 55

/-- The largest TOTAL, 2^64 - 1 (R27, R110, R111). -/
def totalMax : Nat := 2 ^ 64 - 1

/-- MAGIC[0..7], the open parameter of R6: the spec gives no value, so nothing can be proved about one (log 7). -/
opaque magic : Fin 8 → Byte

/-- MMIO_BASE, the open parameter of R6: no rule depends on its value (log 8). -/
opaque mmioBase : Nat

/-- What OUT holds after the n-th SINK_IO of a run: any value (R256), so an uninterpreted function of a counter (log 6). -/
opaque freeOut : Nat → List Byte

/-- The eight header bytes in the order SERIALIZE emits them (R182). -/
def magicBytes : List Byte := [magic 0, magic 1, magic 2, magic 3, magic 4, magic 5, magic 6, magic 7]

/-- Where the platform places the register at a byte offset (R6, R61). -/
def platformAddress (off : Offset) : Nat := mmioBase + off.toNat

end Sys2Proof.Config
end

