-- ==== Sys2Proof/Machine/State.lean ====
section
/-! DEFINITION. The architectural state of HUFFPACK (spec R20 to R39), the environment around it (spec R39, R60, R76,
R81, R260), the reasons a step can stop, and the state after reset (spec R290). -/

namespace Sys2Proof.Machine

/-- PHASE (R21). The encoding 6 is never taken, so it has no constructor. -/
inductive Phase where
  /-- 0: counting symbols -/
  | count
  /-- 1: the forest holds two or more roots -/
  | merge
  /-- 2: one root, the tree is complete -/
  | tree
  /-- 3: the code table is built -/
  | coded
  /-- 4: the tree section is emitted, the payload is being packed -/
  | pack
  /-- 5: the payload is flushed -/
  | done
  /-- 7: an error was detected -/
  | fault
deriving DecidableEq, Repr

/-- ERR (R22, R251). The codes 7..255 are never produced, so they have no constructor. -/
inductive ErrCode where
  /-- 0: no error -/
  | none
  /-- 1: the CMD word is ill-formed -/
  | illegalCmd
  /-- 2: a well-formed command in a phase that does not accept it -/
  | sequence
  /-- 3: FINIT with NSYM = 0 -/
  | empty
  /-- 4: TOTAL would exceed 2^64 - 1 -/
  | countOverflow
  /-- 5: PACK of a symbol without a code -/
  | missingSymbol
  /-- 6: the sink reports an I/O error -/
  | sinkIo
deriving DecidableEq, Repr

/-- KIND of an arena entry (R29): 1 = Leaf, 0 = Internal or unused. -/
inductive NodeKind where
  | internal
  | leaf
deriving DecidableEq, Repr

/-- One arena entry (R29). -/
structure NodeEntry where
  kind  : NodeKind
  sym   : Sym
  w     : Weight
  left  : NodeIdx
  right : NodeIdx
deriving DecidableEq, Repr

/-- An unused arena entry: all fields 0 (R29). -/
def NodeEntry.zero : NodeEntry := { kind := .internal, sym := 0#8, w := 0#64, left := 0#9, right := 0#9 }

/-- Leaf(s, w) of R12. -/
def NodeEntry.leafOf (s : Sym) (w : Weight) : NodeEntry :=
  { kind := .leaf, sym := s, w := w, left := 0#9, right := 0#9 }

/-- Internal(w, l, r) of R12. -/
def NodeEntry.internalOf (w : Weight) (l r : NodeIdx) : NodeEntry :=
  { kind := .internal, sym := 0#8, w := w, left := l, right := r }

/-- The sink's answer to one Emit (R81, R256, R260). A sink that takes the byte late is a sink that takes it: the wait
changes no state (R81). -/
inductive SinkReply where
  /-- the sink takes the byte -/
  | takes
  /-- the sink refuses the byte with an I/O error -/
  | ioError
  /-- the sink neither takes the byte nor reports an error, ever -/
  | silent
deriving DecidableEq, Repr

/-- One access of the host to the block (R260). `width` is in bits; only 32 has a meaning (R62). -/
inductive HostAccess where
  /-- the reset signal (R290) -/
  | reset
  /-- MmioRead at a byte offset (R232) -/
  | read (off : Offset) (width : Nat)
  /-- MmioWrite of a word at a byte offset (R231) -/
  | write (off : Offset) (width : Nat) (v : Word32)
deriving DecidableEq, Repr

/-- The reasons the machine stops. None of them is an error of R251: those are phases of the machine, reached in a next
state. -/
inductive Fault where
  /-- The sink never answers an Emit of SERIALIZE, PACK or FLUSH: the command waits forever (R260, 93 row 22 "stuck").
  Safe: nothing is claimed of a command that never ends. -/
  | sinkSilent
  /-- MERGE or BUILD selects from an empty forest; R131 gives a step only when FOREST is 2 or more. Raised only in a state
  no run reaches (log 10). Safe. -/
  | forestEmpty
  /-- MERGE or BUILD needs an arena index above 510; R131 derives that there is none. Raised only in a state no run
  reaches (log 10). Safe. -/
  | arenaFull
  /-- GENCODES or SERIALIZE walks an arena that holds no tree of at most 511 nodes and depth 255 under ROOT; R136 and R164
  derive that it always does. Raised only in a state no run reaches (log 10). Safe. -/
  | arenaNotATree
deriving DecidableEq, Repr

/-- The reasons a step has no meaning. -/
inductive Refusal where
  /-- An instruction without a meaning; no arm of exec answers it. Safe. -/
  | notModelled (mnemonic : String)
  /-- A host access at an offset that is not a multiple of 4 (R62, 93 row 21 "refuse"). Safe. -/
  | misalignedAccess (off : Offset)
  /-- A host access whose width is not 32 bits (R62, 93 row 21 "refuse"). Safe. -/
  | badAccessWidth (width : Nat)
deriving DecidableEq, Repr

/-- The whole state. The fields down to `outcnt` are exactly the block's state of R20; the rest is outside the block. -/
structure State where
  /-- PHASE (R21) -/
  phase  : Phase
  /-- ERR (R22) -/
  err    : ErrCode
  /-- DEGEN (R23) -/
  degen  : Bool
  /-- TRUNC (R24) -/
  trunc  : Bool
  /-- DATA_LO (R25) -/
  dataLo : BitVec 32
  /-- DATA_HI (R25) -/
  dataHi : BitVec 32
  /-- FREQ[0..255] (R26) -/
  freq   : Vector Weight 256
  /-- TOTAL (R27) -/
  total  : BitVec 64
  /-- NODE[0..510] (R29) -/
  node   : Vector NodeEntry 511
  /-- NNODES (R30) -/
  nnodes : BitVec 10
  /-- ACTIVE[0..510] (R31) -/
  active : Vector Bool 511
  /-- ROOT (R32) -/
  root   : NodeIdx
  /-- CODE[0..255] (R33) -/
  code   : Vector CodeWord 256
  /-- LEN[0..255] (R34) -/
  len    : Vector CodeLen 256
  /-- ACC (R35) -/
  acc    : Accumulator
  /-- OFF (R36) -/
  off    : BitVec 9
  /-- OUTCNT (R37) -/
  outcnt : BitVec 64
  /-- OUT, the sink history, oldest byte first (R39) -/
  out    : List Byte
  /-- the sink's answers to the coming Emits, oldest first; a used-up script takes every byte (R81, R256; log 4) -/
  sinkScript : List SinkReply
  /-- the host's coming accesses, oldest first (R76, R260; log 1) -/
  hostQueue  : List HostAccess
  /-- the words the host's reads returned, oldest first (R232; log 3) -/
  readLog    : List Word32
  /-- the model's own counter: how many free values of OUT were drawn (R256; log 6) -/
  freeCount  : Nat
deriving DecidableEq, Repr

/-- The machine right after reset (R290). The fields outside the block start empty (logs 1, 3, 4, 5, 6). -/
def State.reset : State where
  phase  := .count
  err    := .none
  degen  := false
  trunc  := false
  dataLo := 0#32
  dataHi := 0#32
  freq   := Vector.replicate 256 0#64
  total  := 0#64
  node   := Vector.replicate 511 NodeEntry.zero
  nnodes := 0#10
  active := Vector.replicate 511 false
  root   := 0#9
  code   := Vector.replicate 256 0#256
  len    := Vector.replicate 256 0#9
  acc    := 0#264
  off    := 0#9
  outcnt := 0#64
  out    := []
  sinkScript := []
  hostQueue  := []
  readLog    := []
  freeCount  := 0

/-- What every step and every command answers. -/
abbrev Result := Host.Outcome State Fault Refusal

end Sys2Proof.Machine
end

