-- ==== Sys2Proof/Machine/Ops.lean ====
section
/-! DEFINITION. The operations every command shares: table entries by symbol and by arena index, the derived counts, the
fault entry and the reset, the sink, and the phase gate (spec R9, R10, R28, R31, R39, R233, R253, R256, R290). -/

namespace Sys2Proof.Machine

/-! ## Tables -/

/-- T[s], an entry of a 256-entry table (R9): the symbol is the index, as is (R92). -/
def symGet {α : Type} (t : Vector α 256) (s : Sym) : α := t[s.toNat]'s.isLt

/-- T[s] <- x (R9). -/
def symSet {α : Type} (t : Vector α 256) (s : Sym) (x : α) : Vector α 256 := t.set s.toNat x s.isLt

/-- NODE[i] for the value of a LEFT, RIGHT or ROOT field; `none` for 511, which is no arena index (R29). -/
def arenaGet (node : Vector NodeEntry 511) (i : NodeIdx) : Option NodeEntry := node[i.toNat]?

/-- The table of 511 entries whose entry i is f i. -/
def arenaTable {α : Type} (f : Nat → α) : Vector α 511 := ⟨⟨(List.range 511).map f⟩, by simp⟩

/-- The symbols in ascending order (R132). -/
def symbols : List Sym := (List.range 256).map (BitVec.ofNat 8)

/-! ## Derived values -/

/-- NSYM = |{ s : FREQ[s] ≠ 0 }| (R28). -/
def State.nsym (s : State) : Nat := s.freq.toList.countP (· != 0#64)

/-- FOREST = |{ i : ACTIVE[i] = 1 }| (R31). -/
def State.forest (s : State) : Nat := s.active.toList.count true

/-! ## Taking a fault, and leaving it -/

/-- `raise Fault(e)`: ERR <- e and PHASE <- FAULT, and nothing else, when PHASE is not FAULT already (R22, R253). -/
def raiseFault (e : ErrCode) (s : State) : State :=
  if s.phase = .fault then s else { s with err := e, phase := .fault }

/-- ResetState(): every element of R20 takes its reset value, and nothing outside the block changes (R290). It is what a
hardware reset and CLEAR do, the only two ways out of FAULT (R255). -/
def resetBlock (s : State) : State :=
  { State.reset with
    out := s.out, sinkScript := s.sinkScript, hostQueue := s.hostQueue, readLog := s.readLog,
    freeCount := s.freeCount }

/-! ## The sink -/

/-- The answer to an attempt to emit. -/
inductive EmitResult where
  /-- the sink took every byte -/
  | took (s : State)
  /-- the sink reported an I/O error; the state counts the bytes it took before -/
  | ioError (s : State)
  /-- the sink never answers -/
  | silent
deriving DecidableEq, Repr

/-- `Emit(b)`: append b to OUT and count it, if the sink takes it (R39, R37, R81). -/
def emit (b : Byte) (s : State) : EmitResult :=
  match s.sinkScript with
  | [] => .took { s with out := s.out ++ [b], outcnt := s.outcnt + 1#64 }
  | .takes :: rest => .took { s with out := s.out ++ [b], outcnt := s.outcnt + 1#64, sinkScript := rest }
  | .ioError :: rest => .ioError { s with sinkScript := rest }
  | .silent :: _ => .silent

/-- The Emits of one command, in order; the first that the sink does not take ends them (R76, R256). -/
def emitAll : List Byte → State → EmitResult
  | [], s => .took s
  | b :: bs, s =>
    match emit b s with
    | .took t => emitAll bs t
    | .ioError t => .ioError t
    | .silent => .silent

/-- SINK_IO (R256): the fault entry with code 6. OUTCNT keeps the count of the bytes taken, every other register and
table is as before the command, and OUT is any value: a free value (log 6). -/
def sinkIoFault (s : State) : State :=
  { raiseFault .sinkIo s with out := Config.freeOut s.freeCount, freeCount := s.freeCount + 1 }

/-- A command that emits `bs` and then writes registers. The registers are written only when the sink took every byte
(R256); the bytes of a command do not depend on the answers. -/
def emitThen (bs : List Byte) (commit : State → State) (s : State) : Result :=
  match emitAll bs s with
  | .took t => .next (commit t)
  | .ioError t => .next (sinkIoFault t)
  | .silent => .fault .sinkSilent

/-- The sink takes each of the next `n` bytes. -/
def State.sinkTakes (s : State) (n : Nat) : Bool := (s.sinkScript.take n).all (· == .takes)

/-! ## The phase gate -/

/-- Accepts(op), the phases in which a command is accepted (R233, R95). -/
def accepts : Instr → Phase → Bool
  | .clear, _ => true
  | .count _, p => p == .count
  | .setfreq _, p => p == .count
  | .finit, p => p == .count
  | .merge, p => p == .merge
  | .build, p => p == .merge || p == .tree
  | .gencodes, p => p == .tree
  | .serialize, p => p == .coded
  | .pack _, p => p == .pack
  | .flush, p => p == .pack

/-- The dispatch of a well-formed command other than CLEAR (R233): ignored in FAULT (R254), SEQUENCE in a phase that does
not accept it, else its rule runs. -/
def gated (i : Instr) (body : State → Result) (s : State) : Result :=
  if s.phase = .fault then .next s
  else if accepts i s.phase then body s
  else .next (raiseFault .sequence s)

end Sys2Proof.Machine
end

