-- ==== Sys2Proof/Machine/BitPacker.lean ====
section
/-! DEFINITION. The Huffman bit-packer: the reversed code, PACK and FLUSH (spec R200 to R203). -/

namespace Sys2Proof.Machine

/-- The partial sum over i < n of c[L-1-i] * 2^i (R200). -/
def revSum (c : CodeWord) (L : Nat) : Nat → Nat
  | 0 => 0
  | n + 1 => revSum c L n + (c.getLsbD (L - 1 - n)).toNat * 2 ^ n

/-- rev(s), the reversed code: bit i is c[L-1-i], so bit 0 is the branch at the root (R200, C2). -/
def revCode (c : CodeWord) (L : Nat) : Nat := revSum c L L

/-- ACC | (zext_264(rev) << OFF) (R201). -/
def foldCode (acc : Accumulator) (off : Nat) (c : CodeWord) (L : Nat) : Accumulator :=
  acc ||| (BitVec.ofNat 264 (revCode c L) <<< off)

/-- What the emit loop of R201 leaves: the bytes emitted, ACC, and the offset. -/
structure Drained where
  bytes : List Byte
  acc   : Accumulator
  off   : Nat
deriving DecidableEq, Repr

/-- `while o > 7: Emit(ACC[7:0]); ACC <- ACC >> 8; o <- o - 8` (R201), for at most `fuel` turns. Each turn lowers o, so o
itself is fuel enough. -/
def drain : Nat → Accumulator → Nat → Drained
  | 0, acc, o => { bytes := [], acc := acc, off := o }
  | fuel + 1, acc, o =>
    if o > 7 then
      let d := drain fuel (acc >>> 8) (o - 8)
      { d with bytes := acc.extractLsb' 0 8 :: d.bytes }
    else { bytes := [], acc := acc, off := o }

/-- The fold and the emit loop of PACK s, before the sink answers (R201). -/
def packDrain (sym : Sym) (s : State) : Drained :=
  let L := (symGet s.len sym).toNat
  let o := s.off.toNat + L
  drain o (foldCode s.acc s.off.toNat (symGet s.code sym) L) o

/-- The rule of PACK s (R201). -/
def packBody (sym : Sym) (s : State) : Result :=
  if symGet s.len sym = 0#9 then .next (raiseFault .missingSymbol s)
  else
    let d := packDrain sym s
    emitThen d.bytes (fun t => { t with acc := d.acc, off := BitVec.ofNat 9 d.off }) s

/-- PACK s (R201). -/
def execPack (sym : Sym) (s : State) : Result := gated (.pack sym) (packBody sym) s

/-- The byte FLUSH emits when OFF > 0: ACC[7:0] (R202). -/
def flushBytes (s : State) : List Byte := if s.off.toNat > 0 then [s.acc.extractLsb' 0 8] else []

/-- The rule of FLUSH (R202). -/
def flushBody (s : State) : Result :=
  emitThen (flushBytes s) (fun t => { t with acc := 0#264, off := 0#9, phase := .done }) s

/-- FLUSH (R202). -/
def execFlush (s : State) : Result := gated .flush flushBody s

end Sys2Proof.Machine
end

