-- ==== Sys2Proof/Machine/CodeGen.lean ====
section
/-! DEFINITION. The code-map generator GENCODES (spec R160 to R162, R164). -/

namespace Sys2Proof.Machine

/-- The two tables GENCODES fills. -/
structure CodeTables where
  code : Vector CodeWord 256
  len  : Vector CodeLen 256
deriving DecidableEq, Repr

/-- CODE[all] = 0 and LEN[all] = 0 (R161). -/
def CodeTables.cleared : CodeTables := { code := Vector.replicate 256 0#256, len := Vector.replicate 256 0#9 }

/-- CODE[s] <- c ; LEN[s] <- d (R161). -/
def CodeTables.assign (t : CodeTables) (s : Sym) (c : CodeWord) (d : Nat) : CodeTables :=
  { code := symSet t.code s c, len := symSet t.len s (BitVec.ofNat 9 d) }

/-- The walk of R161 over a stack of triples (index, code, depth), top first. `none` where the walk leaves the arena, the
stack passes STACK_MAX or the fuel ends; R164 derives that none of these happens in a tree (log 10). -/
def codeWalk (node : Vector NodeEntry 511) :
    Nat → List (NodeIdx × CodeWord × Nat) → CodeTables → Option CodeTables
  | _, [], t => some t
  | 0, _ :: _, _ => none
  | fuel + 1, (i, c, d) :: rest, t =>
    match arenaGet node i with
    | none => none
    | some e =>
      match e.kind with
      | .leaf => codeWalk node fuel rest (t.assign e.sym c d)
      | .internal =>
        if rest.length + 2 ≤ Config.stackMax then
          codeWalk node fuel ((e.left, c <<< 1, d + 1) :: (e.right, (c <<< 1) ||| 1#256, d + 1) :: rest) t
        else none

/-- The tables GENCODES leaves: the one-bit code 0 of the degenerate case (R162), else the walk from ROOT. A tree has at
most NODE_MAX nodes, so NODE_MAX pops end the walk. -/
def genTables (s : State) : Option CodeTables :=
  if s.degen then
    (arenaGet s.node s.root).map fun e => CodeTables.cleared.assign e.sym 0#256 1
  else codeWalk s.node Config.nodeMax [(s.root, 0#256, 0)] .cleared

/-- The rule of GENCODES (R161). -/
def gencodesBody (s : State) : Result :=
  match genTables s with
  | some t => .next { s with code := t.code, len := t.len, phase := .coded }
  | none => .fault .arenaNotATree

/-- GENCODES (R161). -/
def execGencodes (s : State) : Result := gated .gencodes gencodesBody s

end Sys2Proof.Machine
end

