-- ==== Sys2Proof/Machine/Control.lean ====
section
/-! DEFINITION. CLEAR (spec R230). The host's bus operations and the dispatch of a CMD write, which calls exec, are in
Machine/Bus.lean. -/

namespace Sys2Proof.Machine

/-- CLEAR: ResetState() in every phase, FAULT included; OUT is unchanged (R230, R233, R254). -/
def execClear (s : State) : Result := .next (resetBlock s)

end Sys2Proof.Machine
end

