-- ==== Sys2Proof/Machine/Operands.lean ====
section
/-! DEFINITION. The operands of the commands (spec R92, R93). SYM is in the command word and in the constructor; the one
operand outside the word is SETFREQ's. -/

namespace Sys2Proof.Machine

/-- The symbol operand of a command that takes one: COUNT, SETFREQ, PACK (R92, R95). -/
def symOperand : Instr → Option Sym
  | .count s => some s
  | .setfreq s => some s
  | .pack s => some s
  | .clear => none
  | .finit => none
  | .merge => none
  | .build => none
  | .gencodes => none
  | .serialize => none
  | .flush => none

/-- D = {DATA_HI, DATA_LO} = DATA_HI * 2^32 + DATA_LO, the 64-bit operand of SETFREQ (R93). -/
def State.dataOperand (s : State) : Weight := (s.dataHi ++ s.dataLo : BitVec 64)

end Sys2Proof.Machine
end

