-- ==== Sys2Proof/Machine/Frequency.lean ====
section
/-! DEFINITION. The frequency stage: COUNT and SETFREQ (spec R110, R111). -/

namespace Sys2Proof.Machine

/-- The rule of COUNT s (R110). -/
def countBody (sym : Sym) (s : State) : Result :=
  if s.total.toNat = Config.totalMax then .next (raiseFault .countOverflow s)
  else .next { s with freq := symSet s.freq sym (symGet s.freq sym + 1#64), total := s.total + 1#64 }

/-- COUNT s: count one input byte (R110). -/
def execCount (sym : Sym) (s : State) : Result := gated (.count sym) (countBody sym) s

/-- T' = TOTAL - FREQ[s] + D, over the integers (R111). -/
def setfreqTotal (sym : Sym) (s : State) : Int :=
  (s.total.toNat : Int) - (symGet s.freq sym).toNat + s.dataOperand.toNat

/-- The rule of SETFREQ s (R111). -/
def setfreqBody (sym : Sym) (s : State) : Result :=
  if setfreqTotal sym s > Config.totalMax then .next (raiseFault .countOverflow s)
  else .next { s with
    freq := symSet s.freq sym s.dataOperand, total := BitVec.ofInt 64 (setfreqTotal sym s) }

/-- SETFREQ s: set one symbol's count (R111). -/
def execSetfreq (sym : Sym) (s : State) : Result := gated (.setfreq sym) (setfreqBody sym) s

end Sys2Proof.Machine
end

