-- ==== Sys2Proof/Machine/Flags.lean ====
section
/-! DEFINITION. The two flags DEGEN and TRUNC, and the STATUS word that shows them beside PHASE, ERR and OFF
(spec R21 to R24, R42, R44). -/

namespace Sys2Proof.Machine

/-- The 3-bit value of PHASE (R21). -/
def Phase.bits : Phase → BitVec 3
  | .count => 0#3
  | .merge => 1#3
  | .tree => 2#3
  | .coded => 3#3
  | .pack => 4#3
  | .done => 5#3
  | .fault => 7#3

/-- The 8-bit value of ERR (R251). -/
def ErrCode.bits : ErrCode → BitVec 8
  | .none => 0#8
  | .illegalCmd => 1#8
  | .sequence => 2#8
  | .empty => 3#8
  | .countOverflow => 4#8
  | .missingSymbol => 5#8
  | .sinkIo => 6#8

/-- The bit of KIND (R29): 1 = Leaf. -/
def NodeKind.bit : NodeKind → BitVec 1
  | .internal => 0#1
  | .leaf => 1#1

/-- What FINIT writes to DEGEN: whether the forest starts with exactly one leaf (R23, R132). -/
def degenFlag (nsym : Nat) : Bool := nsym == 1

/-- What SERIALIZE writes to TRUNC: whether some serialized node has W ≥ 2^55 (R24, R183). -/
def truncFlag (entries : List NodeEntry) : Bool := entries.any (fun e => 2 ^ Config.recWeightBits ≤ e.w.toNat)

/-- STATUS = zext_32({OFF[2:0], ERR, 000, TRUNC, DEGEN, PHASE}) (R44). -/
def State.status (s : State) : Word32 :=
  (s.off.extractLsb' 0 3 ++ s.err.bits ++ 0#3 ++ BitVec.ofBool s.trunc ++ BitVec.ofBool s.degen ++ s.phase.bits
    : BitVec 19).setWidth 32

end Sys2Proof.Machine
end

