-- ==== Sys2Proof/Machine/Merge.lean ====
section
/-! DEFINITION. The priority-queue merge engine: the comparator, the selection, FINIT, MERGE and BUILD
(spec R130 to R134). -/

namespace Sys2Proof.Machine

/-! ## The comparator and the selection -/

/-- a ≺ b for the entries a at index i and b at index j (R130), its four keys in order. -/
def precedes (a : NodeEntry) (i : Nat) (b : NodeEntry) (j : Nat) : Bool :=
  if a.w ≠ b.w then a.w.toNat < b.w.toNat
  else if a.kind ≠ b.kind then a.kind == .leaf
  else if a.kind = .leaf then a.sym.toNat < b.sym.toNat
  else i < j

/-- ≺ between two arena indices (R130). -/
def precedesAt (node : Vector NodeEntry 511) (i j : Fin 511) : Bool := precedes node[i] i.val node[j] j.val

/-- { i : ACTIVE[i] = 1 }, the forest (R31), read off the table once from entry 0 to entry 510. -/
def activeList (active : Vector Bool 511) : List (Fin 511) :=
  ((List.finRange 511).zip active.toList).filterMap fun p => if p.2 then some p.1 else none

/-- argmin≺ of a set of arena entries, `none` for the empty set (R131). -/
def argmin (node : Vector NodeEntry 511) : List (Fin 511) → Option (Fin 511)
  | [] => none
  | i :: rest =>
    match argmin node rest with
    | none => some i
    | some m => if precedesAt node i m then some i else some m

/-- One selection: argmin≺ { i : ACTIVE[i] = 1 } (R131). It is irreducible only to keep proofs from unfolding the scan of
the table by accident. -/
@[irreducible] def selectMin (node : Vector NodeEntry 511) (active : Vector Bool 511) : Option (Fin 511) :=
  argmin node (activeList active)

/-- The last line of MergeOnce: if FOREST = 1 then ROOT <- k and PHASE <- TREE (R131). -/
def finishTree (k : Nat) (s : State) : State :=
  if s.forest = 1 then { s with root := BitVec.ofNat 9 k, phase := .tree } else s

/-- The writes of MergeOnce once m1 and m2 are selected and k = NNODES is an arena index (R131). -/
def mergePair (m1 m2 : Fin 511) (k : Nat) (hk : k < 511) (s : State) : State :=
  finishTree k { s with
    node := s.node.set k
      (.internalOf (s.node[m1].w + s.node[m2].w) (BitVec.ofNat 9 m1.val) (BitVec.ofNat 9 m2.val)) hk
    active := ((s.active.set m1.val false m1.isLt).set m2.val false m2.isLt).set k true hk
    nnodes := s.nnodes + 1#10 }

/-- MergeOnce() of R131: the two first-selected roots become the children of a new root, left = first selected. -/
def mergeOnce (s : State) : Except Fault State :=
  match selectMin s.node s.active with
  | none => .error .forestEmpty
  | some m1 =>
    match selectMin s.node (s.active.set m1.val false m1.isLt) with
    | none => .error .forestEmpty
    | some m2 => if hk : s.nnodes.toNat < 511 then .ok (mergePair m1 m2 s.nnodes.toNat hk s) else .error .arenaFull

/-- `while FOREST > 1: MergeOnce()` (R134), for at most `fuel` merges. Each merge lowers FOREST, so FOREST itself is fuel
enough. -/
def mergeLoop : Nat → State → Except Fault State
  | 0, s => .ok s
  | fuel + 1, s =>
    if s.forest > 1 then (mergeOnce s).bind (mergeLoop fuel) else .ok s

/-- A merge's outcome as the command's. -/
def mergeResult : Except Fault State → Result
  | .ok t => .next t
  | .error e => .fault e

/-! ## FINIT -/

/-- The leaves FINIT creates: Leaf(s, FREQ[s]) for each s with FREQ[s] ≠ 0, in ascending symbol order (R132). -/
def leafEntries (freq : Vector Weight 256) : List NodeEntry :=
  (symbols.zip freq.toList).filterMap fun p => if p.2 = 0#64 then none else some (.leafOf p.1 p.2)

/-- The arena after FINIT: the leaves from index 0 on, every other entry all-zero (R132). -/
def finitArena (freq : Vector Weight 256) : Vector NodeEntry 511 :=
  let leaves := leafEntries freq
  arenaTable fun i => leaves.getD i .zero

/-- The rule of FINIT (R132). -/
def finitBody (s : State) : Result :=
  let n := s.nsym
  if n = 0 then .next (raiseFault .empty s)
  else .next { s with
    node := finitArena s.freq
    active := arenaTable fun i => decide (i < n)
    code := Vector.replicate 256 0#256
    len := Vector.replicate 256 0#9
    nnodes := BitVec.ofNat 10 n
    root := 0#9
    degen := degenFlag n
    phase := if n = 1 then .tree else .merge }

/-- FINIT: initialise the forest (R132). -/
def execFinit (s : State) : Result := gated .finit finitBody s

/-! ## MERGE and BUILD -/

/-- The rule of MERGE (R133). -/
def mergeBody (s : State) : Result := mergeResult (mergeOnce s)

/-- MERGE: one merge step (R133). -/
def execMerge (s : State) : Result := gated .merge mergeBody s

/-- The rule of BUILD (R134): merge to one root in phase MERGE, nothing in phase TREE. -/
def buildBody (s : State) : Result :=
  if s.phase = .merge then mergeResult (mergeLoop s.forest s) else .next s

/-- BUILD: merge to one root (R134). -/
def execBuild (s : State) : Result := gated .build buildBody s

end Sys2Proof.Machine
end

