-- ==== Sys2Proof/Machine/Serializer.lean ====
section
/-! DEFINITION. The code-tree serializer: the node record, the traversal order and SERIALIZE
(spec R71, R180 to R183). -/

namespace Sys2Proof.Machine

/-- Record(i) of R180: the leaf flag, the low 55 bits of the weight, the symbol of a leaf. -/
def nodeRecord (e : NodeEntry) : NodeRecord :=
  e.kind.bit.setWidth 64
    ||| ((e.w.setWidth 55).setWidth 64 <<< 1)
    ||| ((if e.kind = .leaf then e.sym else 0#8).setWidth 64 <<< 56)

/-- The bytes of `Emit64LE(r)`, low byte first (R10, R71). -/
def bytesLE (r : NodeRecord) : List Byte :=
  [r.extractLsb' 0 8, r.extractLsb' 8 8, r.extractLsb' 16 8, r.extractLsb' 24 8,
   r.extractLsb' 32 8, r.extractLsb' 40 8, r.extractLsb' 48 8, r.extractLsb' 56 8]

/-- The entries in the order their records are emitted (R181), by the explicit stack, top first. `none` where the walk
leaves the arena, the stack passes STACK_MAX or the fuel ends; none of these happens in a tree (log 10). -/
def recordWalk (node : Vector NodeEntry 511) : Nat → List NodeIdx → Option (List NodeEntry)
  | _, [] => some []
  | 0, _ :: _ => none
  | fuel + 1, i :: rest =>
    match arenaGet node i with
    | none => none
    | some e =>
      match e.kind with
      | .leaf => (recordWalk node fuel rest).map (e :: ·)
      | .internal =>
        if rest.length + 2 ≤ Config.stackMax then
          (recordWalk node fuel (e.left :: e.right :: rest)).map (e :: ·)
        else none

/-- The records of the tree under ROOT, in pre-order (R181). A tree has at most NODE_MAX nodes. -/
def treeEntries (s : State) : Option (List NodeEntry) := recordWalk s.node Config.nodeMax [s.root]

/-- The bytes SERIALIZE emits: MAGIC, the records, the zero sentinel (R182). -/
def serialBytes (entries : List NodeEntry) : List Byte :=
  Config.magicBytes ++ entries.flatMap (fun e => bytesLE (nodeRecord e)) ++ bytesLE 0#64

/-- The rule of SERIALIZE (R182, R183). -/
def serializeBody (s : State) : Result :=
  match treeEntries s with
  | some es => emitThen (serialBytes es) (fun t => { t with trunc := truncFlag es, phase := .pack }) s
  | none => .fault .arenaNotATree

/-- SERIALIZE (R182). -/
def execSerialize (s : State) : Result := gated .serialize serializeBody s

end Sys2Proof.Machine
end

