-- ==== Sys2Proof/Machine/Dispatch.lean ====
section
/-! DEFINITION. One arm per command: what a well-formed command word written to CMD does (spec R233, from its fourth line on;
the first and third branches stand in each meaning, the second in Machine/Bus.lean). -/

namespace Sys2Proof.Machine

def exec (i : Instr) (s : State) : Host.Outcome State Fault Refusal :=
  match i with
  | .clear => Sys2Proof.Machine.execClear s
  | .count sym => Sys2Proof.Machine.execCount sym s
  | .setfreq sym => Sys2Proof.Machine.execSetfreq sym s
  | .finit => Sys2Proof.Machine.execFinit s
  | .merge => Sys2Proof.Machine.execMerge s
  | .build => Sys2Proof.Machine.execBuild s
  | .gencodes => Sys2Proof.Machine.execGencodes s
  | .serialize => Sys2Proof.Machine.execSerialize s
  | .pack sym => Sys2Proof.Machine.execPack sym s
  | .flush => Sys2Proof.Machine.execFlush s

end Sys2Proof.Machine
end

