-- ==== Sys2Proof/Machine/Bus.lean ====
section
/-! DEFINITION. The host's bus operations and the dispatch of a CMD write (spec R44 to R47, R61 to R70, R231 to R233). -/

namespace Sys2Proof.Machine

/-! ## The read windows -/

/-- The half of a 64-bit value at word k: low word first (R70). -/
def wordOf64 (x : BitVec 64) (k : Nat) : Word32 := x.extractLsb' (32 * k) 32

/-- A word of the FREQ window, n = offset - 0x0100 (R65). -/
def freqWindow (s : State) (n : Nat) : Word32 := wordOf64 (s.freq.getD (n / 8) 0#64) (n / 4 % 2)

/-- A word of the LEN window, n = offset - 0x0900 (R66). -/
def lenWindow (s : State) (n : Nat) : Word32 := (s.len.getD (n / 4) 0#9).setWidth 32

/-- A word of the CODE window, n = offset - 0x1000 (R67). -/
def codeWindow (s : State) (n : Nat) : Word32 := (s.code.getD (n / 32) 0#256).extractLsb' (32 * (n / 4 % 8)) 32

/-- Word k of an arena entry (R68). -/
def entryWord (e : NodeEntry) (k : Nat) : Word32 :=
  match k with
  | 0 => (e.sym ++ 0#7 ++ e.kind.bit : BitVec 16).setWidth 32
  | 1 => wordOf64 e.w 0
  | 2 => wordOf64 e.w 1
  | _ => (e.right ++ 0#7 ++ e.left : BitVec 25).setWidth 32

/-- A word of the NODE window, n = offset - 0x4000 (R68). -/
def nodeWindow (s : State) (n : Nat) : Word32 := entryWord (s.node.getD (n / 16) .zero) (n / 4 % 4)

/-- The value whose bit b, for b < n, is ACTIVE[base + b]; an index past 510 reads 0 (R69). -/
def activeSum (s : State) (base : Nat) : Nat → Nat
  | 0 => 0
  | n + 1 => activeSum s base n + (s.active.getD (base + n) false).toNat * 2 ^ n

/-- A word of the ACTIVE window, n = offset - 0x6000: bit b of word j is ACTIVE[32j + b] (R69). -/
def activeWindow (s : State) (n : Nat) : Word32 := BitVec.ofNat 32 (activeSum s (32 * (n / 4)) 32)

/-! ## MmioRead -/

/-- The value `MmioRead` returns for an aligned offset (R232): the register map of R45, the windows of R65 to R69, and 0 for
CMD (R46) and for every unmapped offset (R63). -/
def mmioRead (off : Offset) (s : State) : Word32 :=
  let n := off.toNat
  if n = 0x0000 then 0#32
  else if n = 0x0004 then s.status
  else if n = 0x0008 then s.dataLo
  else if n = 0x000C then s.dataHi
  else if n = 0x0010 then BitVec.ofNat 32 s.nsym
  else if n = 0x0014 then s.nnodes.setWidth 32
  else if n = 0x0018 then BitVec.ofNat 32 s.forest
  else if n = 0x001C then s.root.setWidth 32
  else if n = 0x0020 then wordOf64 s.total 0
  else if n = 0x0024 then wordOf64 s.total 1
  else if n = 0x0028 then wordOf64 s.outcnt 0
  else if n = 0x002C then wordOf64 s.outcnt 1
  else if 0x0100 ≤ n ∧ n < 0x0900 then freqWindow s (n - 0x0100)
  else if 0x0900 ≤ n ∧ n < 0x0D00 then lenWindow s (n - 0x0900)
  else if 0x1000 ≤ n ∧ n < 0x3000 then codeWindow s (n - 0x1000)
  else if 0x4000 ≤ n ∧ n < 0x5FF0 then nodeWindow s (n - 0x4000)
  else if 0x6000 ≤ n ∧ n < 0x6040 then activeWindow s (n - 0x6000)
  else 0#32

/-! ## MmioWrite and the command dispatch -/

/-- OnCmdWrite(v) (R233): in FAULT only the word 0x00000001 has an effect (R254); outside FAULT an ill-formed word raises
ILLEGAL_CMD (R94, R96), and a well-formed one runs. The SEQUENCE check is the first thing its meaning does. -/
def onCmdWrite (v : Word32) (s : State) : Result :=
  if s.phase = .fault then
    if v = 0x00000001#32 then exec .clear s else .next s
  else
    match decode v with
    | .error _ => .next (raiseFault .illegalCmd s)
    | .ok i => exec i s

/-- MmioWrite(off, v) for an aligned offset (R231): CMD runs a command, DATA_LO and DATA_HI are stored in every phase, and
every other offset ignores the write (R63, R64). -/
def mmioWrite (off : Offset) (v : Word32) (s : State) : Result :=
  if off = 0x0000#16 then onCmdWrite v s
  else if off = 0x0008#16 then .next { s with dataLo := v }
  else if off = 0x000C#16 then .next { s with dataHi := v }
  else .next s

/-! ## One host access -/

/-- An access has a meaning only when it is 32 bits wide and its offset is a multiple of 4; a model refuses every other
(R62). -/
def checkedAccess (off : Offset) (width : Nat) (act : Result) : Result :=
  if width ≠ 32 then .refused (.badAccessWidth width)
  else if off.toNat % 4 ≠ 0 then .refused (.misalignedAccess off)
  else act

/-- What the block does with one access of the host (R260). A read changes nothing in the block (R75): the word it returns
goes to the host's log (log 3). -/
def hostAccess (a : HostAccess) (s : State) : Result :=
  match a with
  | .reset => .next (resetBlock s)
  | .read off width => checkedAccess off width (.next { s with readLog := s.readLog ++ [mmioRead off s] })
  | .write off width v => checkedAccess off width (mmioWrite off v s)

/-- One step of the machine: the block performs the host's next access, one at a time and in issue order (R74, R76). With no
access pending nothing happens: the block never moves by itself (R43; log 1). -/
def performNext (s : State) : Result :=
  match s.hostQueue with
  | [] => .next s
  | a :: rest => hostAccess a { s with hostQueue := rest }

/-- `WR CMD, v`: the write of a command word to CMD (R99, R231). -/
def writeCmd (v : Word32) : HostAccess := .write 0x0000#16 32 v

/-- s with the host about to write `v` to CMD before everything else it is about to do. -/
def State.withCmdWrite (s : State) (v : Word32) : State := { s with hostQueue := writeCmd v :: s.hostQueue }

/-- s with the host about to write the word whose bits are `w`, the bits from `nbits` on being 0 (log 2). -/
def placeFetchWord (s : State) (nbits w : Nat) : State := s.withCmdWrite (BitVec.ofNat 32 (w % 2 ^ nbits))

end Sys2Proof.Machine
end

