-- ==== Sys2Proof/Machine/Step.lean ====
section
/-! DEFINITION. The step of the machine: the host's next access (spec R74, R76; Machine/Bus.lean holds what it does). -/

namespace Sys2Proof.Machine

/-- One step: the block performs the host's next access (R74, R76). -/
def step (s : State) : Host.Outcome State Fault Refusal := performNext s

/-- s with the host about to write that command word to CMD, so that the next step runs it. The block has no program counter
and fetches nothing (R43, R79): the host's queue is where its next command comes from (log 2). -/
def State.withFetchWord (s : State) (nbits w : Nat) : State := placeFetchWord s nbits w

end Sys2Proof.Machine
end

