-- ==== Sys2Proof/Machine/HostProgram.lean ====
section
/-! DEFINITION. The statements and pseudo-instructions of a host program and the host accesses they assemble to
(spec R45, R99, R100, R296). They are notation: the machine sees only the accesses. -/

namespace Sys2Proof.Machine

/-- The named registers of the map of R45. -/
inductive RegName where
  | cmd | status | dataLo | dataHi | nsym | nnodes | forest | root | totalLo | totalHi | outcntLo | outcntHi
deriving DecidableEq, Repr

/-- Byte offset of a named register (R45). -/
def RegName.offset : RegName → Offset
  | .cmd => 0x0000#16
  | .status => 0x0004#16
  | .dataLo => 0x0008#16
  | .dataHi => 0x000C#16
  | .nsym => 0x0010#16
  | .nnodes => 0x0014#16
  | .forest => 0x0018#16
  | .root => 0x001C#16
  | .totalLo => 0x0020#16
  | .totalHi => 0x0024#16
  | .outcntLo => 0x0028#16
  | .outcntHi => 0x002C#16

/-- A statement of a host program (R99) or a pseudo-instruction (R100). -/
inductive HostStmt where
  /-- one of the ten commands (R99) -/
  | cmd (i : Instr)
  /-- `WR reg, imm32`, by offset (R99) -/
  | wr (off : Offset) (v : Word32)
  /-- `RD reg`, by offset (R99) -/
  | rd (off : Offset)
  /-- `LOADF s, v64` (R100) -/
  | loadf (s : Sym) (v : Weight)
  /-- `COUNTS "text"` (R100) -/
  | counts (text : List Byte)
  /-- `PACKS "text"` (R100) -/
  | packs (text : List Byte)
  /-- `ENCODE "text"` (R100) -/
  | encode (text : List Byte)
deriving DecidableEq, Repr

/-- `WR off, v` (R99). -/
def wr (off : Offset) (v : Word32) : HostAccess := .write off 32 v

/-- A command as the host writes it (R99). -/
def writeInstr (i : Instr) : HostAccess := writeCmd (Sys2Proof.encode i)

/-- The commands of one complete encode operation on the input `text`, in the order of R296, with BUILD. -/
def encodeCommands (text : List Byte) : List Instr :=
  .clear :: text.map .count ++ [.finit, .build, .gencodes, .serialize] ++ text.map .pack ++ [.flush]

/-- The accesses of one statement, in order (R99, R100). -/
def assemble : HostStmt → List HostAccess
  | .cmd i => [writeInstr i]
  | .wr off v => [wr off v]
  | .rd off => [.read off 32]
  | .loadf s v =>
    [wr RegName.dataLo.offset (v.extractLsb' 0 32), wr RegName.dataHi.offset (v.extractLsb' 32 32),
     writeInstr (.setfreq s)]
  | .counts text => text.map fun b => writeInstr (.count b)
  | .packs text => text.map fun b => writeInstr (.pack b)
  | .encode text => (encodeCommands text).map writeInstr

/-- The accesses of a host program. -/
def assembleAll (p : List HostStmt) : List HostAccess := p.flatMap assemble

end Sys2Proof.Machine
end

