-- ==== Sys2Proof/Safety.lean ====
section
/-! DEFINITION. The terms the claims use: how a run ended (spec R298), the code tree in the arena (spec R136), codes and
payload as bit sequences (spec R72, R160, R204), and the invariants between commands (spec R40, R136, R164). -/

namespace Sys2Proof.Machine

/-! ## The end of a run (R298) -/

/-- The run completed: PHASE = DONE and ERR = 0. -/
def State.completed (s : State) : Bool := s.phase == .done && s.err == .none

/-- The run faulted: PHASE = FAULT. -/
def State.faulted (s : State) : Bool := s.phase == .fault

/-! ## The code tree (R12, R136) -/

/-- A tree read out of the arena: every node with its arena index and its entry. -/
inductive Tree where
  | leaf (i : Nat) (e : NodeEntry)
  | node (i : Nat) (e : NodeEntry) (l r : Tree)
deriving DecidableEq, Repr

/-- The arena index of a tree's root. -/
def Tree.idx : Tree → Nat
  | .leaf i _ => i
  | .node i _ _ _ => i

/-- The arena entry of a tree's root. -/
def Tree.entry : Tree → NodeEntry
  | .leaf _ e => e
  | .node _ e _ _ => e

/-- The number of nodes. -/
def Tree.size : Tree → Nat
  | .leaf _ _ => 1
  | .node _ _ l r => 1 + l.size + r.size

/-- The greatest leaf depth. -/
def Tree.depth : Tree → Nat
  | .leaf _ _ => 0
  | .node _ _ l r => 1 + max l.depth r.depth

/-- The arena indices of all nodes, pre-order. -/
def Tree.indices : Tree → List Nat
  | .leaf i _ => [i]
  | .node i _ l r => i :: (l.indices ++ r.indices)

/-- The entries in pre-order: a node before its left subtree, the left subtree before the right (R181). -/
def Tree.preorder : Tree → List NodeEntry
  | .leaf _ e => [e]
  | .node _ e l r => e :: (l.preorder ++ r.preorder)

/-- The leaves as pairs of symbol and weight, left to right. -/
def Tree.leaves : Tree → List (Sym × Weight)
  | .leaf _ e => [(e.sym, e.w)]
  | .node _ _ l r => l.leaves ++ r.leaves

/-- Each leaf's symbol with its path from the root: false for a step to LEFT, true for a step to RIGHT (R160). -/
def Tree.paths : Tree → List (Sym × List Bool)
  | .leaf _ e => [(e.sym, [])]
  | .node _ _ l r =>
    l.paths.map (fun p => (p.1, false :: p.2)) ++ r.paths.map (fun p => (p.1, true :: p.2))

/-- W of each internal node is the sum of W of its children, over the integers (R136). -/
def Tree.sumsOk : Tree → Bool
  | .leaf _ _ => true
  | .node _ e l r => e.w.toNat == l.entry.w.toNat + r.entry.w.toNat && l.sumsOk && r.sumsOk

/-- Children lie below their parent in the arena, and are distinct (R40 I4). -/
def Tree.childrenBelow : Tree → Bool
  | .leaf _ _ => true
  | .node i _ l r => l.idx < i && r.idx < i && l.idx != r.idx && l.childrenBelow && r.childrenBelow

/-- The tree under an arena index, following LEFT and RIGHT for at most `fuel` levels; `none` where the walk leaves the
arena or does not end. -/
def readTree (node : Vector NodeEntry 511) : Nat → Nat → Option Tree
  | 0, _ => none
  | fuel + 1, i =>
    match node[i]? with
    | none => none
    | some e =>
      match e.kind with
      | .leaf => some (.leaf i e)
      | .internal =>
        match readTree node fuel e.left.toNat, readTree node fuel e.right.toNat with
        | some l, some r => some (.node i e l r)
        | _, _ => none

/-- The tree under an index of the arena. A tree in an arena of 511 entries has fewer than 511 levels. -/
def treeAt (node : Vector NodeEntry 511) (i : Nat) : Option Tree := readTree node Config.nodeMax i

/-! ## Codes and payload as bit sequences -/

/-- The number whose bits are a path, the first branch as the most significant one: Σ b_j * 2^(d-j) (R160). -/
def pathValue (path : List Bool) : Nat := path.foldl (fun c b => 2 * c + b.toNat) 0

/-- A code as a bit string from the root branch to the leaf branch: c[L-1], ..., c[0] (R163, R204). -/
def codeBits (c : CodeWord) (L : Nat) : List Bool := (List.range L).map fun j => c.getLsbD (L - 1 - j)

/-- The bit string of symbol s in the CODE and LEN tables. -/
def State.codeOf (s : State) (x : Sym) : List Bool := codeBits (symGet s.code x) (symGet s.len x).toNat

/-- The bits of a byte, bit 0 first (R72). -/
def byteBits (b : Byte) : List Bool := (List.range 8).map fun j => b.getLsbD j

/-- The bits of a byte sequence: bit j of the sequence is bit (j mod 8) of byte floor(j / 8) (R72). -/
def bytesBits (bs : List Byte) : List Bool := bs.flatMap byteBits

/-- The bits waiting in ACC: ACC[OFF-1:0], bit 0 first (R35, R36). -/
def State.waitingBits (s : State) : List Bool := (List.range s.off.toNat).map fun j => s.acc.getLsbD j

/-- Everything packed so far: the bits of OUT and then the bits waiting in ACC. -/
def State.packedBits (s : State) : List Bool := bytesBits s.out ++ s.waitingBits

/-! ## The invariants between commands -/

/-- (I1) of R40: TOTAL = Σ FREQ[s], with no wrap. -/
def TotalInv (s : State) : Prop := s.total.toNat = (s.freq.toList.map BitVec.toNat).sum

/-- (I6) and (I7) of R40: OFF ≤ 7, ACC has no bit at a position ≥ OFF, and both are 0 before the packing phase. -/
def PackerInv (s : State) : Prop :=
  s.off.toNat ≤ 7 ∧ s.acc.toNat < 2 ^ s.off.toNat ∧
  (s.phase = .count ∨ s.phase = .merge ∨ s.phase = .tree ∨ s.phase = .coded → s.off = 0#9 ∧ s.acc = 0#264)

/-- The symbols of the frequency mapping with their counts, in ascending symbol order (R26, R132). -/
def State.mapping (s : State) : List (Sym × Weight) :=
  (symbols.zip s.freq.toList).filter fun p => p.2 != 0#64

/-- The arena holds exactly the trees `ts`: their roots are the forest (R31), their nodes are entries 0..NNODES-1, each in
one tree (R136), their leaves are the frequency mapping (R26), weights add up (R136) and children lie below their parent
(R40 I4). Entries from NNODES on are unused (R29), and the entries below NSYM are the leaves in ascending symbol order
(R29). -/
structure HoldsForest (s : State) (ts : List Tree) : Prop where
  read : ∀ t ∈ ts, treeAt s.node t.idx = some t
  roots : (ts.map Tree.idx).Perm ((activeList s.active).map Fin.val)
  cover : (ts.flatMap Tree.indices).Perm (List.range s.nnodes.toNat)
  leaves : (ts.flatMap Tree.leaves).Perm s.mapping
  sums : ∀ t ∈ ts, t.sumsOk
  below : ∀ t ∈ ts, t.childrenBelow
  unused : ∀ i (h : i < 511), s.nnodes.toNat ≤ i → s.node[i] = .zero
  leafPart : ∀ i (h : i < s.mapping.length) (h' : i < 511),
    s.node[i] = .leafOf s.mapping[i].1 s.mapping[i].2

/-- What the CODE and LEN tables hold from phase CODED on: the path codes of the tree, or the one-bit code 0 of the
degenerate case; a symbol outside the tree has none (R160, R161, R162, R164). -/
def HoldsCodes (s : State) (t : Tree) : Prop :=
  (s.degen = true → ∀ x, symGet s.code x = 0#256 ∧
    symGet s.len x = if x = t.entry.sym then 1#9 else 0#9) ∧
  (s.degen = false →
    (∀ p ∈ t.paths, symGet s.code p.1 = BitVec.ofNat 256 (pathValue p.2) ∧
      symGet s.len p.1 = BitVec.ofNat 9 p.2.length) ∧
    ∀ x, x ∉ t.paths.map Prod.fst → symGet s.code x = 0#256 ∧ symGet s.len x = 0#9)

/-- What the block's state holds in each phase (R40 I2 to I5, R112, R136, R164): in COUNT everything but FREQ, TOTAL and the
DATA registers has its reset value; then the arena holds a forest, then one tree, then its codes. In FAULT nothing is
claimed: only CLEAR and reset leave it (R255). -/
def TreeInv (s : State) : Prop :=
  match s.phase with
  | .count => { s with freq := State.reset.freq, total := 0#64, dataLo := 0#32, dataHi := 0#32 } = resetBlock s
  | .merge => s.degen = false ∧ 2 ≤ s.forest ∧ ∃ ts, HoldsForest s ts
  | .tree => s.degen = degenOf s ∧ ∃ t, HoldsForest s [t] ∧ s.root.toNat = t.idx
  | .coded | .pack | .done =>
    s.degen = degenOf s ∧ ∃ t, HoldsForest s [t] ∧ s.root.toNat = t.idx ∧ HoldsCodes s t
  | .fault => True
where
  /-- DEGEN tells whether the mapping has exactly one symbol (R23). -/
  degenOf (s : State) : Bool := s.nsym == 1

/-- The invariant between commands (R40). -/
def BlockInv (s : State) : Prop := TotalInv s ∧ PackerInv s ∧ TreeInv s

/-! ## Faults, as the claims write them -/

/-- The state after a precise fault with code e: ERR = e, PHASE = FAULT, everything else as before (R253). -/
def State.faultedWith (s : State) (e : ErrCode) : State := { s with err := e, phase := .fault }

/-- Σ W over the active entries (R40 I2). -/
def State.activeWeight (s : State) : Nat := ((activeList s.active).map fun i => s.node[i].w.toNat).sum

/-! ## The reader of the tree section (R185) -/

/-- A tree as a reader of the container sees it: topology, symbols and weights. -/
inductive Shape where
  | leaf (sym : Sym) (w : Nat)
  | node (w : Nat) (l r : Shape)
deriving DecidableEq, Repr

/-- The topology, symbols and weights of a tree. -/
def Tree.shape : Tree → Shape
  | .leaf _ e => .leaf e.sym e.w.toNat
  | .node _ e l r => .node e.w.toNat l.shape r.shape

/-- The weight field of a record, bits 55:1 (R180). -/
def recordWeight (r : NodeRecord) : Nat := (r.extractLsb' 1 55).toNat

/-- Rebuilding one subtree from the records, pre-order; a record with its leaf flag set ends a branch (R185). -/
def rebuild : Nat → List NodeRecord → Option (Shape × List NodeRecord)
  | 0, _ => none
  | _, [] => none
  | fuel + 1, r :: rs =>
    if r.getLsbD 0 then some (.leaf (r.extractLsb' 56 8) (recordWeight r), rs)
    else
      match rebuild fuel rs with
      | none => none
      | some (l, rs') =>
        match rebuild fuel rs' with
        | none => none
        | some (x, rs'') => some (.node (recordWeight r) l x, rs'')

/-- The reader of R185: the records up to the first zero record, rebuilt; every record must be used. -/
def readTreeSection (rs : List NodeRecord) : Option Shape :=
  let recs := rs.takeWhile (· != 0#64)
  match rebuild recs.length recs with
  | some (t, []) => some t
  | _ => none

/-- The 64-bit values whose little-endian bytes a byte sequence is (R71). -/
def recordsBytes (rs : List NodeRecord) : List Byte := rs.flatMap bytesLE

/-! ## A second pass (R204) -/

/-- Running the commands of a list one after the other, as the host writes them; it stops at the first that gives no next
state. -/
def execAll : List Instr → State → Result
  | [], s => .next s
  | i :: is, s =>
    match exec i s with
    | .next t => execAll is t
    | .fault e => .fault e
    | .refused r => .refused r

end Sys2Proof.Machine
end

