-- ==== Sys2Proof/Certificates/Slice0/Obligations.lean ====
section
/-! DEFINITION. The statements about the model, each from a numbered rule of spec/ or derived from named sections of it.
A statement of the form `exec i s = .next { s with … }`, or `t = { s with freq := t.freq, … }`, is a frame as well: every
field of the state that the update does not name is unchanged. -/

open Sys2Proof Sys2Proof.Machine

/-! ## Encoding (30_encoding.md) -/

/-- Words written out from the bit fields of R90 and the opcode map of R95 decode to the commands they stand for, and reserved
words to none. -/
def Obligations.WrittenOutWordsDecode : Prop :=
  decode 0b00000000000000000000000000000001#32 = .ok .clear ∧
  decode 0b00000000000000000100000100000010#32 = .ok (.count 0x41#8) ∧
  decode 0b00000000000000001111111100000011#32 = .ok (.setfreq 0xFF#8) ∧
  decode 0b00000000000000000000000000000100#32 = .ok .finit ∧
  decode 0b00000000000000000000000000000101#32 = .ok .merge ∧
  decode 0b00000000000000000000000000000110#32 = .ok .build ∧
  decode 0b00000000000000000000000000000111#32 = .ok .gencodes ∧
  decode 0b00000000000000000000000000001000#32 = .ok .serialize ∧
  decode 0b00000000000000000100001000001001#32 = .ok (.pack 0x42#8) ∧
  decode 0b00000000000000000000000000001010#32 = .ok .flush ∧
  decode 0#32 = .error .reservedOpcode ∧
  decode 0b00000000000000000000000000001011#32 = .error .reservedOpcode ∧
  decode 0b00000000000000010000000000000010#32 = .error .reservedFieldSet ∧
  decode 0b00000000000000000100000100000101#32 = .error .symbolNotAllowed

/-- R97: the decoder accepts exactly the words of the check WellFormed(v), each as one command with its operand, the one
whose word it is. -/
def Obligations.WellFormedWordsAreExactlyTheCommands : Prop :=
  ∀ v : Word32,
    ((v.extractLsb' 16 16 = 0#16 ∧ 0x01 ≤ (v.extractLsb' 0 8).toNat ∧ (v.extractLsb' 0 8).toNat ≤ 0x0A ∧
        ((v.extractLsb' 0 8).toNat ∈ [0x02, 0x03, 0x09] ∨ v.extractLsb' 8 8 = 0#8)) ↔
      ∃ i, decode v = .ok i) ∧
    (wellFormed v = true ↔ ∃ i, decode v = .ok i) ∧
    ∀ i, decode v = .ok i → encode i = v

/-- Decoding the word of a command gives the command back, with its operand at every value. -/
def Obligations.DecodeOfEncodeIsTheCommand : Prop := ∀ i : Instr, decode (encode i) = .ok i

/-- A CMD write of a well-formed word, pending in the host's queue, is one step of the machine: exec of the decoded command
on the state with the access taken off the queue. Placing a word by withFetchWord is placing such a write. -/
def Obligations.StepRunsTheDecodedCommand : Prop :=
  (∀ (s : State) (rest : List HostAccess) (v : Word32) (i : Instr),
    s.hostQueue = .write 0x0000#16 32 v :: rest → decode v = .ok i → step s = exec i { s with hostQueue := rest }) ∧
  (∀ (s : State) (nbits w : Nat) (i : Instr), nbits ≤ 32 → decodeTableWord nbits w = some i →
    step (s.withFetchWord nbits w) = exec i s)

/-! ## Dispatch and faults (46_control.md, 60_exceptions.md) -/

/-- The phases in which an opcode is accepted, the table of R233. -/
def acceptedPhases (op : Nat) : List Phase :=
  match op with
  | 0x01 => [.count, .merge, .tree, .coded, .pack, .done]
  | 0x02 => [.count]
  | 0x03 => [.count]
  | 0x04 => [.count]
  | 0x05 => [.merge]
  | 0x06 => [.merge, .tree]
  | 0x07 => [.tree]
  | 0x08 => [.coded]
  | 0x09 => [.pack]
  | 0x0A => [.pack]
  | _ => []

/-- R233: in FAULT only the word 0x00000001 has an effect, CLEAR's; outside FAULT an ill-formed word raises ILLEGAL_CMD, a
well-formed one in a phase outside Accepts(op) raises SEQUENCE, and otherwise the command's rule runs. -/
def Obligations.CmdWriteDispatchOrder : Prop :=
  ∀ (v : Word32) (s : State),
    (s.phase = .fault → onCmdWrite v s = if v = 0x00000001#32 then .next (resetBlock s) else .next s) ∧
    (s.phase ≠ .fault → wellFormed v = false → onCmdWrite v s = .next (s.faultedWith .illegalCmd)) ∧
    (s.phase ≠ .fault → wellFormed v = true → s.phase ∉ acceptedPhases (v.extractLsb' 0 8).toNat →
      onCmdWrite v s = .next (s.faultedWith .sequence)) ∧
    (s.phase ≠ .fault → wellFormed v = true → s.phase ∈ acceptedPhases (v.extractLsb' 0 8).toNat →
      ∃ i, decode v = .ok i ∧ onCmdWrite v s = exec i s)

/-- R253: a fault with a code 1 to 5 is precise: every register and table except ERR and PHASE holds the value it had
before the CMD write, and OUT is unchanged. -/
def Obligations.FaultEntryIsPrecise : Prop :=
  ∀ (v : Word32) (s t : State), s.phase ≠ .fault → onCmdWrite v s = .next t → t.phase = .fault → t.err ≠ .sinkIo →
    t.err ≠ .none ∧ t = s.faultedWith t.err

/-- R254: in FAULT, CLEAR runs, every other CMD write changes no state, writes to DATA_LO and DATA_HI are stored, and a read
gives the word of R232. The host's queue aside. -/
def Obligations.FaultPhaseIgnoresAllButClear : Prop :=
  ∀ (s : State) (rest : List HostAccess) (v : Word32), s.phase = .fault →
    (s.hostQueue = .write 0x0000#16 32 0x00000001#32 :: rest →
      step s = .next (resetBlock { s with hostQueue := rest })) ∧
    (s.hostQueue = .write 0x0000#16 32 v :: rest → v ≠ 0x00000001#32 → step s = .next { s with hostQueue := rest }) ∧
    (s.hostQueue = .write 0x0008#16 32 v :: rest → step s = .next { s with hostQueue := rest, dataLo := v }) ∧
    (s.hostQueue = .write 0x000C#16 32 v :: rest → step s = .next { s with hostQueue := rest, dataHi := v }) ∧
    (∀ off : Offset, off.toNat % 4 = 0 → s.hostQueue = .read off 32 :: rest →
      step s = .next { s with hostQueue := rest, readLog := s.readLog ++ [mmioRead off s] })

/-- R255: the only ways out of FAULT are CLEAR and reset, and both discard the whole encode operation. -/
def Obligations.OnlyClearAndResetLeaveFault : Prop :=
  ∀ s t : State, s.phase = .fault → step s = .next t → t.phase ≠ .fault →
    ∃ rest, (s.hostQueue = .reset :: rest ∨ s.hostQueue = .write 0x0000#16 32 0x00000001#32 :: rest) ∧
      t = resetBlock { s with hostQueue := rest }

/-- R22: a nonzero ERR is written by the fault entry only, when PHASE is not FAULT; ERR goes back to 0 by reset or CLEAR
only. -/
def Obligations.ErrIsStickyUntilResetOrClear : Prop :=
  State.reset.err = .none ∧
  ∀ s t : State, step s = .next t → t.err ≠ s.err →
    (t.err ≠ .none ∧ s.phase ≠ .fault ∧ t.phase = .fault) ∨
    (t.err = .none ∧ ∃ rest, s.hostQueue = .reset :: rest ∨ s.hostQueue = .write 0x0000#16 32 0x00000001#32 :: rest)

/-- What SINK_IO leaves after the sink took n bytes (R256): ERR = 6, PHASE = FAULT, OUTCNT counts the n bytes, every other
register and table is as before the command, and OUT is not said. -/
def AbortedAfter (n : Nat) (s t : State) : Prop :=
  t = { s.faultedWith .sinkIo with
    outcnt := s.outcnt + BitVec.ofNat 64 n, out := t.out, sinkScript := s.sinkScript.drop (n + 1),
    freeCount := s.freeCount + 1 }

/-- R256: at any Emit of SERIALIZE, PACK or FLUSH the sink may report an I/O error; the command stops there, with OUTCNT
counting the n bytes taken before and nothing else changed but ERR and PHASE. No other command reports SINK_IO. -/
def Obligations.SinkErrorStopsTheCommand : Prop :=
  (∀ (s : State) (n : Nat), s.sinkTakes n = true → s.sinkScript[n]? = some .ioError →
    (∀ sym : Sym, s.phase = .pack → symGet s.len sym ≠ 0#9 → n < (s.off.toNat + (symGet s.len sym).toNat) / 8 →
      ∃ t, exec (.pack sym) s = .next t ∧ AbortedAfter n s t) ∧
    (s.phase = .pack → 0 < s.off.toNat → n = 0 → ∃ t, exec .flush s = .next t ∧ AbortedAfter n s t) ∧
    (∀ tr : Tree, s.phase = .coded → treeAt s.node s.root.toNat = some tr → tr.depth ≤ 255 → tr.size ≤ 511 →
      n < 16 + 8 * tr.size → ∃ t, exec .serialize s = .next t ∧ AbortedAfter n s t)) ∧
  (∀ (i : Instr) (s t : State), s.phase ≠ .fault → exec i s = .next t → t.phase = .fault → t.err = .sinkIo →
    (i = .serialize ∨ i = .flush ∨ ∃ sym, i = .pack sym) ∧
    ∃ n, s.sinkTakes n = true ∧ s.sinkScript[n]? = some .ioError ∧ AbortedAfter n s t)

/-- A sink that never answers leaves the block waiting forever (R260): that is the one way a command of a state within the
invariants stops, and only an emitting command can. That the wait is the fault sinkSilent is the model's choice (log 13). -/
def Obligations.OnlyASilentSinkHangs : Prop :=
  ∀ s : State, BlockInv s →
    (∀ e, step s = .fault e → e = .sinkSilent ∧ SinkReply.silent ∈ s.sinkScript) ∧
    (s.phase = .pack → 0 < s.off.toNat → s.sinkScript.head? = some .silent → exec .flush s = .fault .sinkSilent)

/-! ## Reset and CLEAR (70_reset_and_hazards.md, 46_control.md) -/

/-- Every element of R20 has its reset value, as the list of R290 gives it, and the derived values follow. -/
def AtResetValues (s : State) : Prop :=
  s.phase = .count ∧ s.err = .none ∧ s.degen = false ∧ s.trunc = false ∧ s.dataLo = 0#32 ∧ s.dataHi = 0#32 ∧
  (∀ x, symGet s.freq x = 0#64) ∧ s.total = 0#64 ∧
  (∀ i (h : i < 511), s.node[i].kind = .internal ∧ s.node[i].sym = 0#8 ∧ s.node[i].w = 0#64 ∧
    s.node[i].left = 0#9 ∧ s.node[i].right = 0#9) ∧
  s.nnodes = 0#10 ∧ (∀ i (h : i < 511), s.active[i] = false) ∧ s.root = 0#9 ∧
  (∀ x, symGet s.code x = 0#256) ∧ (∀ x, symGet s.len x = 0#9) ∧ s.acc = 0#264 ∧ s.off = 0#9 ∧ s.outcnt = 0#64 ∧
  s.nsym = 0 ∧ s.forest = 0 ∧ s.status = 0x00000000#32

/-- R290: a hardware reset and CLEAR both set every element to its reset value and do not change OUT. -/
def Obligations.ResetAndClearSetEveryElement : Prop :=
  AtResetValues State.reset ∧
  ∀ s : State,
    (∀ rest, s.hostQueue = .reset :: rest →
      ∃ t, step s = .next t ∧ AtResetValues t ∧ t.out = s.out ∧ t.readLog = s.readLog ∧ t.hostQueue = rest) ∧
    ∃ t, exec .clear s = .next t ∧ AtResetValues t ∧ t.out = s.out

/-- R230: CLEAR (word 0x00000001) runs in every phase, FAULT included; bytes in OUT stay; a word with OP = 0x01 and SYM or
RSV not 0 is ILLEGAL_CMD outside FAULT and ignored in FAULT; in COUNT with NSYM = 0 only DATA_LO, DATA_HI and OUTCNT change;
CLEAR is the only command that leaves DONE or FAULT (a fault raised in DONE goes to FAULT). -/
def Obligations.ClearRunsInEveryPhase : Prop :=
  encode .clear = 0x00000001#32 ∧
  (∀ s : State, ∃ t, exec .clear s = .next t ∧ AtResetValues t ∧
    t = { State.reset with
      out := s.out, sinkScript := s.sinkScript, hostQueue := s.hostQueue, readLog := s.readLog,
      freeCount := s.freeCount }) ∧
  (∀ (v : Word32) (s : State), v.extractLsb' 0 8 = 0x01#8 → (v.extractLsb' 8 8 ≠ 0#8 ∨ v.extractLsb' 16 16 ≠ 0#16) →
    onCmdWrite v s = if s.phase = .fault then .next s else .next (s.faultedWith .illegalCmd)) ∧
  (∀ s : State, BlockInv s → s.phase = .count → s.nsym = 0 →
    exec .clear s = .next { s with dataLo := 0#32, dataHi := 0#32, outcnt := 0#64 }) ∧
  (∀ (i : Instr) (s t : State), exec i s = .next t →
    (s.phase = .fault → t.phase ≠ .fault → i = .clear) ∧
    (s.phase = .done → t.phase ≠ .done → t.phase ≠ .fault → i = .clear))

/-! ## The host register space (10_state.md, 20_memory.md, 46_control.md) -/

/-- R44: the fields of STATUS, read at offset 0x0004; a write there is ignored; it is 0 after reset. -/
def Obligations.StatusWordLayout : Prop :=
  State.reset.status = 0#32 ∧
  ∀ s : State,
    mmioRead 0x0004#16 s = s.status ∧ (∀ v, mmioWrite 0x0004#16 v s = .next s) ∧
    (s.status.extractLsb' 0 3).toNat =
      (match s.phase with
        | .count => 0 | .merge => 1 | .tree => 2 | .coded => 3 | .pack => 4 | .done => 5 | .fault => 7) ∧
    s.status.getLsbD 3 = s.degen ∧ s.status.getLsbD 4 = s.trunc ∧ s.status.extractLsb' 5 3 = 0#3 ∧
    (s.status.extractLsb' 8 8).toNat =
      (match s.err with
        | .none => 0 | .illegalCmd => 1 | .sequence => 2 | .empty => 3 | .countOverflow => 4 | .missingSymbol => 5
        | .sinkIo => 6) ∧
    s.status.extractLsb' 16 3 = s.off.extractLsb' 0 3 ∧ s.status.extractLsb' 19 13 = 0#13

/-- R65 to R69: what each word of the five read windows returns. An unused entry of the arena reads as four zero words. -/
def Obligations.WindowsShowTheTables : Prop :=
  ∀ s : State,
    (∀ x : Sym, mmioRead (BitVec.ofNat 16 (0x0100 + 8 * x.toNat)) s = (symGet s.freq x).extractLsb' 0 32 ∧
      mmioRead (BitVec.ofNat 16 (0x0104 + 8 * x.toNat)) s = (symGet s.freq x).extractLsb' 32 32) ∧
    (∀ x : Sym, mmioRead (BitVec.ofNat 16 (0x0900 + 4 * x.toNat)) s = (symGet s.len x).setWidth 32) ∧
    (∀ (x : Sym) (k : Nat), k < 8 →
      mmioRead (BitVec.ofNat 16 (0x1000 + 32 * x.toNat + 4 * k)) s = (symGet s.code x).extractLsb' (32 * k) 32) ∧
    (∀ i (h : i < 511),
      let w0 := mmioRead (BitVec.ofNat 16 (0x4000 + 16 * i)) s
      let w3 := mmioRead (BitVec.ofNat 16 (0x4000 + 16 * i + 12)) s
      (w0.getLsbD 0 = decide (s.node[i].kind = .leaf) ∧ w0.extractLsb' 1 7 = 0#7 ∧
        w0.extractLsb' 8 8 = s.node[i].sym ∧ w0.extractLsb' 16 16 = 0#16) ∧
      mmioRead (BitVec.ofNat 16 (0x4000 + 16 * i + 4)) s = s.node[i].w.extractLsb' 0 32 ∧
      mmioRead (BitVec.ofNat 16 (0x4000 + 16 * i + 8)) s = s.node[i].w.extractLsb' 32 32 ∧
      (w3.extractLsb' 0 9 = s.node[i].left ∧ w3.extractLsb' 9 7 = 0#7 ∧ w3.extractLsb' 16 9 = s.node[i].right ∧
        w3.extractLsb' 25 7 = 0#7) ∧
      (BlockInv s → s.phase ≠ .fault → s.nnodes.toNat ≤ i → ∀ k, k < 4 →
        mmioRead (BitVec.ofNat 16 (0x4000 + 16 * i + 4 * k)) s = 0#32)) ∧
    (∀ j b, j < 16 → b < 32 → (mmioRead (BitVec.ofNat 16 (0x6000 + 4 * j)) s).getLsbD b =
      if h : 32 * j + b < 511 then s.active[32 * j + b] else false)

/-- R232, the part outside the windows: the value of each register's offset, and 0 at every unmapped offset. A read has no
side effect in the block. -/
def Obligations.RegisterReadsAndUnmappedReads : Prop :=
  ∀ s : State,
    mmioRead 0x0000#16 s = 0#32 ∧ mmioRead 0x0004#16 s = s.status ∧ mmioRead 0x0008#16 s = s.dataLo ∧
    mmioRead 0x000C#16 s = s.dataHi ∧ (mmioRead 0x0010#16 s).toNat = s.nsym ∧
    (mmioRead 0x0014#16 s).toNat = s.nnodes.toNat ∧ (mmioRead 0x0018#16 s).toNat = s.forest ∧
    (mmioRead 0x001C#16 s).toNat = s.root.toNat ∧
    mmioRead 0x0020#16 s = s.total.extractLsb' 0 32 ∧ mmioRead 0x0024#16 s = s.total.extractLsb' 32 32 ∧
    mmioRead 0x0028#16 s = s.outcnt.extractLsb' 0 32 ∧ mmioRead 0x002C#16 s = s.outcnt.extractLsb' 32 32 ∧
    (∀ off : Offset,
      (0x0030 ≤ off.toNat ∧ off.toNat < 0x0100 ∨ 0x0D00 ≤ off.toNat ∧ off.toNat < 0x1000 ∨
        0x3000 ≤ off.toNat ∧ off.toNat < 0x4000 ∨ 0x5FF0 ≤ off.toNat ∧ off.toNat < 0x6000 ∨ 0x6040 ≤ off.toNat) →
      mmioRead off s = 0#32) ∧
    (∀ (off : Offset) (rest : List HostAccess), off.toNat % 4 = 0 → s.hostQueue = .read off 32 :: rest →
      step s = .next { s with hostQueue := rest, readLog := s.readLog ++ [mmioRead off s] })

/-- R231: a write to CMD runs OnCmdWrite, a write to DATA_LO or DATA_HI is stored in every phase, and a write to any other
aligned offset changes no state (R63, R64). A write of another width or alignment is refused. -/
def Obligations.WritesReachCmdAndDataOnly : Prop :=
  ∀ (s : State) (rest : List HostAccess) (off : Offset) (width : Nat) (v : Word32),
    s.hostQueue = .write off width v :: rest →
    (width = 32 → off.toNat % 4 = 0 →
      step s =
        if off.toNat = 0x0000 then onCmdWrite v { s with hostQueue := rest }
        else if off.toNat = 0x0008 then .next { s with hostQueue := rest, dataLo := v }
        else if off.toNat = 0x000C then .next { s with hostQueue := rest, dataHi := v }
        else .next { s with hostQueue := rest }) ∧
    (width ≠ 32 ∨ off.toNat % 4 ≠ 0 → ∃ r, step s = .refused r)

/-- An access whose offset is not a multiple of 4 or whose width is not 32 bits has no meaning and is refused (R62). Which
name the refusal carries is the model's choice (log 9). -/
def Obligations.MisalignedOrNarrowAccessIsRefused : Prop :=
  ∀ (s : State) (rest : List HostAccess) (off : Offset) (width : Nat) (v : Word32),
    (off.toNat % 4 ≠ 0 ∨ width ≠ 32) →
    (s.hostQueue = .read off width :: rest ∨ s.hostQueue = .write off width v :: rest) →
    ∃ r, step s = .refused r ∧ (r = .misalignedAccess off ∨ r = .badAccessWidth width)

/-- R42: no command sets a flag but FINIT (DEGEN) and SERIALIZE (TRUNC); CLEAR and reset clear both. -/
def Obligations.FlagsAreWrittenByFinitAndSerializeOnly : Prop :=
  (∀ (i : Instr) (s t : State), exec i s = .next t →
    (t.degen ≠ s.degen → i = .finit ∨ i = .clear ∧ t.degen = false) ∧
    (t.trunc ≠ s.trunc → i = .serialize ∨ i = .clear ∧ t.trunc = false) ∧
    (i = .clear → t.degen = false ∧ t.trunc = false)) ∧
  (∀ (s t : State) (rest : List HostAccess), s.hostQueue = .reset :: rest → step s = .next t →
    t.degen = false ∧ t.trunc = false)

/-- R39: OUT grows only at its end, by the bytes the command emits, each counted in OUTCNT; reset and CLEAR do not change
it. The one exception is SINK_IO, after which OUT is not said (R256). -/
def Obligations.OutGrowsOnlyAtItsEnd : Prop :=
  ∀ s t : State, step s = .next t →
    (s.phase ≠ .fault ∧ t.phase = .fault ∧ t.err = .sinkIo) ∨
    (∃ bs, t.out = s.out ++ bs ∧ t.outcnt = s.outcnt + BitVec.ofNat 64 bs.length) ∨
    (t.out = s.out ∧ t.outcnt = 0#64 ∧
      ∃ rest, s.hostQueue = .reset :: rest ∨ s.hostQueue = .write 0x0000#16 32 0x00000001#32 :: rest)

/-- The block never reads OUT (R39), nor what the host has read or is about to do (R43, R74): whatever these are, a command
leaves the same state but for them, and emits the same bytes. After SINK_IO OUT is not said (R256). -/
def Obligations.NoCommandReadsTheSinkOrTheHost : Prop :=
  ∀ (i : Instr) (s t : State) (o : List Byte) (q : List HostAccess) (r : List Word32), exec i s = .next t →
    ∃ o', exec i { s with out := o, hostQueue := q, readLog := r } =
        .next { t with out := o', hostQueue := q, readLog := r } ∧ t.hostQueue = s.hostQueue ∧ t.readLog = s.readLog ∧
      (s.phase = .fault ∨ t.err ≠ .sinkIo → ∃ bs, t.out = s.out ++ bs ∧ o' = o ++ bs)

/-! ## Frequency stage (41_frequency.md) -/

/-- R110: COUNT s. The order of COUNTs does not affect what they leave. -/
def Obligations.CountAddsOneOrFaults : Prop :=
  ∀ (sym : Sym) (s : State),
    (∀ a b : Sym, s.total.toNat + 2 ≤ 2 ^ 64 - 1 →
      execAll [.count a, .count b] s = execAll [.count b, .count a] s) ∧
    (encode (.count sym)).toNat = sym.toNat * 2 ^ 8 + 0x02 ∧
    (s.phase = .count → s.total.toNat ≠ 2 ^ 64 - 1 → ∃ t, exec (.count sym) s = .next t ∧
      (∀ x, symGet t.freq x = if x = sym then symGet s.freq x + 1#64 else symGet s.freq x) ∧
      t.total.toNat = s.total.toNat + 1 ∧ t = { s with freq := t.freq, total := t.total } ∧
      (symGet s.freq sym = 0#64 → t.nsym = s.nsym + 1) ∧
      (TotalInv s → (symGet t.freq sym).toNat = (symGet s.freq sym).toNat + 1)) ∧
    (s.phase = .count → s.total.toNat = 2 ^ 64 - 1 → exec (.count sym) s = .next (s.faultedWith .countOverflow)) ∧
    (s.phase ≠ .count → s.phase ≠ .fault → exec (.count sym) s = .next (s.faultedWith .sequence)) ∧
    (∀ v : Word32, v.extractLsb' 0 8 = 0x02#8 → v.extractLsb' 16 16 ≠ 0#16 → s.phase ≠ .fault →
      onCmdWrite v s = .next (s.faultedWith .illegalCmd))

/-- R111: SETFREQ s. T' is over the integers. -/
def Obligations.SetfreqReplacesTheCountOrFaults : Prop :=
  ∀ (sym : Sym) (s : State),
    let D := s.dataHi.toNat * 2 ^ 32 + s.dataLo.toNat
    let T' : Int := (s.total.toNat : Int) - (symGet s.freq sym).toNat + (D : Nat)
    (encode (.setfreq sym)).toNat = sym.toNat * 2 ^ 8 + 0x03 ∧
    (TotalInv s → 0 ≤ T' ∧ ((∀ x, x ≠ sym → symGet s.freq x = 0#64) → T' ≤ 2 ^ 64 - 1)) ∧
    (s.phase = .count → T' ≤ 2 ^ 64 - 1 → ∃ t, exec (.setfreq sym) s = .next t ∧
      (∀ x, (symGet t.freq x).toNat = if x = sym then D else (symGet s.freq x).toNat) ∧
      (0 ≤ T' → (t.total.toNat : Int) = T') ∧ t = { s with freq := t.freq, total := t.total } ∧
      (D = 0 → symGet s.freq sym ≠ 0#64 → t.nsym + 1 = s.nsym) ∧
      (TotalInv s → D = (symGet s.freq sym).toNat → t = s)) ∧
    (s.phase = .count → 2 ^ 64 - 1 < T' → exec (.setfreq sym) s = .next (s.faultedWith .countOverflow)) ∧
    (s.phase ≠ .count → s.phase ≠ .fault → exec (.setfreq sym) s = .next (s.faultedWith .sequence)) ∧
    (∀ v : Word32, v.extractLsb' 0 8 = 0x03#8 → v.extractLsb' 16 16 ≠ 0#16 → s.phase ≠ .fault →
      onCmdWrite v s = .next (s.faultedWith .illegalCmd))

/-! ## Merge engine (42_merge_engine.md) -/

/-- R132: FINIT. -/
def Obligations.FinitLoadsTheForest : Prop :=
  ∀ s : State,
    encode .finit = 0x00000004#32 ∧
    (s.phase = .count → s.nsym ≠ 0 → ∃ t, exec .finit s = .next t ∧
      (∀ i (h : i < 511), t.node[i] =
        if hi : i < s.mapping.length then .leafOf s.mapping[i].1 s.mapping[i].2 else .zero) ∧
      (∀ i (h : i < 511), t.active[i] = decide (i < s.nsym)) ∧ s.mapping.length = s.nsym ∧ t.forest = s.nsym ∧
      (∀ x, symGet t.code x = 0#256 ∧ symGet t.len x = 0#9) ∧ t.nnodes.toNat = s.nsym ∧ t.root = 0#9 ∧
      t.degen = decide (s.nsym = 1) ∧ t.phase = (if s.nsym = 1 then .tree else .merge) ∧
      t = { s with node := t.node, active := t.active, code := t.code, len := t.len, nnodes := t.nnodes,
                   root := t.root, degen := t.degen, phase := t.phase }) ∧
    (s.phase = .count → s.nsym = 0 → exec .finit s = .next (s.faultedWith .empty)) ∧
    (s.phase ≠ .count → s.phase ≠ .fault → exec .finit s = .next (s.faultedWith .sequence)) ∧
    (∀ v : Word32, v.extractLsb' 0 8 = 0x04#8 → (v.extractLsb' 8 8 ≠ 0#8 ∨ v.extractLsb' 16 16 ≠ 0#16) →
      s.phase ≠ .fault → onCmdWrite v s = .next (s.faultedWith .illegalCmd))

/-- R130: the four keys of ≺, and that ≺ is a strict total order on the entries of a forest. -/
def Obligations.ComparatorIsAStrictTotalOrder : Prop :=
  (∀ (a b : NodeEntry) (i j : Nat), precedes a i b j = true ↔
    (a.w.toNat < b.w.toNat ∨ a.w = b.w ∧
      (a.kind = .leaf ∧ b.kind = .internal ∨
       a.kind = .leaf ∧ b.kind = .leaf ∧ a.sym.toNat < b.sym.toNat ∨
       a.kind = .internal ∧ b.kind = .internal ∧ i < j))) ∧
  ∀ (s : State) (ts : List Tree), HoldsForest s ts →
    ∀ i j k : Fin 511, i.val < s.nnodes.toNat → j.val < s.nnodes.toNat → k.val < s.nnodes.toNat →
      precedesAt s.node i i = false ∧
      (precedesAt s.node i j = true → precedesAt s.node j k = true → precedesAt s.node i k = true) ∧
      (i ≠ j → precedesAt s.node i j = true ∨ precedesAt s.node j i = true)

/-- `m` is argmin≺ of the roots in `active`: a root that is ≺ every other root (R11, R131). -/
def IsArgmin (node : Vector NodeEntry 511) (active : Fin 511 → Prop) (m : Fin 511) : Prop :=
  active m ∧ ∀ x, active x → x ≠ m → precedesAt node m x = true

/-- R131 and R133: MERGE makes the two first-selected roots the children of entry NNODES, left = first selected; the sum of
their weights does not wrap; the merge that leaves one root sets ROOT and PHASE = TREE. -/
def Obligations.MergeJoinsTheTwoFirstSelected : Prop :=
  ∀ s : State,
    encode .merge = 0x00000005#32 ∧
    (BlockInv s → s.phase = .merge → 2 ≤ s.forest ∧ ∃ (m1 m2 : Fin 511) (t : State), exec .merge s = .next t ∧
      IsArgmin s.node (fun i => s.active[i] = true) m1 ∧
      IsArgmin s.node (fun i => s.active[i] = true ∧ i ≠ m1) m2 ∧
      s.nnodes.toNat ≤ 510 ∧ s.node[m1].w.toNat + s.node[m2].w.toNat ≤ 2 ^ 64 - 1 ∧
      (∀ i (h : i < 511), t.node[i] =
        if i = s.nnodes.toNat then
          { kind := .internal, sym := 0#8, w := BitVec.ofNat 64 (s.node[m1].w.toNat + s.node[m2].w.toNat),
            left := BitVec.ofNat 9 m1.val, right := BitVec.ofNat 9 m2.val }
        else s.node[i]) ∧
      (∀ i (h : i < 511), t.active[i] =
        if i = s.nnodes.toNat then true else if i = m1.val ∨ i = m2.val then false else s.active[i]) ∧
      t.nnodes.toNat = s.nnodes.toNat + 1 ∧
      (t.forest = 1 → t.phase = .tree ∧ t.root.toNat = s.nnodes.toNat) ∧
      (t.forest ≠ 1 → t.phase = .merge ∧ t.root = s.root) ∧
      t = { s with node := t.node, active := t.active, nnodes := t.nnodes, root := t.root, phase := t.phase }) ∧
    (s.phase ≠ .merge → s.phase ≠ .fault → exec .merge s = .next (s.faultedWith .sequence)) ∧
    (∀ v : Word32, v.extractLsb' 0 8 = 0x05#8 → (v.extractLsb' 8 8 ≠ 0#8 ∨ v.extractLsb' 16 16 ≠ 0#16) →
      s.phase ≠ .fault → onCmdWrite v s = .next (s.faultedWith .illegalCmd))

/-- R135: each merge lowers FOREST by 1, raises NNODES by 1 and keeps Σ W over the active entries; from FINIT with
NSYM = n ≥ 2, n - 1 merges reach FOREST = 1, and then NNODES = 2n - 1. -/
def Obligations.ForestAccounting : Prop :=
  ∀ s : State, BlockInv s →
    (s.phase = .merge → ∃ t, exec .merge s = .next t ∧ t.forest + 1 = s.forest ∧
      t.nnodes.toNat = s.nnodes.toNat + 1 ∧ t.activeWeight = s.activeWeight) ∧
    (s.phase = .count → 2 ≤ s.nsym → ∃ t, execAll (.finit :: List.replicate (s.nsym - 1) .merge) s = .next t ∧
      t.forest = 1 ∧ t.nnodes.toNat + 1 = 2 * s.nsym ∧ t.phase = .tree)

/-- R134: BUILD in phase MERGE performs exactly FOREST - 1 merges, as MERGE would, and leaves one root; in phase TREE it
changes nothing; BUILD after some MERGEs gives what BUILD alone gives. -/
def Obligations.BuildMergesToOneRoot : Prop :=
  ∀ s : State,
    encode .build = 0x00000006#32 ∧
    (BlockInv s → s.phase = .merge → ∃ t, exec .build s = .next t ∧
      execAll (List.replicate (s.forest - 1) .merge) s = .next t ∧
      t.phase = .tree ∧ t.forest = 1 ∧ t.active[t.root.toNat]? = some true ∧
      t = { s with node := t.node, active := t.active, nnodes := t.nnodes, root := t.root, phase := t.phase } ∧
      ∀ u, exec .merge s = .next u → exec .build u = .next t) ∧
    (s.phase = .tree → exec .build s = .next s) ∧
    (s.phase ≠ .merge → s.phase ≠ .tree → s.phase ≠ .fault → exec .build s = .next (s.faultedWith .sequence)) ∧
    (∀ v : Word32, v.extractLsb' 0 8 = 0x06#8 → (v.extractLsb' 8 8 ≠ 0#8 ∨ v.extractLsb' 16 16 ≠ 0#16) →
      s.phase ≠ .fault → onCmdWrite v s = .next (s.faultedWith .illegalCmd))

/-- R137: the arena, ROOT, the codes and the serialized tree are a function of the FREQ table alone: two runs of FINIT, BUILD
and GENCODES from states in phase COUNT with the same FREQ, whatever else differs, end with the same. (With NSYM = 0 FINIT
raises EMPTY and there is no tree.) -/
def Obligations.TreeAndCodesDependOnFreqOnly : Prop :=
  ∀ s s' t t' : State, s.phase = .count → s'.phase = .count → s.freq = s'.freq → s.nsym ≠ 0 →
    execAll [.finit, .build, .gencodes] s = .next t → execAll [.finit, .build, .gencodes] s' = .next t' →
    t.node = t'.node ∧ t.nnodes = t'.nnodes ∧ t.active = t'.active ∧ t.root = t'.root ∧ t.code = t'.code ∧
    t.len = t'.len ∧ t.degen = t'.degen ∧ treeEntries t = treeEntries t'

/-! ## Code-map generator (43_codegen.md) -/

/-- R160, R161, R162: GENCODES gives each leaf the code of its path, the branch at the root as the most significant used bit,
and its depth as the length; the degenerate case gives the sole symbol the one-bit code 0; every other symbol has none. -/
def Obligations.GencodesGivesEachLeafItsPath : Prop :=
  ∀ s : State,
    encode .gencodes = 0x00000007#32 ∧
    (∀ tr : Tree, s.phase = .tree → s.degen = false → treeAt s.node s.root.toNat = some tr → tr.depth ≤ 255 →
      tr.size ≤ 511 → (tr.leaves.map Prod.fst).Nodup →
      ∃ t, exec .gencodes s = .next t ∧
        (∀ p ∈ tr.paths, (symGet t.code p.1).toNat = pathValue p.2 ∧ (symGet t.len p.1).toNat = p.2.length) ∧
        (∀ x, x ∉ tr.leaves.map Prod.fst → symGet t.code x = 0#256 ∧ symGet t.len x = 0#9) ∧
        t = { s with code := t.code, len := t.len, phase := .coded }) ∧
    (s.phase = .tree → s.degen = true → ∀ h : s.root.toNat < 511,
      ∃ t, exec .gencodes s = .next t ∧
        (∀ x, symGet t.code x = 0#256 ∧ symGet t.len x = if x = s.node[s.root.toNat].sym then 1#9 else 0#9) ∧
        t = { s with code := t.code, len := t.len, phase := .coded }) ∧
    (s.phase ≠ .tree → s.phase ≠ .fault → exec .gencodes s = .next (s.faultedWith .sequence)) ∧
    (∀ v : Word32, v.extractLsb' 0 8 = 0x07#8 → (v.extractLsb' 8 8 ≠ 0#8 ∨ v.extractLsb' 16 16 ≠ 0#16) →
      s.phase ≠ .fault → onCmdWrite v s = .next (s.faultedWith .illegalCmd))

/-- R163: after GENCODES, the code of a symbol is no prefix of another's. -/
def Obligations.CodesArePrefixFree : Prop :=
  ∀ s : State, BlockInv s → s.phase = .coded ∨ s.phase = .pack ∨ s.phase = .done →
    ∀ x y : Sym, x ≠ y → symGet s.len x ≠ 0#9 → symGet s.len y ≠ 0#9 → ¬ s.codeOf x <+: s.codeOf y

/-- The length bound of R164 and (I5) of R40: every LEN is in 0..255 and is nonzero exactly when FREQ is, no code bit stands
at a position ≥ LEN, and GENCODES stops on no tree of the merge engine. -/
def Obligations.CodeLengthsAreBounded : Prop :=
  ∀ s : State, BlockInv s →
    (s.phase = .coded ∨ s.phase = .pack ∨ s.phase = .done →
      ∀ x : Sym, (symGet s.len x).toNat ≤ 255 ∧ (symGet s.len x ≠ 0#9 ↔ symGet s.freq x ≠ 0#64) ∧
        (symGet s.code x).toNat < 2 ^ (symGet s.len x).toNat) ∧
    (s.phase = .tree → ∃ t, exec .gencodes s = .next t)

/-! ## Serializer (44_serializer.md) -/

/-- R180: the three fields of a node record. -/
def Obligations.NodeRecordFields : Prop :=
  ∀ e : NodeEntry,
    (nodeRecord e).getLsbD 0 = decide (e.kind = .leaf) ∧
    ((nodeRecord e).extractLsb' 1 55).toNat = e.w.toNat % 2 ^ 55 ∧
    (nodeRecord e).extractLsb' 56 8 = if e.kind = .leaf then e.sym else 0#8

/-- R182: SERIALIZE emits MAGIC, the records of the tree in pre-order, each low byte first, and a zero record; TRUNC tells
whether some weight is 2^55 or more; a sink error stops it (R256). In phase CODED the tree is there, with 2 * NSYM - 1
nodes. -/
def Obligations.SerializeEmitsThePreorderRecords : Prop :=
  ∀ s : State,
    encode .serialize = 0x00000008#32 ∧
    (∀ tr : Tree, s.phase = .coded → treeAt s.node s.root.toNat = some tr → tr.depth ≤ 255 → tr.size ≤ 511 →
      s.sinkTakes (16 + 8 * tr.size) = true →
      ∃ t, exec .serialize s = .next t ∧
        t.out = s.out ++ (List.finRange 8).map Config.magic ++ recordsBytes (tr.preorder.map nodeRecord) ++
          List.replicate 8 0#8 ∧
        t.outcnt = s.outcnt + BitVec.ofNat 64 (16 + 8 * tr.size) ∧
        (t.trunc = true ↔ ∃ e ∈ tr.preorder, 2 ^ 55 ≤ e.w.toNat) ∧
        t = { s with out := t.out, outcnt := t.outcnt, trunc := t.trunc, phase := .pack,
                     sinkScript := s.sinkScript.drop (16 + 8 * tr.size) }) ∧
    (∀ (tr : Tree) (n : Nat), s.phase = .coded → treeAt s.node s.root.toNat = some tr → tr.depth ≤ 255 → tr.size ≤ 511 →
      n < 16 + 8 * tr.size → s.sinkTakes n = true → s.sinkScript[n]? = some .ioError →
      ∃ t, exec .serialize s = .next t ∧ AbortedAfter n s t) ∧
    (BlockInv s → s.phase = .coded →
      ∃ tr, treeAt s.node s.root.toNat = some tr ∧ tr.depth ≤ 255 ∧ tr.size + 1 = 2 * s.nsym ∧ tr.size ≤ 511) ∧
    (s.phase ≠ .coded → s.phase ≠ .fault → exec .serialize s = .next (s.faultedWith .sequence)) ∧
    (∀ v : Word32, v.extractLsb' 0 8 = 0x08#8 → (v.extractLsb' 8 8 ≠ 0#8 ∨ v.extractLsb' 16 16 ≠ 0#16) →
      s.phase ≠ .fault → onCmdWrite v s = .next (s.faultedWith .illegalCmd))

/-- R71: byte j of a record on the sink is its bits 8j+7..8j. -/
def Obligations.RecordsAreLittleEndian : Prop :=
  ∀ r : NodeRecord, (bytesLE r).length = 8 ∧ ∀ j (h : j < (bytesLE r).length), (bytesLE r)[j] = r.extractLsb' (8 * j) 8

/-- R183: after SERIALIZE, TRUNC = 1 exactly when TOTAL ≥ 2^55. -/
def Obligations.TruncReportsATotalOf55Bits : Prop :=
  ∀ s t : State, BlockInv s → exec .serialize s = .next t → s.phase = .coded → t.phase = .pack →
    (t.trunc = true ↔ 2 ^ 55 ≤ s.total.toNat)

/-- R184: a leaf record is never 0; an internal record is 0 exactly when its weight is a multiple of 2^55, which for a nonzero
weight makes it 2^55 or more. -/
def Obligations.OnlyTruncatedInternalRecordsAliasTheSentinel : Prop :=
  ∀ e : NodeEntry, (nodeRecord e = 0#64 ↔ e.kind = .internal ∧ e.w.toNat % 2 ^ 55 = 0) ∧
    (nodeRecord e = 0#64 → e.w ≠ 0#64 → truncFlag [e] = true)

/-- R185: when no weight is truncated and no record is 0, reading the records up to the first zero record and rebuilding in
pre-order gives the tree's topology, symbols and weights back. -/
def Obligations.ReaderRebuildsTheTree : Prop :=
  ∀ (node : Vector NodeEntry 511) (i : Nat) (tr : Tree), treeAt node i = some tr →
    (∀ e ∈ tr.preorder, e.w.toNat < 2 ^ 55 ∧ nodeRecord e ≠ 0#64) →
    ∀ rest : List NodeRecord, readTreeSection (tr.preorder.map nodeRecord ++ 0#64 :: rest) = some tr.shape

/-! ## Bit-packer (45_bitpacker.md) -/

/-- R200: bit i of the reversed code is c[L-1-i], and every bit at a position ≥ L is 0. -/
def Obligations.ReversedCodeBits : Prop :=
  ∀ (c : CodeWord) (L : Nat),
    (∀ i, i < L → (revCode c L).testBit i = c.getLsbD (L - 1 - i)) ∧ ∀ i, L ≤ i → (revCode c L).testBit i = false

/-- R201: PACK s appends the bits of the code of s, from the root branch on, to what is packed, emits
floor((OFF + L) / 8) bytes and leaves (OFF + L) mod 8 bits waiting; a symbol without a code is MISSING_SYMBOL, and a sink
error stops it (R256). -/
def Obligations.PackAppendsTheCodeBits : Prop :=
  ∀ (sym : Sym) (s : State),
    let L := (symGet s.len sym).toNat
    let n := (s.off.toNat + L) / 8
    (encode (.pack sym)).toNat = sym.toNat * 2 ^ 8 + 0x09 ∧
    (s.phase = .pack → PackerInv s → L ≠ 0 → L ≤ 255 → s.sinkTakes n = true →
      ∃ (t : State) (bs : List Byte), exec (.pack sym) s = .next t ∧
        t.out = s.out ++ bs ∧ bs.length = n ∧ n ≤ 32 ∧ t.outcnt = s.outcnt + BitVec.ofNat 64 n ∧
        t.packedBits = s.packedBits ++ s.codeOf sym ∧
        t.off.toNat = (s.off.toNat + L) % 8 ∧ t.acc.toNat < 2 ^ t.off.toNat ∧
        t = { s with out := t.out, outcnt := t.outcnt, acc := t.acc, off := t.off,
                     sinkScript := s.sinkScript.drop n }) ∧
    (∀ k, s.phase = .pack → L ≠ 0 → k < n → s.sinkTakes k = true → s.sinkScript[k]? = some .ioError →
      ∃ t, exec (.pack sym) s = .next t ∧ AbortedAfter k s t) ∧
    (s.phase = .pack → L = 0 → exec (.pack sym) s = .next (s.faultedWith .missingSymbol)) ∧
    (s.phase ≠ .pack → s.phase ≠ .fault → exec (.pack sym) s = .next (s.faultedWith .sequence)) ∧
    (∀ v : Word32, v.extractLsb' 0 8 = 0x09#8 → v.extractLsb' 16 16 ≠ 0#16 → s.phase ≠ .fault →
      onCmdWrite v s = .next (s.faultedWith .illegalCmd))

/-- R202 and R203: FLUSH emits the waiting bits as one last byte with 0 in its padding bits, if any wait, and leaves ACC and
OFF 0 and phase DONE, which only CLEAR leaves but into FAULT and in which PACK and FLUSH raise
SEQUENCE; a sink error stops it (R256). -/
def Obligations.FlushEmitsTheLastByte : Prop :=
  ∀ s : State,
    encode .flush = 0x0000000A#32 ∧
    (s.phase = .pack → s.off = 0#9 →
      exec .flush s = .next { s with acc := 0#264, off := 0#9, phase := .done }) ∧
    (s.phase = .pack → 0 < s.off.toNat → s.sinkTakes 1 = true →
      exec .flush s = .next { s with
        out := s.out ++ [s.acc.extractLsb' 0 8], outcnt := s.outcnt + 1#64, sinkScript := s.sinkScript.drop 1,
        acc := 0#264, off := 0#9, phase := .done }) ∧
    (s.phase = .pack → 0 < s.off.toNat → s.sinkScript.head? = some .ioError →
      ∃ t, exec .flush s = .next t ∧ AbortedAfter 0 s t) ∧
    (s.phase = .done → exec .flush s = .next (s.faultedWith .sequence) ∧
      (∀ sym, exec (.pack sym) s = .next (s.faultedWith .sequence)) ∧
      ∀ i t, exec i s = .next t → t.phase ≠ .done → t.phase ≠ .fault → i = .clear) ∧
    (PackerInv s → byteBits (s.acc.extractLsb' 0 8) = s.waitingBits ++ List.replicate (8 - s.off.toNat) false) ∧
    (s.phase ≠ .pack → s.phase ≠ .fault → exec .flush s = .next (s.faultedWith .sequence)) ∧
    (∀ v : Word32, v.extractLsb' 0 8 = 0x0A#8 → (v.extractLsb' 8 8 ≠ 0#8 ∨ v.extractLsb' 16 16 ≠ 0#16) →
      s.phase ≠ .fault → onCmdWrite v s = .next (s.faultedWith .illegalCmd))

/-- R204 and R205: a second pass PACK s_1 … PACK s_N and FLUSH emits the codes' bits, each from the root branch to the leaf
branch, packed from bit 0 of each byte upward with 0 in the padding: ceil(B / 8) bytes, B = Σ LEN[s_k]. When each symbol
is packed FREQ[s] times, B = Σ LEN[s] * FREQ[s]. -/
def Obligations.SecondPassPacksTheCodes : Prop :=
  ∀ (xs : List Sym) (s : State), s.phase = .pack → s.off = 0#9 → s.acc = 0#264 →
    (∀ x ∈ xs, symGet s.len x ≠ 0#9 ∧ (symGet s.len x).toNat ≤ 255) →
    let B := (xs.map fun x => (symGet s.len x).toNat).sum
    s.sinkTakes ((B + 7) / 8) = true →
    (∃ (t : State) (payload : List Byte), execAll (xs.map .pack ++ [.flush]) s = .next t ∧ t.phase = .done ∧
      t.out = s.out ++ payload ∧ payload.length = (B + 7) / 8 ∧
      bytesBits payload = xs.flatMap s.codeOf ++ List.replicate (8 * ((B + 7) / 8) - B) false ∧
      t.outcnt = s.outcnt + BitVec.ofNat 64 payload.length) ∧
    ((∀ x : Sym, xs.count x = (symGet s.freq x).toNat) →
      B = (symbols.map fun x => (symGet s.len x).toNat * (symGet s.freq x).toNat).sum)

/-! ## Invariants of every step, and the whole machine (10_state.md R40, 70_reset_and_hazards.md) -/

/-- The invariants hold in the reset state. -/
def Obligations.ResetStateMeetsTheInvariants : Prop := BlockInv State.reset

/-- (I1) of R40: every step keeps TOTAL = Σ FREQ[s]. -/
def Obligations.EveryStepKeepsTotalTheSumOfFreq : Prop := ∀ s t : State, TotalInv s → step s = .next t → TotalInv t

/-- (I6) and (I7) of R40: every step keeps OFF ≤ 7, no bit of ACC at a position ≥ OFF, and both 0 before the packing phase. -/
def Obligations.EveryStepKeepsThePackerInvariant : Prop :=
  ∀ s t : State, PackerInv s → step s = .next t → PackerInv t

/-- R40 and R136: every step keeps the invariants: the arena holds a forest whose nodes are entries 0..NNODES-1, then one full
binary tree under ROOT whose leaves are the frequency mapping, then its codes stand in CODE and LEN. -/
def Obligations.EveryStepKeepsTheInvariants : Prop := ∀ s t : State, BlockInv s → step s = .next t → BlockInv t

/-- R40: after every command that does not fault, (I1) to (I7) hold. -/
def Obligations.TheInvariantsOfR40Hold : Prop :=
  ∀ (i : Instr) (s₀ s : State), BlockInv s₀ → exec i s₀ = .next s → s.phase ≠ .fault →
    (s.total.toNat = (symbols.map fun x => (symGet s.freq x).toNat).sum ∧ s.total.toNat ≤ 2 ^ 64 - 1) ∧
    (s.phase ∈ [.merge, .tree, .coded, .pack, .done] → s.activeWeight = s.total.toNat) ∧
    (s.phase ∈ [.merge, .tree, .coded, .pack, .done] → s.nnodes.toNat + s.forest = 2 * s.nsym ∧
      ((List.finRange 511).filter fun i => s.node[i].kind == .leaf).length = s.nsym) ∧
    (∀ i (h : i < 511), i < s.nnodes.toNat → s.node[i].kind = .internal →
      s.node[i].left.toNat < i ∧ s.node[i].right.toNat < i ∧ s.node[i].left ≠ s.node[i].right) ∧
    (s.phase ∈ [.coded, .pack, .done] → ∀ x, symGet s.len x ≠ 0#9 ↔ symGet s.freq x ≠ 0#64) ∧
    (s.off.toNat ≤ 7 ∧ ∀ j, s.off.toNat ≤ j → s.acc.getLsbD j = false) ∧
    (s.phase ∈ [.count, .merge, .tree, .coded] → s.off = 0#9 ∧ s.acc = 0#264)

/-- R136: in phases TREE to DONE the entries 0..NNODES-1 are one full binary tree under ROOT, each in it once; its leaves are
entries 0..NSYM-1, none deeper than NSYM - 1 ≤ 255; W of a node is the sum of its children's, and W(ROOT) = TOTAL. -/
def Obligations.TreeShape : Prop :=
  ∀ s : State, BlockInv s → s.phase ∈ [.tree, .coded, .pack, .done] →
    ∃ tr, treeAt s.node s.root.toNat = some tr ∧ tr.indices.Perm (List.range s.nnodes.toNat) ∧ tr.indices.Nodup ∧
      tr.childrenBelow = true ∧ (∀ i (h : i < 511), i < s.nnodes.toNat → (s.node[i].kind = .leaf ↔ i < s.nsym)) ∧
      tr.depth + 1 ≤ s.nsym ∧ s.nsym ≤ 256 ∧ tr.sumsOk = true ∧ tr.entry.w = s.total

/-- R100: the pseudo-instructions expand to the statements the rule gives, and `ENCODE` to one complete encode operation. -/
def Obligations.PseudoInstructionsExpand : Prop :=
  (∀ (x : Sym) (v : Weight), assemble (.loadf x v) =
    [.write 0x0008#16 32 (v.extractLsb' 0 32), .write 0x000C#16 32 (v.extractLsb' 32 32)] ++ assemble (.cmd (.setfreq x))) ∧
  (∀ text, assemble (.counts text) = text.flatMap fun b => assemble (.cmd (.count b))) ∧
  (∀ text, assemble (.packs text) = text.flatMap fun b => assemble (.cmd (.pack b))) ∧
  (∀ text, assemble (.encode text) =
    assembleAll [.cmd .clear, .counts text, .cmd .finit, .cmd .build, .cmd .gencodes, .cmd .serialize, .packs text,
      .cmd .flush]) ∧
  (∀ i, assemble (.cmd i) = [.write 0x0000#16 32 (encode i)])

/-- R296 and R73: one complete encode operation on any nonempty input, from any state, with a sink that takes every byte, ends
in PHASE = DONE with ERR = 0, and appends the container to OUT: MAGIC, the records of the code tree of the input's
frequencies in pre-order, the sentinel, and the input's codes packed. -/
def Obligations.EncodeOperationEmitsTheContainer : Prop :=
  ∀ (text : List Byte) (s : State), text ≠ [] → text.length ≤ 2 ^ 64 - 1 → s.sinkScript.all (· == .takes) = true →
    ∃ (t : State) (tr : Tree) (payload : List Byte), execAll (encodeCommands text) s = .next t ∧ t.completed = true ∧
      treeAt t.node t.root.toNat = some tr ∧ (∀ x : Sym, (symGet t.freq x).toNat = text.count x) ∧
      tr.leaves.Perm t.mapping ∧
      t.out = s.out ++ (List.finRange 8).map Config.magic ++ recordsBytes (tr.preorder.map nodeRecord) ++
        List.replicate 8 0#8 ++ payload ∧
      bytesBits payload = text.flatMap t.codeOf ++
        List.replicate (8 * payload.length - (text.map fun x => (symGet t.len x).toNat).sum) false ∧
      payload.length = ((text.map fun x => (symGet t.len x).toNat).sum + 7) / 8 ∧
      t.outcnt = BitVec.ofNat 64 (16 + 8 * (2 * t.nsym - 1) + payload.length)
end

