-- ==== Sys2Proof/Laws/Decode.lean ====
section
/-! SUPPORT. The fields of an encoded word (spec R90), and what each outcome of the decoder says of the word. -/

namespace Sys2Proof

/-- The bits of a command word: OP in 7:0, SYM in 15:8, 0 above (R90). -/
theorem getLsbD_cmdWord (op : BitVec 8) (sym : Sym) (i : Nat) :
    (cmdWord op sym).getLsbD i = if i < 8 then op.getLsbD i else sym.getLsbD (i - 8) := by
  change (0#16 ++ sym ++ op : BitVec (16 + 8 + 8)).getLsbD i = _
  rw [BitVec.getLsbD_append, BitVec.getLsbD_append]
  split
  · rfl
  · split
    · rfl
    · rw [BitVec.getLsbD_of_ge sym _ (by omega)]; simp

@[simp] theorem fieldOp_cmdWord (op : BitVec 8) (sym : Sym) : fieldOp (cmdWord op sym) = op := by
  ext i hi
  simp [fieldOp, getLsbD_cmdWord, hi, BitVec.getLsbD_eq_getElem]

@[simp] theorem fieldSym_cmdWord (op : BitVec 8) (sym : Sym) : fieldSym (cmdWord op sym) = sym := by
  ext i hi
  simp [fieldSym, getLsbD_cmdWord, hi, BitVec.getLsbD_eq_getElem]

@[simp] theorem fieldRsv_cmdWord (op : BitVec 8) (sym : Sym) : fieldRsv (cmdWord op sym) = 0#16 := by
  ext i hi
  have h : ¬ 16 + i < 8 := by omega
  have h' : 8 ≤ 16 + i - 8 := by omega
  simp [fieldRsv, getLsbD_cmdWord, h, BitVec.getLsbD_of_ge _ _ h']

/-- A word with RSV = 0 is the word of its two other fields (R90). -/
theorem eq_cmdWord (v : Word32) (h : fieldRsv v = 0#16) : v = cmdWord (fieldOp v) (fieldSym v) := by
  refine BitVec.eq_of_getLsbD_eq fun i hi => ?_
  rw [getLsbD_cmdWord]
  split
  · simp [fieldOp, *]
  · by_cases h16 : i < 16
    · have e : 8 + (i - 8) = i := by omega
      have l : i - 8 < 8 := by omega
      simp [fieldSym, e, l]
    · have e : v.getLsbD i = (fieldRsv v).getLsbD (i - 16) := by
        have e : 16 + (i - 16) = i := by omega
        have l : i - 16 < 16 := by omega
        simp [fieldRsv, e, l]
      rw [e, h, BitVec.getLsbD_of_ge (fieldSym v) _ (by omega)]
      simp

theorem plainCommand_ok {i j : Instr} {v : Word32} (h : plainCommand i v = .ok j) : fieldSym v = 0#8 ∧ j = i := by
  unfold plainCommand at h
  split at h <;> simp_all

/-- The word as a number: (s << 8) | OP (R95, R99). -/
theorem cmdWord_toNat (op : BitVec 8) (sym : Sym) : (cmdWord op sym).toNat = sym.toNat * 2 ^ 8 + op.toNat := by
  unfold cmdWord
  change ((0#16 ++ sym ++ op : BitVec (16 + 8 + 8))).toNat = _
  rw [BitVec.toNat_append, BitVec.toNat_append, ← Nat.shiftLeft_add_eq_or_of_lt op.isLt, Nat.shiftLeft_eq]
  simp

end Sys2Proof
end

