-- ==== Sys2Proof/Laws/State.lean ====
section
/-! SUPPORT. One lemma per field for each named update of the state: the fault entry, the reset, SINK_IO and the placing of
a command word. -/

namespace Sys2Proof.Machine

/-! ## The fault entry (R253) -/

theorem raiseFault_of_ne {s : State} (h : s.phase ≠ .fault) (e : ErrCode) :
    raiseFault e s = { s with err := e, phase := .fault } := if_neg h

theorem raiseFault_of_fault {s : State} (h : s.phase = .fault) (e : ErrCode) : raiseFault e s = s := if_pos h

@[simp] theorem raiseFault_phase (e : ErrCode) (s : State) : (raiseFault e s).phase = .fault := by
  unfold raiseFault; split <;> simp_all

@[simp] theorem raiseFault_degen (e : ErrCode) (s : State) : (raiseFault e s).degen = s.degen := by
  unfold raiseFault; split <;> rfl

@[simp] theorem raiseFault_trunc (e : ErrCode) (s : State) : (raiseFault e s).trunc = s.trunc := by
  unfold raiseFault; split <;> rfl

@[simp] theorem raiseFault_dataLo (e : ErrCode) (s : State) : (raiseFault e s).dataLo = s.dataLo := by
  unfold raiseFault; split <;> rfl

@[simp] theorem raiseFault_dataHi (e : ErrCode) (s : State) : (raiseFault e s).dataHi = s.dataHi := by
  unfold raiseFault; split <;> rfl

@[simp] theorem raiseFault_freq (e : ErrCode) (s : State) : (raiseFault e s).freq = s.freq := by
  unfold raiseFault; split <;> rfl

@[simp] theorem raiseFault_total (e : ErrCode) (s : State) : (raiseFault e s).total = s.total := by
  unfold raiseFault; split <;> rfl

@[simp] theorem raiseFault_node (e : ErrCode) (s : State) : (raiseFault e s).node = s.node := by
  unfold raiseFault; split <;> rfl

@[simp] theorem raiseFault_nnodes (e : ErrCode) (s : State) : (raiseFault e s).nnodes = s.nnodes := by
  unfold raiseFault; split <;> rfl

@[simp] theorem raiseFault_active (e : ErrCode) (s : State) : (raiseFault e s).active = s.active := by
  unfold raiseFault; split <;> rfl

@[simp] theorem raiseFault_root (e : ErrCode) (s : State) : (raiseFault e s).root = s.root := by
  unfold raiseFault; split <;> rfl

@[simp] theorem raiseFault_code (e : ErrCode) (s : State) : (raiseFault e s).code = s.code := by
  unfold raiseFault; split <;> rfl

@[simp] theorem raiseFault_len (e : ErrCode) (s : State) : (raiseFault e s).len = s.len := by
  unfold raiseFault; split <;> rfl

@[simp] theorem raiseFault_acc (e : ErrCode) (s : State) : (raiseFault e s).acc = s.acc := by
  unfold raiseFault; split <;> rfl

@[simp] theorem raiseFault_off (e : ErrCode) (s : State) : (raiseFault e s).off = s.off := by
  unfold raiseFault; split <;> rfl

@[simp] theorem raiseFault_outcnt (e : ErrCode) (s : State) : (raiseFault e s).outcnt = s.outcnt := by
  unfold raiseFault; split <;> rfl

@[simp] theorem raiseFault_out (e : ErrCode) (s : State) : (raiseFault e s).out = s.out := by
  unfold raiseFault; split <;> rfl

@[simp] theorem raiseFault_sinkScript (e : ErrCode) (s : State) : (raiseFault e s).sinkScript = s.sinkScript := by
  unfold raiseFault; split <;> rfl

@[simp] theorem raiseFault_hostQueue (e : ErrCode) (s : State) : (raiseFault e s).hostQueue = s.hostQueue := by
  unfold raiseFault; split <;> rfl

@[simp] theorem raiseFault_readLog (e : ErrCode) (s : State) : (raiseFault e s).readLog = s.readLog := by
  unfold raiseFault; split <;> rfl

@[simp] theorem raiseFault_freeCount (e : ErrCode) (s : State) : (raiseFault e s).freeCount = s.freeCount := by
  unfold raiseFault; split <;> rfl

/-! ## The reset (R290) -/

@[simp] theorem resetBlock_phase (s : State) : (resetBlock s).phase = State.reset.phase := rfl
@[simp] theorem resetBlock_err (s : State) : (resetBlock s).err = State.reset.err := rfl
@[simp] theorem resetBlock_degen (s : State) : (resetBlock s).degen = State.reset.degen := rfl
@[simp] theorem resetBlock_trunc (s : State) : (resetBlock s).trunc = State.reset.trunc := rfl
@[simp] theorem resetBlock_dataLo (s : State) : (resetBlock s).dataLo = State.reset.dataLo := rfl
@[simp] theorem resetBlock_dataHi (s : State) : (resetBlock s).dataHi = State.reset.dataHi := rfl
@[simp] theorem resetBlock_freq (s : State) : (resetBlock s).freq = State.reset.freq := rfl
@[simp] theorem resetBlock_total (s : State) : (resetBlock s).total = State.reset.total := rfl
@[simp] theorem resetBlock_node (s : State) : (resetBlock s).node = State.reset.node := rfl
@[simp] theorem resetBlock_nnodes (s : State) : (resetBlock s).nnodes = State.reset.nnodes := rfl
@[simp] theorem resetBlock_active (s : State) : (resetBlock s).active = State.reset.active := rfl
@[simp] theorem resetBlock_root (s : State) : (resetBlock s).root = State.reset.root := rfl
@[simp] theorem resetBlock_code (s : State) : (resetBlock s).code = State.reset.code := rfl
@[simp] theorem resetBlock_len (s : State) : (resetBlock s).len = State.reset.len := rfl
@[simp] theorem resetBlock_acc (s : State) : (resetBlock s).acc = State.reset.acc := rfl
@[simp] theorem resetBlock_off (s : State) : (resetBlock s).off = State.reset.off := rfl
@[simp] theorem resetBlock_outcnt (s : State) : (resetBlock s).outcnt = State.reset.outcnt := rfl
@[simp] theorem resetBlock_out (s : State) : (resetBlock s).out = s.out := rfl
@[simp] theorem resetBlock_sinkScript (s : State) : (resetBlock s).sinkScript = s.sinkScript := rfl
@[simp] theorem resetBlock_hostQueue (s : State) : (resetBlock s).hostQueue = s.hostQueue := rfl
@[simp] theorem resetBlock_readLog (s : State) : (resetBlock s).readLog = s.readLog := rfl
@[simp] theorem resetBlock_freeCount (s : State) : (resetBlock s).freeCount = s.freeCount := rfl

/-- The block part of the state does not survive a reset: two states with the same environment reset to the same state. -/
theorem resetBlock_congr {s t : State} (h1 : s.out = t.out) (h2 : s.sinkScript = t.sinkScript)
    (h3 : s.hostQueue = t.hostQueue) (h4 : s.readLog = t.readLog) (h5 : s.freeCount = t.freeCount) :
    resetBlock s = resetBlock t := by
  simp [resetBlock, h1, h2, h3, h4, h5]

/-! ## SINK_IO (R256) -/

@[simp] theorem sinkIoFault_phase (s : State) : (sinkIoFault s).phase = .fault := by simp [sinkIoFault]
@[simp] theorem sinkIoFault_degen (s : State) : (sinkIoFault s).degen = s.degen := by simp [sinkIoFault]
@[simp] theorem sinkIoFault_trunc (s : State) : (sinkIoFault s).trunc = s.trunc := by simp [sinkIoFault]
@[simp] theorem sinkIoFault_dataLo (s : State) : (sinkIoFault s).dataLo = s.dataLo := by simp [sinkIoFault]
@[simp] theorem sinkIoFault_dataHi (s : State) : (sinkIoFault s).dataHi = s.dataHi := by simp [sinkIoFault]
@[simp] theorem sinkIoFault_freq (s : State) : (sinkIoFault s).freq = s.freq := by simp [sinkIoFault]
@[simp] theorem sinkIoFault_total (s : State) : (sinkIoFault s).total = s.total := by simp [sinkIoFault]
@[simp] theorem sinkIoFault_node (s : State) : (sinkIoFault s).node = s.node := by simp [sinkIoFault]
@[simp] theorem sinkIoFault_nnodes (s : State) : (sinkIoFault s).nnodes = s.nnodes := by simp [sinkIoFault]
@[simp] theorem sinkIoFault_active (s : State) : (sinkIoFault s).active = s.active := by simp [sinkIoFault]
@[simp] theorem sinkIoFault_root (s : State) : (sinkIoFault s).root = s.root := by simp [sinkIoFault]
@[simp] theorem sinkIoFault_code (s : State) : (sinkIoFault s).code = s.code := by simp [sinkIoFault]
@[simp] theorem sinkIoFault_len (s : State) : (sinkIoFault s).len = s.len := by simp [sinkIoFault]
@[simp] theorem sinkIoFault_acc (s : State) : (sinkIoFault s).acc = s.acc := by simp [sinkIoFault]
@[simp] theorem sinkIoFault_off (s : State) : (sinkIoFault s).off = s.off := by simp [sinkIoFault]
@[simp] theorem sinkIoFault_outcnt (s : State) : (sinkIoFault s).outcnt = s.outcnt := by simp [sinkIoFault]
@[simp] theorem sinkIoFault_sinkScript (s : State) : (sinkIoFault s).sinkScript = s.sinkScript := by simp [sinkIoFault]
@[simp] theorem sinkIoFault_hostQueue (s : State) : (sinkIoFault s).hostQueue = s.hostQueue := by simp [sinkIoFault]
@[simp] theorem sinkIoFault_readLog (s : State) : (sinkIoFault s).readLog = s.readLog := by simp [sinkIoFault]
@[simp] theorem sinkIoFault_out (s : State) : (sinkIoFault s).out = Config.freeOut s.freeCount := rfl
@[simp] theorem sinkIoFault_freeCount (s : State) : (sinkIoFault s).freeCount = s.freeCount + 1 := rfl

/-! ## Placing a command word (R231) -/

@[simp] theorem withCmdWrite_phase (s : State) (v : Word32) : (s.withCmdWrite v).phase = s.phase := rfl
@[simp] theorem withCmdWrite_err (s : State) (v : Word32) : (s.withCmdWrite v).err = s.err := rfl
@[simp] theorem withCmdWrite_degen (s : State) (v : Word32) : (s.withCmdWrite v).degen = s.degen := rfl
@[simp] theorem withCmdWrite_trunc (s : State) (v : Word32) : (s.withCmdWrite v).trunc = s.trunc := rfl
@[simp] theorem withCmdWrite_dataLo (s : State) (v : Word32) : (s.withCmdWrite v).dataLo = s.dataLo := rfl
@[simp] theorem withCmdWrite_dataHi (s : State) (v : Word32) : (s.withCmdWrite v).dataHi = s.dataHi := rfl
@[simp] theorem withCmdWrite_freq (s : State) (v : Word32) : (s.withCmdWrite v).freq = s.freq := rfl
@[simp] theorem withCmdWrite_total (s : State) (v : Word32) : (s.withCmdWrite v).total = s.total := rfl
@[simp] theorem withCmdWrite_node (s : State) (v : Word32) : (s.withCmdWrite v).node = s.node := rfl
@[simp] theorem withCmdWrite_nnodes (s : State) (v : Word32) : (s.withCmdWrite v).nnodes = s.nnodes := rfl
@[simp] theorem withCmdWrite_active (s : State) (v : Word32) : (s.withCmdWrite v).active = s.active := rfl
@[simp] theorem withCmdWrite_root (s : State) (v : Word32) : (s.withCmdWrite v).root = s.root := rfl
@[simp] theorem withCmdWrite_code (s : State) (v : Word32) : (s.withCmdWrite v).code = s.code := rfl
@[simp] theorem withCmdWrite_len (s : State) (v : Word32) : (s.withCmdWrite v).len = s.len := rfl
@[simp] theorem withCmdWrite_acc (s : State) (v : Word32) : (s.withCmdWrite v).acc = s.acc := rfl
@[simp] theorem withCmdWrite_off (s : State) (v : Word32) : (s.withCmdWrite v).off = s.off := rfl
@[simp] theorem withCmdWrite_outcnt (s : State) (v : Word32) : (s.withCmdWrite v).outcnt = s.outcnt := rfl
@[simp] theorem withCmdWrite_out (s : State) (v : Word32) : (s.withCmdWrite v).out = s.out := rfl
@[simp] theorem withCmdWrite_sinkScript (s : State) (v : Word32) : (s.withCmdWrite v).sinkScript = s.sinkScript := rfl
@[simp] theorem withCmdWrite_hostQueue (s : State) (v : Word32) : (s.withCmdWrite v).hostQueue = writeCmd v :: s.hostQueue := rfl
@[simp] theorem withCmdWrite_readLog (s : State) (v : Word32) : (s.withCmdWrite v).readLog = s.readLog := rfl
@[simp] theorem withCmdWrite_freeCount (s : State) (v : Word32) : (s.withCmdWrite v).freeCount = s.freeCount := rfl

end Sys2Proof.Machine
end

