-- ==== Sys2Proof/Laws/Table.lean ====
section
/-! SUPPORT. The laws of the 256-entry tables, of the list of symbols, and of the derived counts NSYM and FOREST. -/

namespace Sys2Proof.Machine

/-! ## Read after write -/

@[simp] theorem symGet_symSet_same {α : Type} (t : Vector α 256) (s : Sym) (x : α) :
    symGet (symSet t s x) s = x := by
  simp [symGet, symSet]

theorem symGet_symSet_ne {α : Type} (t : Vector α 256) {s u : Sym} (x : α) (h : u ≠ s) :
    symGet (symSet t s x) u = symGet t u := by
  have h' : s.toNat ≠ u.toNat := fun e => h (BitVec.eq_of_toNat_eq e).symm
  simp [symGet, symSet, h']

theorem symGet_symSet {α : Type} (t : Vector α 256) (s u : Sym) (x : α) :
    symGet (symSet t s x) u = if u = s then x else symGet t u := by
  by_cases h : u = s
  · subst h; simp
  · simp [h, symGet_symSet_ne]

@[simp] theorem symGet_replicate {α : Type} (x : α) (s : Sym) : symGet (Vector.replicate 256 x) s = x := by
  simp [symGet]

/-- Two tables that agree at every symbol are equal. -/
theorem symTable_ext {α : Type} {t u : Vector α 256} (h : ∀ s, symGet t s = symGet u s) : t = u := by
  refine Vector.ext fun i hi => ?_
  have := h (BitVec.ofNat 8 i)
  simpa [symGet, Nat.mod_eq_of_lt hi] using this

@[simp] theorem getElem_arenaTable {α : Type} (f : Nat → α) (i : Nat) (h : i < 511) : (arenaTable f)[i] = f i := by
  simp [arenaTable]

/-! ## The list of symbols -/

@[simp] theorem symbols_length : symbols.length = 256 := by simp [symbols]

theorem symbols_getElem (i : Nat) (h : i < symbols.length) : symbols[i] = BitVec.ofNat 8 i := by simp [symbols]

@[simp] theorem mem_symbols (s : Sym) : s ∈ symbols := by
  refine List.mem_map.2 ⟨s.toNat, List.mem_range.2 s.isLt, ?_⟩
  simp

theorem symbols_nodup : symbols.Nodup := by
  refine List.Nodup.map_on ?_ List.nodup_range
  intro x hx y hy h
  have hx := List.mem_range.1 hx
  have hy := List.mem_range.1 hy
  have := congrArg BitVec.toNat h
  simpa [Nat.mod_eq_of_lt hx, Nat.mod_eq_of_lt hy] using this

/-- A table, read entry by entry in symbol order. -/
theorem toList_eq_map_symbols {α : Type} (t : Vector α 256) : t.toList = symbols.map (symGet t) := by
  refine List.ext_getElem (by simp) fun i h1 h2 => ?_
  have hi : i < 256 := by simpa using h1
  simp [symbols_getElem, symGet, Nat.mod_eq_of_lt hi]

/-! ## NSYM (R28) -/

/-- NSYM counts the symbols with a nonzero count (R28). -/
theorem nsym_eq (s : State) : s.nsym = (symbols.filter fun x => symGet s.freq x != 0#64).length := by
  rw [State.nsym, toList_eq_map_symbols, List.countP_map, List.countP_eq_length_filter]
  rfl

theorem nsym_le (s : State) : s.nsym ≤ 256 := by
  rw [nsym_eq]
  simpa using List.length_filter_le (fun x => symGet s.freq x != 0#64) symbols

/-! ## The sum of a table after one write -/

theorem sum_map_update {l : List Sym} (hl : l.Nodup) {s : Sym} (hs : s ∈ l) (f g : Sym → Nat)
    (h : ∀ x ∈ l, x ≠ s → g x = f x) : (l.map g).sum + f s = (l.map f).sum + g s := by
  induction l with
  | nil => cases hs
  | cons a l ih =>
    obtain ⟨ha, hl⟩ := List.nodup_cons.1 hl
    simp only [List.map_cons, List.sum_cons]
    by_cases e : a = s
    · subst e
      have : l.map g = l.map f := List.map_congr_left fun x hx =>
        h x (List.mem_cons_of_mem _ hx) fun e => ha (e ▸ hx)
      rw [this]; omega
    · have hs' : s ∈ l := (List.mem_cons.1 hs).resolve_left fun e' => e e'.symm
      have := ih hl hs' fun x hx => h x (List.mem_cons_of_mem _ hx)
      have := h a List.mem_cons_self e
      omega

/-- The sum of FREQ after one write (R27): the new sum and the old entry make the old sum and the new entry. -/
theorem freqSum_symSet (t : Vector Weight 256) (s : Sym) (x : Weight) :
    ((symSet t s x).toList.map BitVec.toNat).sum + (symGet t s).toNat = (t.toList.map BitVec.toNat).sum + x.toNat := by
  rw [toList_eq_map_symbols, toList_eq_map_symbols, List.map_map, List.map_map]
  have := sum_map_update symbols_nodup (mem_symbols s) (BitVec.toNat ∘ symGet t) (BitVec.toNat ∘ symGet (symSet t s x))
    fun y _ hy => by simp [symGet_symSet, hy]
  simpa using this

/-- An entry is at most the sum of the table. -/
theorem symGet_le_freqSum (t : Vector Weight 256) (s : Sym) : (symGet t s).toNat ≤ (t.toList.map BitVec.toNat).sum := by
  rw [toList_eq_map_symbols, List.map_map]
  exact List.le_sum_of_mem (List.mem_map.2 ⟨s, mem_symbols s, rfl⟩)

/-! ## Reading with a default (the windows of R65 to R69) -/

theorem vector_getD_lt {α : Type} {n : Nat} (v : Vector α n) {i : Nat} (h : i < n) (d : α) : v.getD i d = v[i] := by
  simp [Vector.getD, h]

theorem vector_getD_ge {α : Type} {n : Nat} (v : Vector α n) {i : Nat} (h : ¬ i < n) (d : α) : v.getD i d = d := by
  simp [Vector.getD, h]

end Sys2Proof.Machine
end

