-- ==== Sys2Proof/Laws/Sink.lean ====
section
/-! SUPPORT. What an emission can do, said once: it appends to OUT, counts, and uses up the sink's script, and nothing else
(spec R39, R81, R256). -/

namespace Sys2Proof.Machine

/-- The bytes `bs` delivered: appended to OUT and counted, the script used up by as many answers (R37, R39). -/
def State.delivered (s : State) (bs : List Byte) : State :=
  { s with out := s.out ++ bs, outcnt := s.outcnt + BitVec.ofNat 64 bs.length,
           sinkScript := s.sinkScript.drop bs.length }

@[simp] theorem delivered_nil (s : State) : s.delivered [] = s := by simp [State.delivered]

theorem delivered_cons (s : State) (b : Byte) (bs : List Byte) :
    s.delivered (b :: bs) = (s.delivered [b]).delivered bs := by
  simp only [State.delivered, List.length_cons, List.length_nil, List.append_assoc, List.cons_append, List.nil_append,
    List.drop_drop, State.mk.injEq, true_and, and_true]
  refine ⟨?_, ?_⟩
  · apply BitVec.eq_of_toNat_eq; simp; omega
  · congr 1; omega

/-- The three outcomes of one Emit (R39, R81, R256). -/
theorem emit_cases (b : Byte) (s : State) :
    (emit b s = .took (s.delivered [b]) ∧ s.sinkTakes 1) ∨
    (emit b s = .ioError { s with sinkScript := s.sinkScript.drop 1 } ∧ s.sinkScript.head? = some .ioError) ∨
    (emit b s = .silent ∧ s.sinkScript.head? = some .silent) := by
  unfold emit State.sinkTakes State.delivered
  split <;> simp_all

theorem sinkTakes_succ (s : State) (b : Byte) (n : Nat) :
    s.sinkTakes (n + 1) = (s.sinkTakes 1 && (s.delivered [b]).sinkTakes n) := by
  unfold State.sinkTakes State.delivered
  cases s.sinkScript <;> simp

/-- When the sink takes every byte, the bytes are delivered (R39, R81). -/
theorem emitAll_took (bs : List Byte) (s : State) (h : s.sinkTakes bs.length) :
    emitAll bs s = .took (s.delivered bs) := by
  induction bs generalizing s with
  | nil => simp [emitAll]
  | cons b bs ih =>
    rw [List.length_cons, sinkTakes_succ s b, Bool.and_eq_true] at h
    have e : emit b s = .took (s.delivered [b]) := by
      rcases emit_cases b s with c | c | c
      · exact c.1
      all_goals
        have := h.1; unfold State.sinkTakes at this
        cases hs : s.sinkScript <;> simp_all
    rw [emitAll, e, delivered_cons s b bs]
    exact ih _ h.2

/-- What an emission can answer: all bytes delivered, or a first part of them and then an error, or a first part of them and
then silence (R256, R260). -/
theorem emitAll_cases (bs : List Byte) (s : State) :
    (emitAll bs s = .took (s.delivered bs) ∧ s.sinkTakes bs.length) ∨
    (∃ n, n < bs.length ∧ s.sinkTakes n ∧ s.sinkScript[n]? = some .ioError ∧
      emitAll bs s = .ioError { s.delivered (bs.take n) with sinkScript := s.sinkScript.drop (n + 1) }) ∨
    (∃ n, n < bs.length ∧ s.sinkTakes n ∧ s.sinkScript[n]? = some .silent ∧ emitAll bs s = .silent) := by
  induction bs generalizing s with
  | nil => left; simp [emitAll, State.sinkTakes]
  | cons b bs ih =>
    rcases emit_cases b s with ⟨e, h1⟩ | ⟨e, h1⟩ | ⟨e, h1⟩
    · rcases ih (s.delivered [b]) with ⟨e2, h2⟩ | ⟨n, hn, ht, hs, e2⟩ | ⟨n, hn, ht, hs, e2⟩
      · left
        refine ⟨by rw [emitAll, e, delivered_cons s b bs]; exact e2, ?_⟩
        rw [List.length_cons, sinkTakes_succ s b, h1, h2]; rfl
      · right; left
        refine ⟨n + 1, by simpa using hn, by rw [sinkTakes_succ s b, h1, ht]; rfl, ?_, ?_⟩
        · simpa [State.delivered, Nat.add_comm] using hs
        · rw [emitAll, e]
          simp only [e2, List.take_succ_cons]
          rw [delivered_cons s b (bs.take n)]
          simp [State.delivered, Nat.add_comm]
      · right; right
        refine ⟨n + 1, by simpa using hn, by rw [sinkTakes_succ s b, h1, ht]; rfl, ?_, ?_⟩
        · simpa [State.delivered, Nat.add_comm] using hs
        · rw [emitAll, e]; exact e2
    · right; left
      refine ⟨0, by simp, by simp [State.sinkTakes], ?_, ?_⟩
      · cases h : s.sinkScript <;> simp_all
      · rw [emitAll, e]; simp
    · right; right
      refine ⟨0, by simp, by simp [State.sinkTakes], ?_, ?_⟩
      · cases h : s.sinkScript <;> simp_all
      · rw [emitAll, e]

/-- What an emitting command can answer (R256, R260). -/
theorem emitThen_cases (bs : List Byte) (commit : State → State) (s : State) :
    (emitThen bs commit s = .next (commit (s.delivered bs)) ∧ s.sinkTakes bs.length) ∨
    (∃ n, n < bs.length ∧ s.sinkTakes n ∧ s.sinkScript[n]? = some .ioError ∧ emitThen bs commit s =
      .next (sinkIoFault { s.delivered (bs.take n) with sinkScript := s.sinkScript.drop (n + 1) })) ∨
    (∃ n, n < bs.length ∧ s.sinkTakes n ∧ s.sinkScript[n]? = some .silent ∧
      emitThen bs commit s = .fault .sinkSilent) := by
  unfold emitThen
  rcases emitAll_cases bs s with ⟨e, h⟩ | ⟨n, h1, h2, h3, e⟩ | ⟨n, h1, h2, h3, e⟩
  · exact .inl ⟨by rw [e], h⟩
  · exact .inr (.inl ⟨n, h1, h2, h3, by rw [e]⟩)
  · exact .inr (.inr ⟨n, h1, h2, h3, by rw [e]⟩)

/-- An emitting command completes when the sink takes its bytes. -/
theorem emitThen_took (bs : List Byte) (commit : State → State) (s : State) (h : s.sinkTakes bs.length) :
    emitThen bs commit s = .next (commit (s.delivered bs)) := by
  unfold emitThen; rw [emitAll_took bs s h]

/-- The gate of R233: a command runs its own rule in a phase that accepts it, and only there. -/
theorem gated_cases (i : Instr) (body : State → Result) (s : State) :
    (s.phase = .fault ∧ gated i body s = .next s) ∨
    (s.phase ≠ .fault ∧ accepts i s.phase = false ∧
      gated i body s = .next { s with err := .sequence, phase := .fault }) ∨
    (s.phase ≠ .fault ∧ accepts i s.phase = true ∧ gated i body s = body s) := by
  unfold gated
  by_cases h : s.phase = .fault
  · simp [h]
  · cases ha : accepts i s.phase <;> simp [h, raiseFault_of_ne h]

/-- In a phase that accepts the command, the gate is its rule. -/
theorem gated_of_accepts {i : Instr} {s : State} (body : State → Result) (h : s.phase ≠ .fault)
    (ha : accepts i s.phase = true) : gated i body s = body s := by simp [gated, h, ha]

end Sys2Proof.Machine
end

