-- ==== Sys2Proof/Laws/Merge.lean ====
section
/-! SUPPORT. The comparator as a strict order, the selection as its minimum, FOREST as the length of the forest, and what
one merge step can do (spec R31, R130, R131, R135). -/

namespace Sys2Proof.Machine

/-! ## The comparator (R130) -/

/-- Key 2 of R130 as a number: a leaf before an internal node. -/
def kindRank : NodeKind → Nat
  | .leaf => 0
  | .internal => 1

/-- Keys 3 and 4 of R130 as a number: the symbol of a leaf, the index of an internal node. -/
def lastKey (a : NodeEntry) (i : Nat) : Nat :=
  match a.kind with
  | .leaf => a.sym.toNat
  | .internal => i

/-- ≺ is the lexicographic order of weight, kind and last key (R130). -/
theorem precedes_iff (a : NodeEntry) (i : Nat) (b : NodeEntry) (j : Nat) :
    precedes a i b j = true ↔ a.w.toNat < b.w.toNat ∨ a.w.toNat = b.w.toNat ∧
      (kindRank a.kind < kindRank b.kind ∨ kindRank a.kind = kindRank b.kind ∧ lastKey a i < lastKey b j) := by
  unfold precedes lastKey
  by_cases hw : a.w = b.w
  · rw [hw]
    cases a.kind <;> cases b.kind <;> simp [kindRank]
  · have : a.w.toNat ≠ b.w.toNat := fun e => hw (BitVec.eq_of_toNat_eq e)
    simp [hw, this]

theorem precedes_irrefl (a : NodeEntry) (i : Nat) : precedes a i a i = false := by simp [precedes]

theorem precedes_trans {a b c : NodeEntry} {i j k : Nat} (h1 : precedes a i b j = true)
    (h2 : precedes b j c k = true) : precedes a i c k = true := by
  rw [precedes_iff] at *; omega

/-- Two leaves with different symbols, two internal nodes at different indices, or a leaf and an internal node are always
ordered (R130). -/
theorem precedes_total {a b : NodeEntry} {i j : Nat}
    (hleaf : a.kind = .leaf → b.kind = .leaf → a.sym ≠ b.sym)
    (hint : a.kind = .internal → b.kind = .internal → i ≠ j) :
    precedes a i b j = true ∨ precedes b j a i = true := by
  rw [precedes_iff, precedes_iff]
  cases ha : a.kind <;> cases hb : b.kind
  · have := hint ha hb
    simp only [kindRank, lastKey, ha, hb, Nat.lt_irrefl, true_and, false_or]; omega
  · simp only [kindRank]; omega
  · simp only [kindRank]; omega
  · have : a.sym.toNat ≠ b.sym.toNat := fun e => hleaf ha hb (BitVec.eq_of_toNat_eq e)
    simp only [kindRank, lastKey, ha, hb, Nat.lt_irrefl, true_and, false_or]; omega

/-! ## The selection (R131) -/

theorem argmin_none {node : Vector NodeEntry 511} {l : List (Fin 511)} : argmin node l = none ↔ l = [] := by
  cases l with
  | nil => simp [argmin]
  | cons i l =>
    simp only [argmin, reduceCtorEq, iff_false]
    split <;> (try split) <;> simp

theorem argmin_mem {node : Vector NodeEntry 511} {l : List (Fin 511)} {m : Fin 511} (h : argmin node l = some m) :
    m ∈ l := by
  induction l generalizing m with
  | nil => simp [argmin] at h
  | cons i l ih =>
    rw [argmin] at h
    split at h
    · simp_all
    · rename_i m' e
      split at h
      · simp_all
      · obtain rfl := Option.some.inj h
        exact List.mem_cons_of_mem _ (ih e)

/-- No member of the set is selected before the selected one. -/
theorem argmin_min {node : Vector NodeEntry 511} {l : List (Fin 511)} {m : Fin 511} (h : argmin node l = some m) :
    ∀ x ∈ l, precedesAt node x m = false := by
  induction l generalizing m with
  | nil => simp
  | cons i l ih =>
    rw [argmin] at h
    split at h
    · rename_i e
      obtain rfl := Option.some.inj h
      obtain rfl := argmin_none.1 e
      simp [precedesAt, precedes_irrefl]
    · rename_i m' e
      have hm := ih e
      split at h
      · rename_i hlt
        obtain rfl := Option.some.inj h
        intro x hx
        rcases List.mem_cons.1 hx with rfl | hx
        · exact precedes_irrefl _ _
        · by_contra hc
          have hc : precedesAt node x i = true := by simpa using hc
          have := hm x hx
          rw [precedesAt] at this
          rw [precedes_trans hc hlt] at this
          cases this
      · rename_i hlt
        obtain rfl := Option.some.inj h
        intro x hx
        rcases List.mem_cons.1 hx with rfl | hx
        · simpa using hlt
        · exact hm x hx

/-- The active indices are those i with ACTIVE[i] = 1, in ascending order (R31). -/
theorem activeList_eq (active : Vector Bool 511) : activeList active = (List.finRange 511).filter fun i => active[i] := by
  have h : active.toList = (List.finRange 511).map fun i => active[i] := by
    refine List.ext_getElem (by simp) fun i h1 h2 => by simp
  rw [activeList, h, List.zip_eq_zipWith]
  generalize List.finRange 511 = l
  induction l with
  | nil => rfl
  | cons a l ih =>
    rw [List.map_cons, List.zipWith_cons_cons, List.filterMap_cons, List.filter_cons, ← ih]
    cases active[a] <;> rfl

@[simp] theorem mem_activeList {active : Vector Bool 511} {i : Fin 511} : i ∈ activeList active ↔ active[i] = true := by
  simp [activeList_eq]

theorem activeList_nodup (active : Vector Bool 511) : (activeList active).Nodup := by
  rw [activeList_eq]; exact (List.nodup_finRange 511).filter _

theorem activeList_eq_nil {active : Vector Bool 511} : activeList active = [] ↔ ∀ i : Fin 511, active[i] = false := by
  rw [List.eq_nil_iff_forall_not_mem]
  exact forall_congr' fun i => by rw [mem_activeList]; simp

/-- What a selection answers: nothing exactly for the empty forest, else a root that no root precedes (R131). -/
theorem selectMin_cases (node : Vector NodeEntry 511) (active : Vector Bool 511) :
    (selectMin node active = none ∧ ∀ i : Fin 511, active[i] = false) ∨
    (∃ m, selectMin node active = some m ∧ active[m] = true ∧
      ∀ x : Fin 511, active[x] = true → precedesAt node x m = false) := by
  unfold selectMin
  generalize hl : activeList active = l
  cases h : argmin node l with
  | none => exact .inl ⟨rfl, activeList_eq_nil.1 (hl.trans (argmin_none.1 h))⟩
  | some m =>
    refine .inr ⟨m, rfl, mem_activeList.1 (hl ▸ argmin_mem h), fun x hx => argmin_min h x ?_⟩
    rw [← hl]; exact mem_activeList.2 hx

/-! ## FOREST (R31) -/

/-- FOREST is the number of active entries. -/
theorem forest_eq_length (s : State) : s.forest = (activeList s.active).length := by
  have h : s.active.toList = (List.finRange 511).map (fun i => s.active[i]) := by
    refine List.ext_getElem (by simp) fun i h1 h2 => by simp
  rw [State.forest, h, activeList_eq, List.count_eq_countP, List.countP_map, List.countP_eq_length_filter]
  exact congrArg List.length (List.filter_congr fun i _ => by simp)

theorem length_activeList_set_false {active : Vector Bool 511} {i : Fin 511} (h : active[i] = true) :
    (activeList (active.set i.val false i.isLt)).length + 1 = (activeList active).length := by
  have e : activeList (active.set i.val false i.isLt) = (activeList active).erase i := by
    rw [(activeList_nodup active).erase_eq_filter, activeList_eq, activeList_eq, List.filter_filter]
    refine List.filter_congr fun j _ => ?_
    by_cases hij : j = i
    · subst hij; simp
    · have : i.val ≠ j.val := fun e => hij (Fin.ext e.symm)
      simp [this, hij]
  rw [e, List.length_erase_of_mem (mem_activeList.2 h)]
  have : 0 < (activeList active).length := List.length_pos_of_mem (mem_activeList.2 h)
  omega

theorem length_activeList_set_true {active : Vector Bool 511} {i : Fin 511} (h : active[i] = false) :
    (activeList (active.set i.val true i.isLt)).length = (activeList active).length + 1 := by
  have h' : (active.set i.val true i.isLt)[i] = true := by simp
  have e : (active.set i.val true i.isLt).set i.val false i.isLt = active := by
    refine Vector.ext fun j hj => ?_
    by_cases e : i.val = j
    · subst e; simpa using h.symm
    · simp [e]
  rw [← length_activeList_set_false h', e]

/-! ## One merge step (R131) -/

/-- What a merge step answers: two different roots, none selected before the first, none but the first before the second,
become the children of entry NNODES; or it stops, which it does only with fewer than two roots or a full arena. -/
theorem mergeOnce_cases (s : State) :
    (∃ (m1 m2 : Fin 511) (hk : s.nnodes.toNat < 511),
      m1 ≠ m2 ∧ s.active[m1] = true ∧ s.active[m2] = true ∧
      (∀ x : Fin 511, s.active[x] = true → precedesAt s.node x m1 = false) ∧
      (∀ x : Fin 511, s.active[x] = true → x ≠ m1 → precedesAt s.node x m2 = false) ∧
      mergeOnce s = .ok (mergePair m1 m2 s.nnodes.toNat hk s)) ∨
    (s.forest < 2 ∧ mergeOnce s = .error .forestEmpty) ∨
    (511 ≤ s.nnodes.toNat ∧ mergeOnce s = .error .arenaFull) := by
  rcases selectMin_cases s.node s.active with ⟨e1, h1⟩ | ⟨m1, e1, a1, min1⟩
  · right; left
    refine ⟨?_, by unfold mergeOnce; simp only [e1]⟩
    rw [forest_eq_length, activeList_eq_nil.2 h1]
    simp
  · have hne : ∀ x : Fin 511, x ≠ m1 →
        (s.active.set m1.val false m1.isLt)[x] = s.active[x] := fun x hx => by
      have : m1.val ≠ x.val := fun e => hx (Fin.ext e.symm)
      simp [this]
    have hm1 : (s.active.set m1.val false m1.isLt)[m1] = false := by simp
    rcases selectMin_cases s.node (s.active.set m1.val false m1.isLt) with ⟨e2, h2⟩ | ⟨m2, e2, a2, min2⟩
    · right; left
      refine ⟨?_, by unfold mergeOnce; simp only [e1, e2]⟩
      have := length_activeList_set_false a1
      rw [activeList_eq_nil.2 h2] at this
      rw [forest_eq_length, ← this]; simp
    · have h21 : m2 ≠ m1 := fun e => by rw [e, hm1] at a2; cases a2
      by_cases hk : s.nnodes.toNat < 511
      · left
        refine ⟨m1, m2, hk, h21.symm, a1, (hne m2 h21) ▸ a2, min1, fun x hx hx1 => min2 x (by rw [hne x hx1]; exact hx),
          by unfold mergeOnce; simp only [e1, e2, hk, dite_true]⟩
      · right; right
        exact ⟨by omega, by unfold mergeOnce; simp only [e1, e2, hk, dite_false]⟩

/-- Only these parts of the state change in a merge, and PHASE goes to TREE or stays (R131, R133). -/
def MergeFrame (s t : State) : Prop :=
  t = { s with node := t.node, active := t.active, nnodes := t.nnodes, root := t.root, phase := t.phase } ∧
    (t.phase = s.phase ∨ t.phase = .tree)

theorem MergeFrame.refl (s : State) : MergeFrame s s := ⟨rfl, .inl rfl⟩

theorem MergeFrame.trans {s t u : State} (h1 : MergeFrame s t) (h2 : MergeFrame t u) : MergeFrame s u := by
  obtain ⟨e1, p1⟩ := h1
  obtain ⟨e2, p2⟩ := h2
  refine ⟨?_, ?_⟩
  · rw [e2, e1]
  · rcases p2 with p2 | p2
    · rw [p2]; exact p1
    · exact .inr p2

theorem finishTree_frame (k : Nat) {s t : State} (h : MergeFrame s t) :
    MergeFrame s (finishTree k t) := by
  unfold finishTree
  split
  · have e := h.1
    exact ⟨by rw [e], .inr rfl⟩
  · exact h

theorem mergePair_frame (m1 m2 : Fin 511) (k : Nat) (hk : k < 511) (s : State) : MergeFrame s (mergePair m1 m2 k hk s) := by
  unfold mergePair
  generalize s.node.set k _ hk = nd
  generalize Vector.set (Vector.set _ m2.val false m2.isLt) k true hk = ac
  generalize s.nnodes + 1#10 = nn
  exact finishTree_frame k ⟨rfl, .inl rfl⟩

theorem error_ne_ok {e : Fault} {t : State} (h : (.error e : Except Fault State) = .ok t) : False := by cases h

theorem mergeOnce_frame {s t : State} (h : mergeOnce s = .ok t) : MergeFrame s t := by
  rcases mergeOnce_cases s with ⟨m1, m2, hk, -, -, -, -, -, e⟩ | ⟨-, e⟩ | ⟨-, e⟩
  · rw [← Except.ok.inj (e.symm.trans h)]; exact mergePair_frame _ _ _ hk s
  · exact (error_ne_ok (e.symm.trans h)).elim
  · exact (error_ne_ok (e.symm.trans h)).elim

theorem mergeLoop_zero (s : State) : mergeLoop 0 s = .ok s := rfl

theorem mergeLoop_ok {fuel : Nat} {s u : State} (hf : s.forest > 1) (h : mergeOnce s = .ok u) :
    mergeLoop (fuel + 1) s = mergeLoop fuel u := by
  rw [mergeLoop, if_pos hf, h]; rfl

theorem mergeLoop_error {fuel : Nat} {s : State} {e : Fault} (hf : s.forest > 1) (h : mergeOnce s = .error e) :
    mergeLoop (fuel + 1) s = .error e := by
  rw [mergeLoop, if_pos hf, h]; rfl

theorem mergeLoop_stop {fuel : Nat} {s : State} (hf : ¬ s.forest > 1) : mergeLoop fuel s = .ok s := by
  cases fuel with
  | zero => exact mergeLoop_zero s
  | succ n => rw [mergeLoop, if_neg hf]

theorem mergeLoop_frame {fuel : Nat} {s t : State} (h : mergeLoop fuel s = .ok t) : MergeFrame s t := by
  induction fuel generalizing s with
  | zero => exact Except.ok.inj ((mergeLoop_zero s).symm.trans h) ▸ .refl s
  | succ fuel ih =>
    by_cases hf : s.forest > 1
    · cases hm : mergeOnce s with
      | ok u => exact (mergeOnce_frame hm).trans (ih ((mergeLoop_ok hf hm).symm.trans h))
      | error e => exact (error_ne_ok ((mergeLoop_error hf hm).symm.trans h)).elim
    · exact Except.ok.inj ((mergeLoop_stop hf).symm.trans h) ▸ .refl s

/-! ## What a merge writes, field by field (R131) -/

theorem finishTree_node (k : Nat) (t : State) : (finishTree k t).node = t.node := by
  unfold finishTree; split <;> rfl

theorem finishTree_active (k : Nat) (t : State) : (finishTree k t).active = t.active := by
  unfold finishTree; split <;> rfl

theorem finishTree_nnodes (k : Nat) (t : State) : (finishTree k t).nnodes = t.nnodes := by
  unfold finishTree; split <;> rfl

theorem finishTree_forest (k : Nat) (t : State) : (finishTree k t).forest = t.forest := by
  unfold finishTree; split <;> rfl

theorem finishTree_phase (k : Nat) (t : State) : (finishTree k t).phase = if t.forest = 1 then .tree else t.phase := by
  unfold finishTree; split <;> rfl

theorem finishTree_root (k : Nat) (t : State) :
    (finishTree k t).root = if t.forest = 1 then BitVec.ofNat 9 k else t.root := by
  unfold finishTree; split <;> rfl

theorem mergePair_node (m1 m2 : Fin 511) (k : Nat) (hk : k < 511) (s : State) :
    (mergePair m1 m2 k hk s).node = s.node.set k
      (.internalOf (s.node[m1].w + s.node[m2].w) (BitVec.ofNat 9 m1.val) (BitVec.ofNat 9 m2.val)) hk := by
  rw [mergePair, finishTree_node]

theorem mergePair_active (m1 m2 : Fin 511) (k : Nat) (hk : k < 511) (s : State) :
    (mergePair m1 m2 k hk s).active =
      ((s.active.set m1.val false m1.isLt).set m2.val false m2.isLt).set k true hk := by
  rw [mergePair, finishTree_active]

theorem mergePair_nnodes (m1 m2 : Fin 511) (k : Nat) (hk : k < 511) (s : State) :
    (mergePair m1 m2 k hk s).nnodes = s.nnodes + 1#10 := by
  rw [mergePair, finishTree_nnodes]

theorem mergePair_phase (m1 m2 : Fin 511) (k : Nat) (hk : k < 511) (s : State) :
    (mergePair m1 m2 k hk s).phase = if (mergePair m1 m2 k hk s).forest = 1 then .tree else s.phase := by
  rw [mergePair, finishTree_forest, finishTree_phase]

theorem mergePair_root (m1 m2 : Fin 511) (k : Nat) (hk : k < 511) (s : State) :
    (mergePair m1 m2 k hk s).root = if (mergePair m1 m2 k hk s).forest = 1 then BitVec.ofNat 9 k else s.root := by
  rw [mergePair, finishTree_forest, finishTree_root]

/-- After a merge FOREST is one less (R135), when the new entry was no root before. -/
theorem forest_mergePair {s : State} {m1 m2 : Fin 511} {k : Nat} (hk : k < 511) (h12 : m1 ≠ m2)
    (a1 : s.active[m1] = true) (a2 : s.active[m2] = true) (ak : s.active[k] = false) :
    (mergePair m1 m2 k hk s).forest + 1 = s.forest := by
  rw [mergePair, finishTree_forest, forest_eq_length, forest_eq_length]
  have n12 : m1.val ≠ m2.val := fun e => h12 (Fin.ext e)
  have n1k : m1.val ≠ k := fun e => by subst e; rw [Fin.getElem_fin, ak] at a1; cases a1
  have n2k : m2.val ≠ k := fun e => by subst e; rw [Fin.getElem_fin, ak] at a2; cases a2
  have b2 : (s.active.set m1.val false m1.isLt)[m2] = true := by simpa [Vector.getElem_set, n12] using a2
  have bk : ((s.active.set m1.val false m1.isLt).set m2.val false m2.isLt)[(⟨k, hk⟩ : Fin 511)] = false := by
    simpa [Vector.getElem_set, n1k, n2k] using ak
  have e1 := length_activeList_set_false a1
  have e2 := length_activeList_set_false b2
  have e3 := length_activeList_set_true bk
  simp only at e3 ⊢
  omega

end Sys2Proof.Machine
end

