-- ==== Sys2Proof/Laws/Pack.lean ====
section
/-! SUPPORT. The bits of the reversed code and of the folded accumulator, and what the emit loop leaves
(spec R72, R200, R201, R203). -/

namespace Sys2Proof.Machine

/-! ## The reversed code (R200) -/

theorem revSum_lt (c : CodeWord) (L n : Nat) : revSum c L n < 2 ^ n := by
  induction n with
  | zero => simp [revSum]
  | succ n ih =>
    rw [revSum, Nat.pow_succ]
    cases c.getLsbD (L - 1 - n) <;> simp <;> omega

theorem testBit_revSum (c : CodeWord) (L n i : Nat) :
    (revSum c L n).testBit i = (decide (i < n) && c.getLsbD (L - 1 - i)) := by
  induction n with
  | zero => simp [revSum]
  | succ n ih =>
    have hlt := revSum_lt c L n
    rw [revSum, Nat.add_comm, Nat.mul_comm]
    by_cases hi : i < n
    · rw [Nat.testBit_two_pow_mul_add _ hlt, if_pos hi, ih]
      simp [hi, Nat.lt_succ_of_lt hi]
    · rw [Nat.testBit_two_pow_mul_add _ hlt, if_neg hi]
      by_cases e : i = n
      · subst e; cases c.getLsbD (L - 1 - i) <;> simp
      · have h0 : i - n ≠ 0 := by omega
        have h1 : ¬ i < n + 1 := by omega
        have hb : Nat.testBit 1 (i - n) = false := Nat.testBit_lt_two_pow (Nat.one_lt_two_pow h0)
        cases c.getLsbD (L - 1 - n) <;> simp [h1, hb]

/-- rev[i] = c[L-1-i] for i < L, and 0 above (R200). -/
theorem testBit_revCode (c : CodeWord) (L i : Nat) :
    (revCode c L).testBit i = (decide (i < L) && c.getLsbD (L - 1 - i)) := testBit_revSum c L L i

theorem revCode_lt (c : CodeWord) (L : Nat) : revCode c L < 2 ^ L := revSum_lt c L L

/-! ## The fold (R201) -/

/-- The bits of the accumulator after the fold: the waiting bits, then the code from the root branch on, then 0. -/
theorem getLsbD_foldCode (acc : Accumulator) (off : Nat) (c : CodeWord) (L j : Nat) (hacc : acc.toNat < 2 ^ off) :
    (foldCode acc off c L).getLsbD j = (decide (j < 264) &&
      (if j < off then acc.getLsbD j else decide (j - off < L) && c.getLsbD (L - 1 - (j - off)))) := by
  by_cases h264 : j < 264
  · have hz : off ≤ j → acc.getLsbD j = false := fun h =>
      Nat.testBit_lt_two_pow (lt_of_lt_of_le hacc (Nat.pow_le_pow_right (by decide) h))
    by_cases h : j < off
    · simp [foldCode, h264, h]
    · have hz := hz (by omega)
      have h1 : j - off < 264 := by omega
      rw [foldCode, BitVec.getLsbD_or, BitVec.getLsbD_shiftLeft, BitVec.getLsbD_ofNat, testBit_revCode, hz]
      simp [h264, h, h1]
  · rw [BitVec.getLsbD_of_ge _ _ (by omega)]; simp [h264]

/-- The folded accumulator has no bit at a position ≥ OFF + L (R203). -/
theorem foldCode_lt (acc : Accumulator) (off : Nat) (c : CodeWord) (L : Nat) (hacc : acc.toNat < 2 ^ off) :
    (foldCode acc off c L).toNat < 2 ^ (off + L) := by
  refine Nat.lt_pow_two_of_testBit _ fun j hj => ?_
  have := getLsbD_foldCode acc off c L j hacc
  rw [BitVec.getLsbD] at this
  rw [this, if_neg (by omega)]
  simp [show ¬ j - off < L by omega]

/-! ## The emit loop (R201) -/

/-- The loop emits o / 8 bytes, lowest first, and leaves o mod 8 bits waiting. -/
theorem drain_eq (fuel : Nat) (acc : Accumulator) (o : Nat) (h : o ≤ fuel) :
    drain fuel acc o =
      { bytes := (List.range (o / 8)).map fun k => acc.extractLsb' (8 * k) 8
        acc := acc >>> (8 * (o / 8)), off := o % 8 } := by
  induction fuel generalizing acc o with
  | zero => obtain rfl : o = 0 := by omega
            simp [drain]
  | succ fuel ih =>
    rw [drain]
    split
    · have e : o / 8 = (o - 8) / 8 + 1 := by omega
      have m : o % 8 = (o - 8) % 8 := by omega
      rw [ih (acc >>> 8) (o - 8) (by omega), e, m]
      simp only [List.range_succ_eq_map, List.map_cons, List.map_map, Drained.mk.injEq, List.cons.injEq]
      refine ⟨⟨by simp, List.map_congr_left fun k _ => ?_⟩, ?_, trivial⟩
      · ext i hi
        simp [show 8 + (8 * k + i) = 8 * (k + 1) + i by omega]
      · rw [← BitVec.shiftRight_add]
        congr 1; omega
    · have e : o / 8 = 0 := by omega
      have m : o % 8 = o := by omega
      simp [e, m]

theorem byteBits_extract (acc : Accumulator) (k : Nat) :
    byteBits (acc.extractLsb' (8 * k) 8) = (List.range 8).map fun j => acc.getLsbD (8 * k + j) := by
  refine List.map_congr_left fun j hj => ?_
  simp [List.mem_range.1 hj]

/-- The first n bytes of the accumulator are its first 8n bits (R72). -/
theorem bytesBits_extract (acc : Accumulator) (n : Nat) :
    bytesBits ((List.range n).map fun k => acc.extractLsb' (8 * k) 8) =
      (List.range (8 * n)).map fun j => acc.getLsbD j := by
  induction n with
  | zero => rfl
  | succ n ih =>
    rw [List.range_succ, List.map_append, bytesBits, List.flatMap_append]
    rw [show (List.flatMap byteBits _) = bytesBits ((List.range n).map fun k => acc.extractLsb' (8 * k) 8) from rfl, ih]
    simp only [List.map_cons, List.map_nil, List.flatMap_cons, List.flatMap_nil, List.append_nil, byteBits_extract]
    rw [show 8 * (n + 1) = 8 * n + 8 by omega, List.range_add, List.map_append, List.map_map]
    rfl

theorem bytesBits_append (as bs : List Byte) : bytesBits (as ++ bs) = bytesBits as ++ bytesBits bs :=
  List.flatMap_append

@[simp] theorem bytesBits_length (bs : List Byte) : (bytesBits bs).length = 8 * bs.length := by
  induction bs with
  | nil => rfl
  | cons b bs ih => rw [bytesBits, List.flatMap_cons, List.length_append]; unfold bytesBits at ih
                    rw [ih]; simp [byteBits]; omega

@[simp] theorem codeBits_length (c : CodeWord) (L : Nat) : (codeBits c L).length = L := by simp [codeBits]

/-- The waiting bits and then the code's bits are the bits of the folded accumulator (R201, R204). -/
theorem foldCode_bits (acc : Accumulator) (off : Nat) (c : CodeWord) (L : Nat) (hacc : acc.toNat < 2 ^ off)
    (hw : off + L ≤ 264) :
    (List.range (off + L)).map (fun j => (foldCode acc off c L).getLsbD j) =
      (List.range off).map (fun j => acc.getLsbD j) ++ codeBits c L := by
  rw [List.range_add, List.map_append, List.map_map]
  congr 1
  · refine List.map_congr_left fun j hj => ?_
    have := List.mem_range.1 hj
    rw [getLsbD_foldCode _ _ _ _ _ hacc]
    simp [show j < 264 by omega, this]
  · refine List.map_congr_left fun j hj => ?_
    have := List.mem_range.1 hj
    rw [Function.comp_apply, getLsbD_foldCode _ _ _ _ _ hacc]
    simp [show off + j < 264 by omega, this]

/-- What the fold and the emit loop of PACK leave (R201): the emitted bits and the waiting bits after are the waiting bits
before and the code's bits (R204), in a whole number of bytes. -/
theorem packDrain_eq (sym : Sym) (s : State) :
    packDrain sym s =
      let L := (symGet s.len sym).toNat
      let o := s.off.toNat + L
      let a := foldCode s.acc s.off.toNat (symGet s.code sym) L
      { bytes := (List.range (o / 8)).map fun k => a.extractLsb' (8 * k) 8
        acc := a >>> (8 * (o / 8)), off := o % 8 } :=
  drain_eq _ _ _ (Nat.le_refl _)

@[simp] theorem packDrain_bytes_length (sym : Sym) (s : State) :
    (packDrain sym s).bytes.length = (s.off.toNat + (symGet s.len sym).toNat) / 8 := by
  simp [packDrain_eq]

@[simp] theorem packDrain_off (sym : Sym) (s : State) :
    (packDrain sym s).off = (s.off.toNat + (symGet s.len sym).toNat) % 8 := by
  simp [packDrain_eq]

/-- The accumulator PACK leaves has no bit at a position ≥ the new OFF (R35, R203). -/
theorem packDrain_acc_lt (sym : Sym) (s : State) (hacc : s.acc.toNat < 2 ^ s.off.toNat) :
    (packDrain sym s).acc.toNat < 2 ^ ((s.off.toNat + (symGet s.len sym).toNat) % 8) := by
  have h := foldCode_lt s.acc s.off.toNat (symGet s.code sym) (symGet s.len sym).toNat hacc
  simp only [packDrain_eq, BitVec.toNat_ushiftRight, Nat.shiftRight_eq_div_pow]
  rw [Nat.div_lt_iff_lt_mul (Nat.two_pow_pos _), ← Nat.pow_add]
  refine lt_of_lt_of_eq h ?_
  congr 1; omega

/-- The bits of PACK (R204): the emitted bits and the bits waiting after are the bits waiting before and the code's bits. -/
theorem packDrain_bits (sym : Sym) (s : State) (hacc : s.acc.toNat < 2 ^ s.off.toNat)
    (hw : s.off.toNat + (symGet s.len sym).toNat ≤ 264) :
    bytesBits (packDrain sym s).bytes ++
        (List.range (packDrain sym s).off).map (fun j => (packDrain sym s).acc.getLsbD j) =
      s.waitingBits ++ s.codeOf sym := by
  have h := foldCode_bits s.acc s.off.toNat (symGet s.code sym) (symGet s.len sym).toNat hacc hw
  rw [State.waitingBits, State.codeOf, ← h]
  simp only [packDrain_eq, bytesBits_extract]
  generalize s.off.toNat + (symGet s.len sym).toNat = o
  have e : o = 8 * (o / 8) + o % 8 := by omega
  conv_rhs => rw [e, List.range_add, List.map_append, List.map_map]
  simp [Function.comp_def]

end Sys2Proof.Machine
end

