-- ==== Sys2Proof/Laws/Tree.lean ====
section
/-! SUPPORT. The trees of the arena: what reading one says, that fuel beyond its depth does not matter, that a write outside
it does not matter, and its counts (spec R29, R136, R164). -/

namespace Sys2Proof.Machine

/-! ## Reading a tree -/

/-- The three ways to read a tree with one more level of fuel. -/
theorem readTree_succ {node : Vector NodeEntry 511} {fuel i : Nat} {t : Tree}
    (h : readTree node (fuel + 1) i = some t) :
    ∃ (hi : i < 511),
      (node[i].kind = .leaf ∧ t = .leaf i node[i]) ∨
      (node[i].kind = .internal ∧ ∃ l r, readTree node fuel node[i].left.toNat = some l ∧
        readTree node fuel node[i].right.toNat = some r ∧ t = .node i node[i] l r) := by
  rw [readTree] at h
  split at h
  · cases h
  · rename_i e he
    obtain ⟨hi, rfl⟩ := Vector.getElem?_eq_some_iff.1 he
    refine ⟨hi, ?_⟩
    split at h
    · rename_i hk
      exact .inl ⟨hk, (Option.some.inj h).symm⟩
    · rename_i hk
      split at h
      · rename_i l r hl hr
        exact .inr ⟨hk, l, r, hl, hr, (Option.some.inj h).symm⟩
      · cases h

theorem readTree_leaf {node : Vector NodeEntry 511} {fuel i : Nat} (hi : i < 511) (h : node[i].kind = .leaf) :
    readTree node (fuel + 1) i = some (.leaf i node[i]) := by
  rw [readTree, Vector.getElem?_eq_getElem hi]
  simp only [h]

theorem readTree_node {node : Vector NodeEntry 511} {fuel i : Nat} {l r : Tree} (hi : i < 511)
    (h : node[i].kind = .internal) (hl : readTree node fuel node[i].left.toNat = some l)
    (hr : readTree node fuel node[i].right.toNat = some r) :
    readTree node (fuel + 1) i = some (.node i node[i] l r) := by
  rw [readTree, Vector.getElem?_eq_getElem hi]
  simp only [h, hl, hr]

/-- A tree read at an index starts there, with the entry that stands there. -/
theorem readTree_root {node : Vector NodeEntry 511} {fuel i : Nat} {t : Tree} (h : readTree node fuel i = some t) :
    t.idx = i ∧ ∃ hi : i < 511, t.entry = node[i] := by
  cases fuel with
  | zero => simp [readTree] at h
  | succ fuel =>
    obtain ⟨hi, ⟨-, rfl⟩ | ⟨-, l, r, -, -, rfl⟩⟩ := readTree_succ h
    · exact ⟨rfl, hi, rfl⟩
    · exact ⟨rfl, hi, rfl⟩

/-- Fuel beyond the depth is enough, and no less was. -/
theorem readTree_fuel {node : Vector NodeEntry 511} {fuel i : Nat} {t : Tree} (h : readTree node fuel i = some t) :
    t.depth < fuel ∧ ∀ g, t.depth < g → readTree node g i = some t := by
  induction fuel generalizing i t with
  | zero => simp [readTree] at h
  | succ fuel ih =>
    obtain ⟨hi, ⟨hk, rfl⟩ | ⟨hk, l, r, hl, hr, rfl⟩⟩ := readTree_succ h
    · refine ⟨by simp [Tree.depth], fun g hg => ?_⟩
      obtain ⟨g, rfl⟩ : ∃ g', g = g' + 1 := ⟨g - 1, by simp [Tree.depth] at hg; omega⟩
      exact readTree_leaf hi hk
    · obtain ⟨dl, ml⟩ := ih hl
      obtain ⟨dr, mr⟩ := ih hr
      refine ⟨by simp only [Tree.depth]; omega, fun g hg => ?_⟩
      simp only [Tree.depth] at hg
      obtain ⟨g, rfl⟩ : ∃ g', g = g' + 1 := ⟨g - 1, by omega⟩
      exact readTree_node hi hk (ml g (by omega)) (mr g (by omega))

/-- A write to an entry outside the tree does not change it (R131 writes only entry NNODES). -/
theorem readTree_set {node : Vector NodeEntry 511} {fuel i k : Nat} {t : Tree} (hk : k < 511) (e : NodeEntry)
    (h : readTree node fuel i = some t) (hn : k ∉ t.indices) : readTree (node.set k e hk) fuel i = some t := by
  induction fuel generalizing i t with
  | zero => simp [readTree] at h
  | succ fuel ih =>
    have hroot := (readTree_root h).1
    have hki : k ≠ i := by
      rintro rfl
      apply hn
      cases t <;> simp_all [Tree.indices, Tree.idx]
    obtain ⟨hi, ⟨hkind, rfl⟩ | ⟨hkind, l, r, hl, hr, rfl⟩⟩ := readTree_succ h
    all_goals have hg : (node.set k e hk)[i] = node[i] := Vector.getElem_set_ne hk hi hki
    · rw [readTree_leaf hi (by rw [hg]; exact hkind), hg]
    · simp only [Tree.indices, List.mem_cons, List.mem_append, not_or] at hn
      rw [readTree_node (l := l) (r := r) hi (by rw [hg]; exact hkind) (by rw [hg]; exact ih hl hn.2.1)
        (by rw [hg]; exact ih hr hn.2.2), hg]

/-! ## Counts -/

@[simp] theorem Tree.indices_length (t : Tree) : t.indices.length = t.size := by
  induction t with
  | leaf => rfl
  | node i e l r hl hr => simp [Tree.indices, Tree.size, hl, hr]; omega

@[simp] theorem Tree.preorder_length (t : Tree) : t.preorder.length = t.size := by
  induction t with
  | leaf => rfl
  | node i e l r hl hr => simp [Tree.preorder, Tree.size, hl, hr]; omega

/-- A full binary tree of n leaves has 2n - 1 nodes (R135). -/
theorem Tree.size_eq (t : Tree) : t.size + 1 = 2 * t.leaves.length := by
  induction t with
  | leaf => rfl
  | node i e l r hl hr => simp [Tree.leaves, Tree.size]; omega

theorem Tree.leaves_pos (t : Tree) : 0 < t.leaves.length := by
  have := t.size_eq; omega

/-- The depth of a leaf is at most the number of leaves less one (R136). -/
theorem Tree.depth_lt_leaves (t : Tree) : t.depth < t.leaves.length := by
  induction t with
  | leaf => simp [Tree.depth, Tree.leaves]
  | node i e l r hl hr =>
    have := l.leaves_pos; have := r.leaves_pos
    simp only [Tree.depth, Tree.leaves, List.length_append]; omega

theorem Tree.idx_mem_indices (t : Tree) : t.idx ∈ t.indices := by cases t <;> simp [Tree.indices, Tree.idx]

/-- The paths and the leaves list the same symbols in the same order. -/
theorem Tree.paths_map_fst (t : Tree) : t.paths.map Prod.fst = t.leaves.map Prod.fst := by
  induction t with
  | leaf => rfl
  | node i e l r hl hr =>
    simp only [Tree.paths, Tree.leaves, List.map_append, List.map_map, ← hl, ← hr]
    rfl

theorem Tree.path_length_le {t : Tree} {p : Sym × List Bool} (h : p ∈ t.paths) : p.2.length ≤ t.depth := by
  induction t generalizing p with
  | leaf => simp only [Tree.paths, List.mem_singleton] at h; subst h; simp [Tree.depth]
  | node i e l r hl hr =>
    simp only [Tree.paths, List.mem_append, List.mem_map] at h
    rcases h with ⟨q, hq, rfl⟩ | ⟨q, hq, rfl⟩
    · have := hl hq; simp only [List.length_cons, Tree.depth]; omega
    · have := hr hq; simp only [List.length_cons, Tree.depth]; omega

/-- The weight of a tree's root is the sum of its leaves' weights (R136). -/
theorem Tree.weight_eq_leafSum {t : Tree} (h : t.sumsOk = true) :
    t.entry.w.toNat = (t.leaves.map fun p => p.2.toNat).sum := by
  induction t with
  | leaf => simp [Tree.entry, Tree.leaves]
  | node i e l r hl hr =>
    simp only [Tree.sumsOk, Bool.and_eq_true, beq_iff_eq] at h
    rw [Tree.leaves, List.map_append, List.sum_append, ← hl h.1.2, ← hr h.2]
    exact h.1.1

/-! ## The leaves with their indices -/

/-- The leaves of a tree with their arena indices. -/
def Tree.leafNodes : Tree → List (Nat × NodeEntry)
  | .leaf i e => [(i, e)]
  | .node _ _ l r => l.leafNodes ++ r.leafNodes

theorem Tree.leaves_eq (t : Tree) : t.leaves = t.leafNodes.map fun p => (p.2.sym, p.2.w) := by
  induction t with
  | leaf => rfl
  | node i e l r hl hr => simp [Tree.leaves, Tree.leafNodes, hl, hr]

/-- An index of the tree whose entry is a leaf's is a leaf of the tree. -/
theorem readTree_leafNodes {node : Vector NodeEntry 511} {t : Tree} : ∀ {g i : Nat}, readTree node g i = some t →
    ∀ j (_ : j < 511), j ∈ t.indices → node[j].kind = .leaf → (j, node[j]) ∈ t.leafNodes := by
  induction t with
  | leaf k e =>
    intro g i h j hj hm hk
    cases g with
    | zero => simp [readTree] at h
    | succ g =>
      obtain ⟨hi, ⟨-, he⟩ | ⟨-, l, r, -, -, he⟩⟩ := readTree_succ h
      · cases he
        simp only [Tree.indices, List.mem_singleton] at hm
        subst hm
        simp [Tree.leafNodes]
      · cases he
  | node k e l r hl hr =>
    intro g i h j hj hm hk
    cases g with
    | zero => simp [readTree] at h
    | succ g =>
      obtain ⟨hi, ⟨-, he⟩ | ⟨hki, l', r', hl', hr', he⟩⟩ := readTree_succ h
      · cases he
      · cases he
        simp only [Tree.indices, List.mem_cons, List.mem_append] at hm
        rcases hm with rfl | hm | hm
        · rw [hki] at hk; cases hk
        · exact List.mem_append.2 (.inl (hl hl' j hj hm hk))
        · exact List.mem_append.2 (.inr (hr hr' j hj hm hk))

end Sys2Proof.Machine
end

