-- ==== Sys2Proof/Laws/Walk.lean ====
section
/-! SUPPORT. The two stack walks are the recursions they unfold: SERIALIZE's visits the tree in pre-order (spec R181), and
GENCODES's gives each leaf its path (spec R160, R161), within STACK_MAX entries of stack (spec R164). -/

namespace Sys2Proof.Machine

/-! ## SERIALIZE's walk -/

/-- With a tree on top of the stack, the walk visits the tree in pre-order and goes on with the rest of the stack. -/
theorem recordWalk_tree {node : Vector NodeEntry 511} {t : Tree} :
    ∀ {g : Nat} {i : NodeIdx} {rest : List NodeIdx} {fuel : Nat}, readTree node g i.toNat = some t →
      rest.length + t.depth + 1 ≤ Config.stackMax →
      recordWalk node (t.size + fuel) (i :: rest) = (recordWalk node fuel rest).map (t.preorder ++ ·) := by
  induction t with
  | leaf j e =>
    intro g i rest fuel h _
    obtain ⟨g, rfl⟩ : ∃ g', g = g' + 1 := by cases g with
      | zero => simp [readTree] at h
      | succ g => exact ⟨g, rfl⟩
    obtain ⟨hi, ⟨hk, he⟩ | ⟨-, l, r, -, -, he⟩⟩ := readTree_succ h
    · cases he
      rw [Tree.size, Nat.add_comm 1 fuel, recordWalk, arenaGet, Vector.getElem?_eq_getElem hi]
      simp only [hk, Tree.preorder, List.singleton_append]
    · cases he
  | node j e l r hl hr =>
    intro g i rest fuel h hs
    obtain ⟨g, rfl⟩ : ∃ g', g = g' + 1 := by cases g with
      | zero => simp [readTree] at h
      | succ g => exact ⟨g, rfl⟩
    obtain ⟨hi, ⟨-, he⟩ | ⟨hk, l', r', hl', hr', he⟩⟩ := readTree_succ h
    · cases he
    · cases he
      simp only [Tree.depth] at hs
      rw [Tree.size, show 1 + l.size + r.size + fuel = (l.size + (r.size + fuel)) + 1 by omega, recordWalk, arenaGet,
        Vector.getElem?_eq_getElem hi]
      simp only [hk]
      rw [if_pos (by omega), hl hl' (by simp only [List.length_cons]; omega), hr hr' (by omega)]
      cases recordWalk node fuel rest <;> simp [Tree.preorder]

/-- The records of a tree under ROOT are its entries in pre-order (R181, R182). -/
theorem treeEntries_eq {s : State} {t : Tree} (h : treeAt s.node s.root.toNat = some t)
    (hd : t.depth < Config.stackMax) (hs : t.size ≤ Config.nodeMax) : treeEntries s = some t.preorder := by
  rw [treeEntries, show Config.nodeMax = t.size + (Config.nodeMax - t.size) by omega, recordWalk_tree h (by simpa using hd)]
  simp [recordWalk]

/-! ## GENCODES's walk -/

/-- The code reached from code c by a path (R160): each branch is shifted in from below. -/
def pathWord (c : CodeWord) (path : List Bool) : CodeWord :=
  path.foldl (fun c b => if b then (c <<< 1) ||| 1#256 else c <<< 1) c

/-- Assigning the codes of a list of leaves, each by its path, from code c and depth d on. -/
def CodeTables.assignPaths (tb : CodeTables) (c : CodeWord) (d : Nat) (ps : List (Sym × List Bool)) : CodeTables :=
  ps.foldl (fun tb p => tb.assign p.1 (pathWord c p.2) (d + p.2.length)) tb

theorem assignPaths_append (tb : CodeTables) (c : CodeWord) (d : Nat) (ps qs : List (Sym × List Bool)) :
    tb.assignPaths c d (ps ++ qs) = (tb.assignPaths c d ps).assignPaths c d qs := List.foldl_append

theorem assignPaths_cons_map (tb : CodeTables) (c : CodeWord) (d : Nat) (b : Bool) (ps : List (Sym × List Bool)) :
    tb.assignPaths c d (ps.map fun p => (p.1, b :: p.2)) =
      tb.assignPaths (if b then (c <<< 1) ||| 1#256 else c <<< 1) (d + 1) ps := by
  unfold CodeTables.assignPaths
  rw [List.foldl_map]
  congr 1
  funext tb p
  simp only [pathWord, List.foldl_cons, List.length_cons]
  congr 1; omega

/-- With a tree on top of the stack, the walk gives each leaf the code of its path and goes on with the rest. -/
theorem codeWalk_tree {node : Vector NodeEntry 511} {t : Tree} :
    ∀ {g : Nat} {i : NodeIdx} {c : CodeWord} {d : Nat} {rest : List (NodeIdx × CodeWord × Nat)} {fuel : Nat}
      {tb : CodeTables}, readTree node g i.toNat = some t → rest.length + t.depth + 1 ≤ Config.stackMax →
      codeWalk node (t.size + fuel) ((i, c, d) :: rest) tb = codeWalk node fuel rest (tb.assignPaths c d t.paths) := by
  induction t with
  | leaf j e =>
    intro g i c d rest fuel tb h _
    obtain ⟨g, rfl⟩ : ∃ g', g = g' + 1 := by cases g with
      | zero => simp [readTree] at h
      | succ g => exact ⟨g, rfl⟩
    obtain ⟨hi, ⟨hk, he⟩ | ⟨-, l, r, -, -, he⟩⟩ := readTree_succ h
    · cases he
      rw [Tree.size, Nat.add_comm 1 fuel, codeWalk, arenaGet, Vector.getElem?_eq_getElem hi]
      simp only [hk]
      rfl
    · cases he
  | node j e l r hl hr =>
    intro g i c d rest fuel tb h hs
    obtain ⟨g, rfl⟩ : ∃ g', g = g' + 1 := by cases g with
      | zero => simp [readTree] at h
      | succ g => exact ⟨g, rfl⟩
    obtain ⟨hi, ⟨-, he⟩ | ⟨hk, l', r', hl', hr', he⟩⟩ := readTree_succ h
    · cases he
    · cases he
      simp only [Tree.depth] at hs
      rw [Tree.size, show 1 + l.size + r.size + fuel = (l.size + (r.size + fuel)) + 1 by omega, codeWalk, arenaGet,
        Vector.getElem?_eq_getElem hi]
      simp only [hk]
      rw [if_pos (by omega), hl hl' (by simp only [List.length_cons]; omega), hr hr' (by omega), Tree.paths,
        assignPaths_append, assignPaths_cons_map, assignPaths_cons_map]
      rfl

/-- What an assignment of paths leaves at a symbol outside the list: what stood there. -/
theorem assignPaths_of_not_mem {tb : CodeTables} {c : CodeWord} {d : Nat} {ps : List (Sym × List Bool)} {x : Sym}
    (h : x ∉ ps.map Prod.fst) :
    symGet (tb.assignPaths c d ps).code x = symGet tb.code x ∧
      symGet (tb.assignPaths c d ps).len x = symGet tb.len x := by
  induction ps generalizing tb with
  | nil => exact ⟨rfl, rfl⟩
  | cons p ps ih =>
    simp only [List.map_cons, List.mem_cons, not_or] at h
    obtain ⟨h1, h2⟩ := ih (tb := tb.assign p.1 (pathWord c p.2) (d + p.2.length)) h.2
    exact ⟨h1.trans (symGet_symSet_ne _ _ h.1), h2.trans (symGet_symSet_ne _ _ h.1)⟩

/-- What an assignment of paths leaves at a symbol of the list, when no symbol is in it twice: the path's code and length. -/
theorem assignPaths_of_mem {tb : CodeTables} {c : CodeWord} {d : Nat} {ps : List (Sym × List Bool)} {p : Sym × List Bool}
    (hp : p ∈ ps) (hnd : (ps.map Prod.fst).Nodup) :
    symGet (tb.assignPaths c d ps).code p.1 = pathWord c p.2 ∧
      symGet (tb.assignPaths c d ps).len p.1 = BitVec.ofNat 9 (d + p.2.length) := by
  induction ps generalizing tb with
  | nil => cases hp
  | cons q ps ih =>
    obtain ⟨hq, hnd⟩ := List.nodup_cons.1 hnd
    rcases List.mem_cons.1 hp with rfl | hp
    · obtain ⟨h1, h2⟩ := assignPaths_of_not_mem (tb := tb.assign p.1 (pathWord c p.2) (d + p.2.length)) (c := c) (d := d) hq
      exact ⟨h1.trans (by simp [CodeTables.assign]), h2.trans (by simp [CodeTables.assign])⟩
    · exact ih hp hnd

/-- Shifting a path in from below gives the number the path spells (R160). -/
theorem pathWord_zero (path : List Bool) : pathWord 0#256 path = BitVec.ofNat 256 (pathValue path) := by
  have key : ∀ (n : Nat) (path : List Bool), pathWord (BitVec.ofNat 256 n) path =
      BitVec.ofNat 256 (path.foldl (fun c b => 2 * c + b.toNat) n) := by
    intro n path
    induction path generalizing n with
    | nil => rfl
    | cons b path ih =>
      rw [List.foldl_cons, ← ih, pathWord, List.foldl_cons, ← pathWord]
      congr 1
      have e : BitVec.ofNat 256 n <<< 1 = BitVec.ofNat 256 (2 * n) := by
        apply BitVec.eq_of_toNat_eq
        simp [Nat.shiftLeft_eq, Nat.mul_comm]
      cases b
      · simpa using e
      · simp only [if_true, Bool.toNat_true, e]
        refine BitVec.eq_of_getLsbD_eq fun i hi => ?_
        rw [BitVec.getLsbD_or, BitVec.getLsbD_ofNat, BitVec.getLsbD_ofNat, BitVec.getLsbD_ofNat]
        have : 2 * n + 1 = 2 * n ||| 1 := by
          simpa using Nat.two_pow_add_eq_or_of_lt (i := 1) (b := 1) (by decide) n
        simp [this, hi]
  exact key 0 path

/-- The tables of a tree under ROOT outside the degenerate case: each leaf's path code (R161, R164). -/
theorem genTables_eq {s : State} {t : Tree} (hd : s.degen = false) (h : treeAt s.node s.root.toNat = some t)
    (hdep : t.depth < Config.stackMax) (hs : t.size ≤ Config.nodeMax) :
    genTables s = some (CodeTables.cleared.assignPaths 0#256 0 t.paths) := by
  rw [genTables, hd, show Config.nodeMax = t.size + (Config.nodeMax - t.size) by omega]
  simp only [Bool.false_eq_true, if_false]
  rw [codeWalk_tree h (by simpa using hdep), codeWalk]

end Sys2Proof.Machine
end

