-- ==== Sys2Proof/Laws/Exec.lean ====
section
/-! SUPPORT. Everything a command and a step can answer, said once (spec R233, R252, R253, R256). -/

namespace Sys2Proof.Machine

/-- Every next state a command of a state outside FAULT can answer. -/
inductive ExecNext (s : State) : Instr → State → Prop where
  | clear : ExecNext s .clear (resetBlock s)
  | fault (i : Instr) (e : ErrCode) (hnone : e ≠ .none) (hsink : e ≠ .sinkIo) : ExecNext s i (s.faultedWith e)
  | sinkError (i : Instr) (n : Nat) (bs : List Byte) (hi : i = .serialize ∨ i = .flush ∨ ∃ sym, i = .pack sym)
      (hn : n < bs.length) (ht : s.sinkTakes n) (hs : s.sinkScript[n]? = some .ioError) :
      ExecNext s i (sinkIoFault { s.delivered (bs.take n) with sinkScript := s.sinkScript.drop (n + 1) })
  | count (sym : Sym) (hp : s.phase = .count) (ht : s.total.toNat ≠ Config.totalMax) :
      ExecNext s (.count sym)
        { s with freq := symSet s.freq sym (symGet s.freq sym + 1#64), total := s.total + 1#64 }
  | setfreq (sym : Sym) (hp : s.phase = .count) (ht : setfreqTotal sym s ≤ Config.totalMax) :
      ExecNext s (.setfreq sym)
        { s with freq := symSet s.freq sym s.dataOperand, total := BitVec.ofInt 64 (setfreqTotal sym s) }
  | finit (hp : s.phase = .count) (hn : s.nsym ≠ 0) :
      ExecNext s .finit { s with
        node := finitArena s.freq
        active := arenaTable fun i => decide (i < s.nsym)
        code := Vector.replicate 256 0#256
        len := Vector.replicate 256 0#9
        nnodes := BitVec.ofNat 10 s.nsym
        root := 0#9
        degen := degenFlag s.nsym
        phase := if s.nsym = 1 then .tree else .merge }
  | merge (t : State) (hp : s.phase = .merge) (h : mergeOnce s = .ok t) : ExecNext s .merge t
  | build (t : State) (hp : s.phase = .merge) (h : mergeLoop s.forest s = .ok t) : ExecNext s .build t
  | buildTree (hp : s.phase = .tree) : ExecNext s .build s
  | gencodes (tb : CodeTables) (hp : s.phase = .tree) (h : genTables s = some tb) :
      ExecNext s .gencodes { s with code := tb.code, len := tb.len, phase := .coded }
  | serialize (es : List NodeEntry) (hp : s.phase = .coded) (h : treeEntries s = some es)
      (ht : s.sinkTakes (serialBytes es).length) :
      ExecNext s .serialize { s.delivered (serialBytes es) with trunc := truncFlag es, phase := .pack }
  | pack (sym : Sym) (hp : s.phase = .pack) (hl : symGet s.len sym ≠ 0#9)
      (ht : s.sinkTakes (packDrain sym s).bytes.length) :
      ExecNext s (.pack sym) { s.delivered (packDrain sym s).bytes with
        acc := (packDrain sym s).acc, off := BitVec.ofNat 9 (packDrain sym s).off }
  | flush (hp : s.phase = .pack) (ht : s.sinkTakes (flushBytes s).length) :
      ExecNext s .flush { s.delivered (flushBytes s) with acc := 0#264, off := 0#9, phase := .done }

/-- A gated command that answers a next state outside FAULT either raised SEQUENCE or ran its rule in an accepted phase. -/
theorem gated_next {i : Instr} {body : State → Result} {s t : State} (hp : s.phase ≠ .fault)
    (h : gated i body s = .next t) :
    t = s.faultedWith .sequence ∨ (accepts i s.phase = true ∧ body s = .next t) := by
  rcases gated_cases i body s with ⟨h1, -⟩ | ⟨-, -, e⟩ | ⟨-, ha, e⟩
  · exact absurd h1 hp
  · rw [e] at h; cases h; exact .inl rfl
  · exact .inr ⟨ha, e ▸ h⟩

theorem raiseFault_eq {s : State} (h : s.phase ≠ .fault) (e : ErrCode) : raiseFault e s = s.faultedWith e :=
  raiseFault_of_ne h e

/-- Everything a command can answer as a next state, outside FAULT. -/
theorem exec_next {i : Instr} {s t : State} (hp : s.phase ≠ .fault) (h : exec i s = .next t) : ExecNext s i t := by
  have seq : ∀ j : Instr, t = s.faultedWith .sequence → ExecNext s j t := fun j e => e ▸ .fault j _ (by simp) (by simp)
  cases i with
  | clear => cases h; exact .clear
  | count sym =>
    rcases gated_next hp h with e | ⟨ha, hb⟩
    · exact seq _ e
    · unfold countBody at hb
      split at hb <;> cases hb
      · rw [raiseFault_eq hp]; exact .fault _ _ (by simp) (by simp)
      · exact .count sym (by simpa [accepts] using ha) ‹_›
  | setfreq sym =>
    rcases gated_next hp h with e | ⟨ha, hb⟩
    · exact seq _ e
    · unfold setfreqBody at hb
      split at hb <;> cases hb
      · rw [raiseFault_eq hp]; exact .fault _ _ (by simp) (by simp)
      · exact .setfreq sym (by simpa [accepts] using ha) (by omega)
  | finit =>
    rcases gated_next hp h with e | ⟨ha, hb⟩
    · exact seq _ e
    · unfold finitBody at hb
      simp only at hb
      split at hb <;> cases hb
      · rw [raiseFault_eq hp]; exact .fault _ _ (by simp) (by simp)
      · exact .finit (by simpa [accepts] using ha) ‹_›
  | merge =>
    rcases gated_next hp h with e | ⟨ha, hb⟩
    · exact seq _ e
    · unfold mergeBody at hb
      cases hm : mergeOnce s with
      | ok u => rw [hm] at hb; cases hb; exact .merge t (by simpa [accepts] using ha) hm
      | error e => rw [hm] at hb; cases hb
  | build =>
    rcases gated_next hp h with e | ⟨ha, hb⟩
    · exact seq _ e
    · unfold buildBody at hb
      split at hb
      · cases hm : mergeLoop s.forest s with
        | ok u => rw [hm] at hb; cases hb; exact .build t ‹_› hm
        | error e => rw [hm] at hb; cases hb
      · rename_i hm
        have ha' : s.phase = .merge ∨ s.phase = .tree := by simpa [accepts] using ha
        cases hb; exact .buildTree (ha'.resolve_left hm)
  | gencodes =>
    rcases gated_next hp h with e | ⟨ha, hb⟩
    · exact seq _ e
    · unfold gencodesBody at hb
      split at hb <;> cases hb
      exact .gencodes _ (by simpa [accepts] using ha) ‹_›
  | serialize =>
    rcases gated_next hp h with e | ⟨ha, hb⟩
    · exact seq _ e
    · unfold serializeBody at hb
      split at hb
      · rename_i es he
        rcases emitThen_cases (serialBytes es) (fun t => { t with trunc := truncFlag es, phase := .pack }) s with
          ⟨e, ht⟩ | ⟨n, hn, h1, h2, e⟩ | ⟨n, hn, h1, h2, e⟩
        all_goals rw [e] at hb; cases hb
        · exact .serialize es (by simpa [accepts] using ha) he ht
        · exact .sinkError _ n _ (.inl rfl) hn h1 h2
      · cases hb
  | pack sym =>
    rcases gated_next hp h with e | ⟨ha, hb⟩
    · exact seq _ e
    · unfold packBody at hb
      split at hb
      · cases hb; rw [raiseFault_eq hp]; exact .fault _ _ (by simp) (by simp)
      · rename_i hl
        simp only at hb
        rcases emitThen_cases (packDrain sym s).bytes
            (fun t => { t with acc := (packDrain sym s).acc, off := BitVec.ofNat 9 (packDrain sym s).off }) s with
          ⟨e, ht⟩ | ⟨n, hn, h1, h2, e⟩ | ⟨n, hn, h1, h2, e⟩
        all_goals rw [e] at hb; cases hb
        · exact .pack sym (by simpa [accepts] using ha) hl ht
        · exact .sinkError _ n _ (.inr (.inr ⟨sym, rfl⟩)) hn h1 h2
  | flush =>
    rcases gated_next hp h with e | ⟨ha, hb⟩
    · exact seq _ e
    · unfold flushBody at hb
      rcases emitThen_cases (flushBytes s) (fun t => { t with acc := 0#264, off := 0#9, phase := .done }) s with
        ⟨e, ht⟩ | ⟨n, hn, h1, h2, e⟩ | ⟨n, hn, h1, h2, e⟩
      all_goals rw [e] at hb; cases hb
      · exact .flush (by simpa [accepts] using ha) ht
      · exact .sinkError _ n _ (.inr (.inl rfl)) hn h1 h2

/-- In FAULT every command but CLEAR changes nothing (R254). -/
theorem exec_in_fault {i : Instr} {s : State} (hp : s.phase = .fault) :
    exec i s = if i = .clear then .next (resetBlock s) else .next s := by
  cases i <;> simp [exec, execClear, execCount, execSetfreq, execFinit, execMerge, execBuild, execGencodes,
    execSerialize, execPack, execFlush, gated, hp]

/-- A command outside the phases that accept it raises SEQUENCE (R233). -/
theorem exec_sequence {i : Instr} {s : State} (hp : s.phase ≠ .fault) (ha : accepts i s.phase = false) :
    exec i s = .next (s.faultedWith .sequence) := by
  have key : ∀ body, gated i body s = .next (s.faultedWith .sequence) := fun body => by
    unfold gated; rw [if_neg hp, ha]; simp [raiseFault_eq hp]
  cases i with
  | clear => simp [accepts] at ha
  | count | setfreq | finit | merge | build | gencodes | serialize | pack | flush => exact key _

/-- The four branches of OnCmdWrite (R233). -/
theorem onCmdWrite_cases (v : Word32) (s : State) :
    (s.phase = .fault ∧ v = 0x00000001#32 ∧ onCmdWrite v s = .next (resetBlock s)) ∨
    (s.phase = .fault ∧ v ≠ 0x00000001#32 ∧ onCmdWrite v s = .next s) ∨
    (s.phase ≠ .fault ∧ (∃ e, decode v = .error e) ∧ onCmdWrite v s = .next (s.faultedWith .illegalCmd)) ∨
    (s.phase ≠ .fault ∧ ∃ i, decode v = .ok i ∧ onCmdWrite v s = exec i s) := by
  unfold onCmdWrite
  by_cases hp : s.phase = .fault
  · rw [if_pos hp]
    by_cases hv : v = 0x00000001#32
    · rw [if_pos hv]; exact .inl ⟨hp, hv, rfl⟩
    · rw [if_neg hv]; exact .inr (.inl ⟨hp, hv, rfl⟩)
  · rw [if_neg hp]
    cases hd : decode v with
    | error e => exact .inr (.inr (.inl ⟨hp, ⟨e, rfl⟩, by rw [raiseFault_eq hp]⟩))
    | ok i => exact .inr (.inr (.inr ⟨hp, i, rfl, rfl⟩))

/-- Everything a step can answer as a next state: by the access it performs (R74, R231, R232, R260). -/
theorem step_next {s t : State} (h : step s = .next t) :
    (s.hostQueue = [] ∧ t = s) ∨
    ∃ rest, (s.hostQueue = .reset :: rest ∧ t = resetBlock { s with hostQueue := rest }) ∨
      (∃ off, s.hostQueue = .read off 32 :: rest ∧ off.toNat % 4 = 0 ∧
        t = { s with hostQueue := rest, readLog := s.readLog ++ [mmioRead off { s with hostQueue := rest }] }) ∨
      (∃ v, s.hostQueue = .write 0x0000#16 32 v :: rest ∧ onCmdWrite v { s with hostQueue := rest } = .next t) ∨
      (∃ v, s.hostQueue = .write 0x0008#16 32 v :: rest ∧ t = { s with hostQueue := rest, dataLo := v }) ∨
      (∃ v, s.hostQueue = .write 0x000C#16 32 v :: rest ∧ t = { s with hostQueue := rest, dataHi := v }) ∨
      (∃ off v, s.hostQueue = .write off 32 v :: rest ∧ off ≠ 0x0000#16 ∧ t = { s with hostQueue := rest }) := by
  unfold step performNext at h
  split at h
  · rename_i hq; cases h; exact .inl ⟨hq, rfl⟩
  · rename_i a rest hq
    refine .inr ⟨rest, ?_⟩
    cases a with
    | reset => cases h; exact .inl ⟨hq, rfl⟩
    | read off width =>
      simp only [hostAccess, checkedAccess] at h
      split at h
      · cases h
      · rename_i hw
        split at h
        · cases h
        · rename_i ho
          cases h
          obtain rfl : width = 32 := by omega
          exact .inr (.inl ⟨off, hq, by omega, rfl⟩)
    | write off width v =>
      simp only [hostAccess, checkedAccess] at h
      split at h
      · cases h
      · rename_i hw
        obtain rfl : width = 32 := by omega
        split at h
        · cases h
        · unfold mmioWrite at h
          split at h
          · rename_i e; subst e; exact .inr (.inr (.inl ⟨v, hq, h⟩))
          · rename_i h0
            split at h
            · rename_i e; subst e; cases h; exact .inr (.inr (.inr (.inl ⟨v, hq, rfl⟩)))
            · split at h
              · rename_i e; subst e; cases h; exact .inr (.inr (.inr (.inr (.inl ⟨v, hq, rfl⟩))))
              · cases h; exact .inr (.inr (.inr (.inr (.inr ⟨off, v, hq, h0, rfl⟩))))

/-- A pending write to CMD is one OnCmdWrite (R231, R233). -/
theorem step_write_cmd {s : State} {rest : List HostAccess} {v : Word32}
    (h : s.hostQueue = .write 0x0000#16 32 v :: rest) : step s = onCmdWrite v { s with hostQueue := rest } := by
  simp [step, performNext, h, hostAccess, checkedAccess, mmioWrite]

end Sys2Proof.Machine
end

