-- ==== Sys2Proof/Laws/Forest.lean ====
section
/-! SUPPORT. The forest in the arena: its counts and weights, that FINIT loads one, and that a merge keeps it
(spec R40, R131, R132, R135, R136). -/

namespace Sys2Proof.Machine

/-! ## The frequency mapping (R26) -/

theorem mapping_eq (s : State) :
    s.mapping = (symbols.filter fun x => symGet s.freq x != 0#64).map fun x => (x, symGet s.freq x) := by
  rw [State.mapping, toList_eq_map_symbols]
  generalize symbols = l
  induction l with
  | nil => rfl
  | cons x l ih =>
    rw [List.map_cons, List.zip_cons_cons, List.filter_cons, List.filter_cons, ih]
    split <;> rfl

@[simp] theorem mapping_length (s : State) : s.mapping.length = s.nsym := by
  rw [nsym_eq]; simp [mapping_eq]

theorem mapping_map_fst (s : State) : s.mapping.map Prod.fst = symbols.filter fun x => symGet s.freq x != 0#64 := by
  simp [mapping_eq, Function.comp_def]

theorem mapping_nodup (s : State) : (s.mapping.map Prod.fst).Nodup := by
  rw [mapping_map_fst]; exact symbols_nodup.filter _

theorem mem_mapping {s : State} {p : Sym × Weight} : p ∈ s.mapping ↔ symGet s.freq p.1 ≠ 0#64 ∧ p.2 = symGet s.freq p.1 := by
  simp only [mapping_eq, List.mem_map, List.mem_filter, mem_symbols, true_and, bne_iff_ne]
  constructor
  · rintro ⟨x, hx, rfl⟩; exact ⟨hx, rfl⟩
  · rintro ⟨h1, h2⟩; exact ⟨p.1, h1, Prod.ext rfl h2.symm⟩

theorem mem_mapping_fst {s : State} {x : Sym} : x ∈ s.mapping.map Prod.fst ↔ symGet s.freq x ≠ 0#64 := by
  rw [mapping_map_fst]; simp

/-- The weights of the mapping add up to Σ FREQ. -/
theorem mapping_sum (s : State) : (s.mapping.map fun p => p.2.toNat).sum = (s.freq.toList.map BitVec.toNat).sum := by
  rw [toList_eq_map_symbols, List.map_map, mapping_eq, List.map_map]
  generalize symbols = l
  induction l with
  | nil => rfl
  | cons x l ih =>
    by_cases h : symGet s.freq x = 0#64
    · simpa [h] using ih
    · simpa [h] using ih

/-- FINIT's leaves are the mapping's entries (R132). -/
theorem leafEntries_eq (s : State) : leafEntries s.freq = s.mapping.map fun p => .leafOf p.1 p.2 := by
  rw [leafEntries, State.mapping]
  generalize symbols.zip s.freq.toList = l
  induction l with
  | nil => rfl
  | cons p l ih =>
    by_cases h : p.2 = 0#64
    · simpa [h] using ih
    · simpa [h] using ih

/-- What FINIT leaves in the arena (R132). -/
theorem finitArena_getElem (s : State) (i : Nat) (h : i < 511) :
    (finitArena s.freq)[i] =
      if hi : i < s.mapping.length then .leafOf s.mapping[i].1 s.mapping[i].2 else .zero := by
  rw [finitArena, getElem_arenaTable, leafEntries_eq]
  split
  · rename_i hi
    simp [List.getD_eq_getElem?_getD, List.getElem?_map, List.getElem?_eq_getElem hi]
  · rename_i hi
    rw [List.getD_eq_getElem?_getD, List.getElem?_map, List.getElem?_eq_none (by simpa using hi)]
    rfl

/-! ## Counts and weights of a forest (R135, R136) -/

theorem HoldsForest.perm {s : State} {ts us : List Tree} (h : HoldsForest s ts) (p : us.Perm ts) : HoldsForest s us where
  read t ht := h.read t (p.mem_iff.1 ht)
  roots := (p.map _).trans h.roots
  cover := (p.flatMap_right _).trans h.cover
  leaves := (p.flatMap_right _).trans h.leaves
  sums t ht := h.sums t (p.mem_iff.1 ht)
  below t ht := h.below t (p.mem_iff.1 ht)
  unused := h.unused
  leafPart := h.leafPart

/-- A forest lives in NODE, NNODES, ACTIVE and FREQ only. -/
theorem HoldsForest.congr {s t : State} {ts : List Tree} (h : HoldsForest s ts) (hn : t.node = s.node)
    (hk : t.nnodes = s.nnodes) (ha : t.active = s.active) (hf : t.freq = s.freq) : HoldsForest t ts := by
  have hm : t.mapping = s.mapping := by simp [State.mapping, hf]
  exact {
    read := hn ▸ h.read, roots := ha ▸ h.roots, cover := hk ▸ h.cover, leaves := hm ▸ h.leaves
    sums := h.sums, below := h.below, unused := hn ▸ hk ▸ h.unused
    leafPart := fun i hi h' => by
      have := h.leafPart i (hm ▸ hi) h'
      simp only [hn, hm]; exact this }

theorem HoldsForest.forest_eq {s : State} {ts : List Tree} (h : HoldsForest s ts) : s.forest = ts.length := by
  have := h.roots.length_eq
  rw [List.length_map, List.length_map] at this
  rw [forest_eq_length, this]

theorem flatMap_counts (ts : List Tree) :
    (ts.flatMap Tree.indices).length + ts.length = 2 * (ts.flatMap Tree.leaves).length ∧
      ts.length ≤ (ts.flatMap Tree.leaves).length := by
  induction ts with
  | nil => simp
  | cons t ts ih =>
    have := t.size_eq
    simp only [List.flatMap_cons, List.length_append, List.length_cons, Tree.indices_length]
    omega

/-- NNODES = NSYM + (NSYM - FOREST), and FOREST ≤ NSYM (R40 I3). -/
theorem HoldsForest.counts {s : State} {ts : List Tree} (h : HoldsForest s ts) :
    s.nnodes.toNat + ts.length = 2 * s.nsym ∧ ts.length ≤ s.nsym := by
  have h1 := h.cover.length_eq
  have h2 := h.leaves.length_eq
  have h3 := flatMap_counts ts
  simp only [List.length_range, mapping_length] at h1 h2
  omega

theorem flatMap_weight {ts : List Tree} (h : ∀ t ∈ ts, t.sumsOk = true) :
    (ts.map fun t => t.entry.w.toNat).sum = ((ts.flatMap Tree.leaves).map fun p => p.2.toNat).sum := by
  induction ts with
  | nil => rfl
  | cons t ts ih =>
    rw [List.map_cons, List.sum_cons, List.flatMap_cons, List.map_append, List.sum_append,
      ih fun u hu => h u (List.mem_cons_of_mem _ hu), Tree.weight_eq_leafSum (h t List.mem_cons_self)]

/-- The roots weigh Σ FREQ together (R40 I2). -/
theorem HoldsForest.weight {s : State} {ts : List Tree} (h : HoldsForest s ts) :
    (ts.map fun t => t.entry.w.toNat).sum = (s.freq.toList.map BitVec.toNat).sum := by
  rw [flatMap_weight h.sums, ← mapping_sum]
  exact (h.leaves.map _).sum_eq

theorem HoldsForest.leaf_syms_nodup {s : State} {ts : List Tree} (h : HoldsForest s ts) :
    ((ts.flatMap Tree.leaves).map Prod.fst).Nodup := (h.leaves.map _).nodup_iff.2 (mapping_nodup s)

theorem HoldsForest.indices_nodup {s : State} {ts : List Tree} (h : HoldsForest s ts) :
    (ts.flatMap Tree.indices).Nodup := h.cover.nodup_iff.2 List.nodup_range

theorem HoldsForest.index_lt {s : State} {ts : List Tree} (h : HoldsForest s ts) {t : Tree} (ht : t ∈ ts) {i : Nat}
    (hi : i ∈ t.indices) : i < s.nnodes.toNat :=
  List.mem_range.1 (h.cover.mem_iff.1 (List.mem_flatMap.2 ⟨t, ht, hi⟩))

theorem HoldsForest.depth_lt {s : State} {ts : List Tree} (h : HoldsForest s ts) {t : Tree} (ht : t ∈ ts) :
    t.depth < s.nsym ∧ s.nsym ≤ 256 := by
  refine ⟨lt_of_lt_of_le t.depth_lt_leaves ?_, nsym_le s⟩
  rw [← mapping_length, ← h.leaves.length_eq]
  obtain ⟨as, bs, rfl⟩ := List.append_of_mem ht
  simp only [List.flatMap_append, List.flatMap_cons, List.length_append]
  omega

theorem HoldsForest.size_le {s : State} {ts : List Tree} (h : HoldsForest s ts) {t : Tree} (ht : t ∈ ts) :
    t.size ≤ s.nnodes.toNat := by
  have := h.cover.length_eq
  obtain ⟨as, bs, rfl⟩ := List.append_of_mem ht
  simp only [List.flatMap_append, List.flatMap_cons, List.length_append, List.length_range, Tree.indices_length] at this
  omega

/-- An active entry is the root of exactly one tree of the forest. -/
theorem HoldsForest.root_of_active {s : State} {ts : List Tree} (h : HoldsForest s ts) {i : Fin 511} :
    s.active[i] = true ↔ ∃ t ∈ ts, t.idx = i.val := by
  rw [← mem_activeList]
  have := h.roots.mem_iff (a := i.val)
  rw [List.mem_map, List.mem_map] at this
  constructor
  · intro hi; exact this.2 ⟨i, hi, rfl⟩
  · intro ht
    obtain ⟨j, hj, e⟩ := this.1 ht
    rwa [← Fin.ext e]

theorem HoldsForest.roots_nodup {s : State} {ts : List Tree} (h : HoldsForest s ts) : (ts.map Tree.idx).Nodup :=
  h.roots.nodup_iff.2 ((activeList_nodup _).map Fin.val_injective)

theorem HoldsForest.entry_eq {s : State} {ts : List Tree} (h : HoldsForest s ts) {t : Tree} (ht : t ∈ ts) :
    ∃ hi : t.idx < 511, t.entry = s.node[t.idx] := (readTree_root (h.read t ht)).2

/-- The entry a merge creates was no root before. -/
theorem HoldsForest.next_inactive {s : State} {ts : List Tree} (h : HoldsForest s ts) (hk : s.nnodes.toNat < 511) :
    s.active[s.nnodes.toNat] = false := by
  by_contra hc
  have hc : s.active[(⟨s.nnodes.toNat, hk⟩ : Fin 511)] = true := by simpa using hc
  obtain ⟨t, ht, e⟩ := h.root_of_active.1 hc
  have := h.index_lt ht (e ▸ t.idx_mem_indices)
  simp at this

/-! ## FINIT loads a forest of leaves (R132) -/

/-- The one-leaf trees of the mapping, at the indices 0, 1, … -/
def leafTrees (l : List (Sym × Weight)) : List Tree := l.mapIdx fun i p => .leaf i (.leafOf p.1 p.2)

theorem leafTrees_indices (l : List (Sym × Weight)) : (leafTrees l).flatMap Tree.indices = List.range l.length := by
  unfold leafTrees
  induction l using List.reverseRecOn with
  | nil => rfl
  | append_singleton l p ih => simp [List.mapIdx_append, ih, Tree.indices, List.range_succ]

theorem leafTrees_leaves (l : List (Sym × Weight)) : (leafTrees l).flatMap Tree.leaves = l := by
  unfold leafTrees
  induction l using List.reverseRecOn with
  | nil => rfl
  | append_singleton l p ih => rw [List.mapIdx_append, List.flatMap_append, ih]; rfl

theorem holdsForest_finit {s : State} (t : State) (hn : t.node = finitArena s.freq) (hk : t.nnodes = BitVec.ofNat 10 s.nsym)
    (ha : t.active = arenaTable fun i => decide (i < s.nsym)) (hf : t.freq = s.freq) :
    HoldsForest t (leafTrees s.mapping) := by
  have hm : t.mapping = s.mapping := by simp [State.mapping, hf]
  have hle := nsym_le s
  have hk' : t.nnodes.toNat = s.nsym := by rw [hk, BitVec.toNat_ofNat, Nat.mod_eq_of_lt (by omega)]
  have hidx : (leafTrees s.mapping).map Tree.idx = List.range s.nsym := by
    refine List.ext_getElem (by simp [leafTrees]) fun i h1 h2 => ?_
    simp [leafTrees, Tree.idx]
  have hnode : ∀ i (hi : i < s.mapping.length) (h : i < 511),
      t.node[i] = .leafOf s.mapping[i].1 s.mapping[i].2 := fun i hi h => by
    simp only [hn, finitArena_getElem, hi, dite_true]
  refine { read := ?_, roots := ?_, cover := ?_, leaves := ?_, sums := ?_, below := ?_, unused := ?_, leafPart := ?_ }
  · intro u hu
    obtain ⟨i, hi, rfl⟩ := List.mem_iff_getElem.1 hu
    have hi' : i < s.mapping.length := by simpa [leafTrees] using hi
    have h511 : i < 511 := by rw [mapping_length] at hi'; omega
    simp only [leafTrees, List.getElem_mapIdx, Tree.idx, treeAt, Config.nodeMax]
    rw [readTree_leaf (fuel := 510) h511 (by rw [hnode i hi' h511]; rfl), hnode i hi' h511]
  · rw [hidx, ha]
    refine (List.perm_ext_iff_of_nodup List.nodup_range ((activeList_nodup _).map Fin.val_injective)).2 fun i => ?_
    simp only [List.mem_range, List.mem_map, mem_activeList, Fin.getElem_fin, getElem_arenaTable, decide_eq_true_eq]
    constructor
    · intro h; exact ⟨⟨i, by omega⟩, h, rfl⟩
    · rintro ⟨j, hj, rfl⟩; exact hj
  · rw [hk', leafTrees_indices, mapping_length]
  · rw [hm, leafTrees_leaves]
  · intro u hu
    obtain ⟨i, hi, rfl⟩ := List.mem_iff_getElem.1 hu
    simp [leafTrees, Tree.sumsOk]
  · intro u hu
    obtain ⟨i, hi, rfl⟩ := List.mem_iff_getElem.1 hu
    simp [leafTrees, Tree.childrenBelow]
  · intro i h hi
    have : ¬ i < s.mapping.length := by rw [mapping_length]; omega
    simp only [hn, finitArena_getElem, this, dite_false]
  · intro i hi h'
    simp only [hm] at hi ⊢
    exact hnode i hi h'

/-! ## A merge keeps a forest (R131, R135) -/

/-- After a merge of the roots m1 and m2, a new tree stands at entry NNODES, with their trees as its children. -/
theorem holdsForest_merge {s t : State} {ts : List Tree} (h : HoldsForest s ts) (htot : TotalInv s) {m1 m2 : Fin 511}
    (h12 : m1 ≠ m2) (a1 : s.active[m1] = true) (a2 : s.active[m2] = true) (hk : s.nnodes.toNat < 511)
    (hn : t.node = s.node.set s.nnodes.toNat
      (.internalOf (s.node[m1].w + s.node[m2].w) (BitVec.ofNat 9 m1.val) (BitVec.ofNat 9 m2.val)) hk)
    (ha : t.active = ((s.active.set m1.val false m1.isLt).set m2.val false m2.isLt).set s.nnodes.toNat true hk)
    (hkt : t.nnodes = s.nnodes + 1#10) (hf : t.freq = s.freq) :
    ∃ t1 t2 rest, ts.Perm (t1 :: t2 :: rest) ∧ t1.idx = m1.val ∧ t2.idx = m2.val ∧
      s.node[m1].w.toNat + s.node[m2].w.toNat ≤ 2 ^ 64 - 1 ∧
      HoldsForest t (.node s.nnodes.toNat
        (.internalOf (s.node[m1].w + s.node[m2].w) (BitVec.ofNat 9 m1.val) (BitVec.ofNat 9 m2.val)) t1 t2 :: rest) := by
  obtain ⟨t1, ht1, e1⟩ := h.root_of_active.1 a1
  obtain ⟨t2, ht2, e2⟩ := h.root_of_active.1 a2
  have hne : t2 ≠ t1 := fun e => h12 (Fin.ext (by rw [← e1, ← e2, e]))
  have hp : ts.Perm (t1 :: t2 :: (ts.erase t1).erase t2) :=
    (List.perm_cons_erase ht1).trans ((List.perm_cons_erase ((List.mem_erase_of_ne hne).2 ht2)).cons _)
  generalize (ts.erase t1).erase t2 = rest at hp
  have g := h.perm hp.symm
  have m1w : t1.entry.w = s.node[m1].w := by
    obtain ⟨hi, e⟩ := g.entry_eq (t := t1) (by simp)
    rw [e]; simp only [e1, Fin.getElem_fin]
  have m2w : t2.entry.w = s.node[m2].w := by
    obtain ⟨hi, e⟩ := g.entry_eq (t := t2) (by simp)
    rw [e]; simp only [e2, Fin.getElem_fin]
  have hsum : s.node[m1].w.toNat + s.node[m2].w.toNat ≤ 2 ^ 64 - 1 := by
    have hw := g.weight
    rw [← htot] at hw
    simp only [List.map_cons, List.sum_cons, m1w, m2w] at hw
    have := s.total.isLt
    omega
  have hm : t.mapping = s.mapping := by simp [State.mapping, hf]
  have hc := g.counts
  have hkt' : t.nnodes.toNat = s.nnodes.toNat + 1 := by
    rw [hkt, BitVec.toNat_add, BitVec.toNat_ofNat]; omega
  have hset : ∀ u ∈ t1 :: t2 :: rest, treeAt t.node u.idx = some u := fun u hu => by
    rw [hn]
    exact readTree_set hk _ (g.read u hu) fun hi => absurd (g.index_lt hu hi) (Nat.lt_irrefl _)
  have hget : ∀ i (hi : i < 511), i ≠ s.nnodes.toNat → t.node[i] = s.node[i] := fun i hi hne => by
    simp only [hn]; exact Vector.getElem_set_ne hk hi hne.symm
  refine ⟨t1, t2, rest, hp, e1, e2, hsum, ?_⟩
  refine { read := ?_, roots := ?_, cover := ?_, leaves := ?_, sums := ?_, below := ?_, unused := ?_, leafPart := ?_ }
  · intro u hu
    rcases List.mem_cons.1 hu with rfl | hu
    · have hkk : t.node[s.nnodes.toNat] = .internalOf (s.node[m1].w + s.node[m2].w) (BitVec.ofNat 9 m1.val)
          (BitVec.ofNat 9 m2.val) := by simp [hn]
      have d1 := g.depth_lt (t := t1) (by simp)
      have d2 := g.depth_lt (t := t2) (by simp)
      have r1 := (readTree_fuel (hset t1 (by simp))).2 510 (by omega)
      have r2 := (readTree_fuel (hset t2 (by simp))).2 510 (by omega)
      rw [e1] at r1; rw [e2] at r2
      have b1 : (BitVec.ofNat 9 m1.val).toNat = m1.val := by
        rw [BitVec.toNat_ofNat, Nat.mod_eq_of_lt (by omega)]
      have b2 : (BitVec.ofNat 9 m2.val).toNat = m2.val := by
        rw [BitVec.toNat_ofNat, Nat.mod_eq_of_lt (by omega)]
      have := readTree_node (fuel := 510) (node := t.node) (l := t1) (r := t2) hk (by rw [hkk]; rfl)
        (by rw [hkk]; simpa only [NodeEntry.internalOf, b1] using r1)
        (by rw [hkk]; simpa only [NodeEntry.internalOf, b2] using r2)
      rw [hkk] at this
      exact this
    · exact hset u (by simp [hu])
  · have nd := g.roots_nodup
    simp only [List.map_cons, List.nodup_cons, e1, e2, List.mem_cons, not_or] at nd
    refine (List.perm_ext_iff_of_nodup ?_ ((activeList_nodup _).map Fin.val_injective)).2 fun i => ?_
    · simp only [List.map_cons, Tree.idx, List.nodup_cons]
      refine ⟨fun hi => ?_, nd.2.2⟩
      obtain ⟨u, hu, e⟩ := List.mem_map.1 hi
      exact absurd (g.index_lt (t := u) (by simp [hu]) (e ▸ u.idx_mem_indices)) (Nat.lt_irrefl _)
    · have hact : ∀ j : Fin 511, t.active[j] = true ↔
          j.val = s.nnodes.toNat ∨ (s.active[j] = true ∧ j ≠ m1 ∧ j ≠ m2) := fun j => by
        simp only [ha, Fin.getElem_fin, Vector.getElem_set]
        by_cases jk : s.nnodes.toNat = j.val
        · simp [jk]
        · by_cases j2 : m2.val = j.val
          · have : j = m2 := Fin.ext j2.symm
            have jk' : ¬ m2.val = s.nnodes.toNat := fun e => jk (by omega)
            simp [this, jk', Ne.symm jk']
          · by_cases j1 : m1.val = j.val
            · have : j = m1 := Fin.ext j1.symm
              simp [jk, j2, j1, this, Ne.symm jk]
            · have n1 : j ≠ m1 := fun e => j1 (by rw [e])
              have n2 : j ≠ m2 := fun e => j2 (by rw [e])
              simp [jk, j2, j1, n1, n2, Ne.symm jk]
      simp only [List.map_cons, Tree.idx, List.mem_cons, List.mem_map, mem_activeList, hact]
      constructor
      · rintro (rfl | ⟨u, hu, rfl⟩)
        · exact ⟨⟨_, hk⟩, .inl rfl, rfl⟩
        · have hu' : u ∈ t1 :: t2 :: rest := by simp [hu]
          obtain ⟨hi, -⟩ := g.entry_eq hu'
          refine ⟨⟨u.idx, hi⟩, .inr ⟨g.root_of_active.2 ⟨u, hu', rfl⟩, fun e => ?_, fun e => ?_⟩, rfl⟩
          · exact nd.1.2 (by rw [← e]; exact List.mem_map.2 ⟨u, hu, rfl⟩)
          · exact nd.2.1 (by rw [← e]; exact List.mem_map.2 ⟨u, hu, rfl⟩)
      · rintro ⟨j, hj | ⟨hj, j1, j2⟩, rfl⟩
        · exact .inl hj
        · obtain ⟨u, hu, e⟩ := g.root_of_active.1 hj
          simp only [List.mem_cons] at hu
          rcases hu with rfl | rfl | hu
          · exact absurd (Fin.ext (e.symm.trans e1)) j1
          · exact absurd (Fin.ext (e.symm.trans e2)) j2
          · exact .inr ⟨u, hu, e⟩
  · rw [hkt', List.range_succ]
    have := g.cover
    simp only [List.flatMap_cons, Tree.indices] at this ⊢
    rw [List.cons_append]
    refine (List.Perm.cons _ ?_).trans (List.perm_append_singleton _ _).symm
    simpa using this
  · rw [hm]
    have := g.leaves
    simp only [List.flatMap_cons, Tree.leaves] at this ⊢
    simpa using this
  · intro u hu
    rcases List.mem_cons.1 hu with rfl | hu
    · have s1 := g.sums t1 (by simp)
      have s2 := g.sums t2 (by simp)
      simp only [Tree.sumsOk, NodeEntry.internalOf, m1w, m2w, s1, s2, Bool.and_true, beq_iff_eq]
      rw [BitVec.toNat_add, Nat.mod_eq_of_lt (by omega)]
    · exact g.sums u (by simp [hu])
  · intro u hu
    rcases List.mem_cons.1 hu with rfl | hu
    · have b1 := g.below t1 (by simp)
      have b2 := g.below t2 (by simp)
      have i1 := g.index_lt (t := t1) (by simp) t1.idx_mem_indices
      have i2 := g.index_lt (t := t2) (by simp) t2.idx_mem_indices
      have : t1.idx ≠ t2.idx := by rw [e1, e2]; exact fun e => h12 (Fin.ext e)
      simp [Tree.childrenBelow, b1, b2, i1, i2, this]
    · exact g.below u (by simp [hu])
  · intro i hi hle
    rw [hkt'] at hle
    rw [hget i hi (by omega)]
    exact h.unused i hi (by omega)
  · intro i hi h'
    simp only [hm] at hi ⊢
    have : i < s.nsym := by simpa using hi
    rw [hget i h' (by simp only [List.length_cons] at hc; omega)]
    exact h.leafPart i hi h'

/-! ## One merge step of a held forest -/

/-- A forest of two or more trees can merge: mergeOnce does not stop, and the result holds the forest in which the two
first-selected trees are joined (R131, R135). -/
theorem HoldsForest.merge_step {s : State} {ts : List Tree} (h : HoldsForest s ts) (htot : TotalInv s) (h2 : 2 ≤ ts.length) :
    ∃ (m1 m2 : Fin 511) (hk : s.nnodes.toNat < 511) (t1 t2 : Tree) (rest : List Tree),
      m1 ≠ m2 ∧ s.active[m1] = true ∧ s.active[m2] = true ∧
      (∀ x : Fin 511, s.active[x] = true → precedesAt s.node x m1 = false) ∧
      (∀ x : Fin 511, s.active[x] = true → x ≠ m1 → precedesAt s.node x m2 = false) ∧
      mergeOnce s = .ok (mergePair m1 m2 s.nnodes.toNat hk s) ∧
      ts.Perm (t1 :: t2 :: rest) ∧ t1.idx = m1.val ∧ t2.idx = m2.val ∧
      s.node[m1].w.toNat + s.node[m2].w.toNat ≤ 2 ^ 64 - 1 ∧
      HoldsForest (mergePair m1 m2 s.nnodes.toNat hk s) (.node s.nnodes.toNat
        (.internalOf (s.node[m1].w + s.node[m2].w) (BitVec.ofNat 9 m1.val) (BitVec.ofNat 9 m2.val)) t1 t2 :: rest) := by
  have hc := h.counts
  have hn := nsym_le s
  rcases mergeOnce_cases s with ⟨m1, m2, hk, h12, a1, a2, i1, i2, e⟩ | ⟨hf, -⟩ | ⟨hf, -⟩
  · obtain ⟨t1, t2, rest, hp, e1, e2, hw, hh⟩ := holdsForest_merge h htot h12 a1 a2 hk (mergePair_node m1 m2 _ hk s)
      (mergePair_active m1 m2 _ hk s) (mergePair_nnodes m1 m2 _ hk s) (by rw [(mergePair_frame m1 m2 _ hk s).1])
    exact ⟨m1, m2, hk, t1, t2, rest, h12, a1, a2, i1, i2, e, hp, e1, e2, hw, hh⟩
  · rw [h.forest_eq] at hf; omega
  · omega

/-! ## The entries of a forest are ordered (R130) -/

/-- Two leaves of a forest never share a symbol (R130). -/
theorem HoldsForest.leaf_inj {s : State} {ts : List Tree} (h : HoldsForest s ts) {i j : Fin 511}
    (hi : i.val < s.nnodes.toNat) (hj : j.val < s.nnodes.toNat) (ki : s.node[i].kind = .leaf)
    (kj : s.node[j].kind = .leaf) (e : s.node[i].sym = s.node[j].sym) : i = j := by
  have hl : (ts.flatMap Tree.leaves).map Prod.fst = (ts.flatMap Tree.leafNodes).map fun p => p.2.sym := by
    rw [List.map_flatMap, List.map_flatMap]
    congr 1; funext t; rw [Tree.leaves_eq, List.map_map]; rfl
  have hnd := h.leaf_syms_nodup
  rw [hl] at hnd
  have mem : ∀ i : Fin 511, i.val < s.nnodes.toNat → s.node[i].kind = .leaf →
      (i.val, s.node[i]) ∈ ts.flatMap Tree.leafNodes := fun i hi ki => by
    obtain ⟨t, ht, hm⟩ := List.mem_flatMap.1 (h.cover.mem_iff.2 (List.mem_range.2 hi))
    exact List.mem_flatMap.2 ⟨t, ht, readTree_leafNodes (h.read t ht) i.val i.isLt hm ki⟩
  exact Fin.ext (Prod.mk.inj (List.inj_on_of_nodup_map hnd (mem i hi ki) (mem j hj kj) e)).1

/-! ## One tree -/

/-- What GENCODES and SERIALIZE need of the finished tree (R136, R164). -/
theorem HoldsForest.tree_facts {s : State} {t : Tree} (h : HoldsForest s [t]) (hr : s.root.toNat = t.idx) :
    treeAt s.node s.root.toNat = some t ∧ t.depth < s.nsym ∧ t.depth ≤ 255 ∧ t.size ≤ 511 := by
  have h1 := h.depth_lt (t := t) (by simp)
  have h2 := h.size_le (t := t) (by simp)
  have h3 := h.counts
  simp only [List.length_cons, List.length_nil] at h3
  exact ⟨hr ▸ h.read t (by simp), by omega, by omega, by omega⟩

/-! ## The weight of the active entries -/

theorem map_weight_val (node : Vector NodeEntry 511) (l : List (Fin 511)) :
    (l.map fun i => node[i].w.toNat) =
      (l.map Fin.val).map fun i => ((node[i]?).map fun e => e.w.toNat).getD 0 := by
  induction l with
  | nil => rfl
  | cons a l ih => rw [List.map_cons, ih]; simp

/-- Σ W over the active entries is the weight of the trees' roots (R31, R40 I2). -/
theorem HoldsForest.activeWeight_eq {s : State} {ts : List Tree} (h : HoldsForest s ts) :
    s.activeWeight = (ts.map fun t => t.entry.w.toNat).sum := by
  rw [State.activeWeight, map_weight_val, ← (h.roots.map _).sum_eq, List.map_map]
  congr 1
  refine List.map_congr_left fun t ht => ?_
  obtain ⟨hi, e⟩ := h.entry_eq ht
  simp [e, Vector.getElem?_eq_getElem hi]

end Sys2Proof.Machine
end

