-- ==== Sys2Proof/Laws/PerInstr.lean ====
section
/-! SUPPORT. One lemma per constructor for each family of LAWS.json. Encoding: the word of a command is well formed
(spec R97), and its reserved field is 0 (spec R94). -/

namespace Sys2Proof.Laws.Encoding

/-- The encoder gives a well-formed word. -/
def Statement (i : Instr) : Prop := wellFormed (encode i) = true ∧ fieldRsv (encode i) = 0#16

theorem clear : Statement .clear := by unfold Statement; decide
theorem count (sym : Sym) : Statement (.count sym) := by revert sym; unfold Statement; decide +kernel
theorem setfreq (sym : Sym) : Statement (.setfreq sym) := by revert sym; unfold Statement; decide +kernel
theorem finit : Statement .finit := by unfold Statement; decide
theorem merge : Statement .merge := by unfold Statement; decide
theorem build : Statement .build := by unfold Statement; decide
theorem gencodes : Statement .gencodes := by unfold Statement; decide
theorem serialize : Statement .serialize := by unfold Statement; decide
theorem pack (sym : Sym) : Statement (.pack sym) := by revert sym; unfold Statement; decide +kernel
theorem flush : Statement .flush := by unfold Statement; decide

end Sys2Proof.Laws.Encoding
end

