-- ==== Sys2Proof/Laws/Serial.lean ====
section
/-! SUPPORT. The bits of a node record, the length of what SERIALIZE emits, and TRUNC (spec R180, R182, R183). -/

namespace Sys2Proof.Machine

/-- TRUNC tells whether some entry weighs 2^55 or more (R183). -/
theorem truncFlag_iff (es : List NodeEntry) : truncFlag es = true ↔ ∃ e ∈ es, 2 ^ 55 ≤ e.w.toNat := by
  rw [truncFlag, List.any_eq_true]
  exact exists_congr fun e => and_congr_right fun _ => decide_eq_true_iff

/-- Bit j of a record: the leaf flag at 0, the weight from 1, the symbol from 56 (R180). -/
theorem getLsbD_nodeRecord (e : NodeEntry) (j : Nat) :
    (nodeRecord e).getLsbD j = ((decide (j = 0) && decide (e.kind = .leaf)) ||
      (decide (1 ≤ j ∧ j < 56) && e.w.getLsbD (j - 1)) ||
      (decide (56 ≤ j ∧ j < 64) && (if e.kind = .leaf then e.sym else 0#8).getLsbD (j - 56))) := by
  unfold nodeRecord
  rw [BitVec.getLsbD_or, BitVec.getLsbD_or]
  congr 1
  · congr 1
    · cases e.kind
      · simp [NodeKind.bit]
      · rcases j with _ | j <;> simp [NodeKind.bit]
    · rw [BitVec.getLsbD_shiftLeft]
      by_cases h1 : j < 1
      · simp [h1]
      · by_cases h2 : j < 56
        · have h3 : j - 1 < 64 := by omega
          have h4 : j - 1 < 55 := by omega
          have h5 : j < 64 := by omega
          simp [*]; intro; omega
        · have h3 : ¬ j - 1 < 55 := by omega
          simp [*]
  · rw [BitVec.getLsbD_shiftLeft]
    by_cases h1 : j < 56
    · simp [h1]
    · by_cases h2 : j < 64
      · have h3 : j - 56 < 64 := by omega
        simp [*]; omega
      · simp [*]

/-- SERIALIZE emits 8 bytes of MAGIC, 8 for each record and 8 of the sentinel (R182). -/
theorem serialBytes_length (es : List NodeEntry) : (serialBytes es).length = 16 + 8 * es.length := by
  have : (es.flatMap (fun e => bytesLE (nodeRecord e))).length = 8 * es.length := by
    induction es with
    | nil => rfl
    | cons e es ih => rw [List.flatMap_cons, List.length_append, ih]; simp [bytesLE]; omega
  rw [serialBytes, List.length_append, List.length_append, this]
  simp [Config.magicBytes, bytesLE]; omega

end Sys2Proof.Machine
end

