-- ==== Sys2Proof/Tests/Slice0.lean ====
section
/-! SUPPORT. The model's own tests. Expected values are those of spec/95_test_vectors.md and of the rules' examples, named
at each test; the last part shows, for each statement of the obligations that has hypotheses, states that meet them. -/

namespace Sys2Proof.Tests

open Sys2Proof Sys2Proof.Machine

-- One theorem after the other: the kernel checks of many short evaluations would pile up as waiting threads.
set_option Elab.async false

/-! ## WellFormed: each check refuses a word that fails it alone (95 L2.1) -/

theorem test_wellFormed_accepts :
    wellFormed 0x00000001#32 = true ∧ wellFormed 0x0000FF02#32 = true ∧ wellFormed 0x00000003#32 = true ∧
      wellFormed 0x00004109#32 = true ∧ wellFormed 0x0000000A#32 = true := by decide

theorem test_wellFormed_refuses_rsv :
    rsvIsZero 0x00010002#32 = false ∧ opIsAssigned 0x00010002#32 = true ∧ symIsAllowed 0x00010002#32 = true ∧
      wellFormed 0x00010002#32 = false ∧ wellFormed 0x80000001#32 = false := by decide

theorem test_wellFormed_refuses_op :
    opIsAssigned 0x00000000#32 = false ∧ rsvIsZero 0x00000000#32 = true ∧ symIsAllowed 0x00000000#32 = true ∧
      wellFormed 0x00000000#32 = false ∧ wellFormed 0x0000000B#32 = false ∧ wellFormed 0x000000FF#32 = false := by decide

theorem test_wellFormed_refuses_sym :
    symIsAllowed 0x00004105#32 = false ∧ rsvIsZero 0x00004105#32 = true ∧ opIsAssigned 0x00004105#32 = true ∧
      wellFormed 0x00004105#32 = false ∧ wellFormed 0x00000101#32 = false ∧ wellFormed 0x0000010A#32 = false := by decide

/-! ## Decoding: words written out from the fields RSV, SYM, OP of R90 and the opcodes of R95 -/

theorem test_decode_clear : decode 0b0000000000000000_00000000_00000001#32 = .ok .clear := by decide
theorem test_decode_count : decode 0b0000000000000000_01000001_00000010#32 = .ok (.count 0x41#8) := by decide
theorem test_decode_setfreq : decode 0b0000000000000000_10000000_00000011#32 = .ok (.setfreq 0x80#8) := by decide
theorem test_decode_finit : decode 0b0000000000000000_00000000_00000100#32 = .ok .finit := by decide
theorem test_decode_merge : decode 0b0000000000000000_00000000_00000101#32 = .ok .merge := by decide
theorem test_decode_build : decode 0b0000000000000000_00000000_00000110#32 = .ok .build := by decide
theorem test_decode_gencodes : decode 0b0000000000000000_00000000_00000111#32 = .ok .gencodes := by decide
theorem test_decode_serialize : decode 0b0000000000000000_00000000_00001000#32 = .ok .serialize := by decide
theorem test_decode_pack : decode 0b0000000000000000_11111111_00001001#32 = .ok (.pack 0xFF#8) := by decide
theorem test_decode_flush : decode 0b0000000000000000_00000000_00001010#32 = .ok .flush := by decide

theorem test_decode_rejects_by_name :
    decode 0x0000000B#32 = .error .reservedOpcode ∧ decode 0x80000001#32 = .error .reservedFieldSet ∧
      decode 0x00000101#32 = .error .symbolNotAllowed := by decide

theorem test_encode : encode (.count 0x41#8) = 0x00004102#32 ∧ encode (.pack 0x43#8) = 0x00004309#32 ∧
    encode .flush = 0x0000000A#32 := by decide

theorem test_decodeTableWord :
    decodeTableWord 32 0x00004102 = some (.count 0x41#8) ∧ decodeTableWord 8 0xFF02 = some (.count 0#8) ∧
      decodeTableWord 32 0x00010002 = none := by decide

/-! ## States for the tests -/

/-- A table with the entries of a list, in order, from index `i` on. -/
def fill {α : Type} {n : Nat} (v : Vector α n) : Nat → List α → Vector α n
  | _, [] => v
  | i, a :: l => fill (v.setIfInBounds i a) (i + 1) l

def arenaOf (l : List NodeEntry) : Vector NodeEntry 511 := fill (Vector.replicate 511 .zero) 0 l

def activeOf (l : List Bool) : Vector Bool 511 := fill (Vector.replicate 511 false) 0 l

/-- A table by symbol with the entries of a list, `d` elsewhere. -/
def tableOf {α : Type} (d : α) (l : List (Sym × α)) : Vector α 256 :=
  l.foldl (fun t p => symSet t p.1 p.2) (Vector.replicate 256 d)

/-- Whether a command answers a next state with a property. -/
def nextIs (r : Result) (p : State → Bool) : Bool :=
  match r with
  | .next t => p t
  | .fault _ => false
  | .refused _ => false

/-- "AAABBC" counted (95 P1, after statement 7). -/
def countABC : State :=
  { State.reset with freq := tableOf 0#64 [(0x41#8, 3#64), (0x42#8, 2#64), (0x43#8, 1#64)], total := 6#64 }

/-- P1 after FINIT. -/
def forestABC : State :=
  { countABC with
    phase := .merge, nnodes := 3#10, active := activeOf [true, true, true]
    node := arenaOf [.leafOf 0x41#8 3#64, .leafOf 0x42#8 2#64, .leafOf 0x43#8 1#64] }

/-- P1 after BUILD. -/
def treeABC : State :=
  { countABC with
    phase := .tree, nnodes := 5#10, root := 4#9, active := activeOf [false, false, false, false, true]
    node := arenaOf [.leafOf 0x41#8 3#64, .leafOf 0x42#8 2#64, .leafOf 0x43#8 1#64, .internalOf 3#64 2#9 1#9,
      .internalOf 6#64 0#9 3#9] }

/-- P1 after GENCODES. -/
def codedABC : State :=
  { treeABC with
    phase := .coded, code := tableOf 0#256 [(0x42#8, 0b11#256), (0x43#8, 0b10#256)]
    len := tableOf 0#9 [(0x41#8, 1#9), (0x42#8, 2#9), (0x43#8, 2#9)] }

/-- P1 before statement 17: ACC = 0x78, OFF = 7. -/
def packABC : State := { codedABC with phase := .pack, acc := 0x78#264, off := 7#9, outcnt := 56#64 }

/-- A state of phase PACK that gives one symbol a code (95 L2.6). -/
def packer (acc : Accumulator) (off : BitVec 9) (code : CodeWord) (len : CodeLen) : State :=
  { State.reset with
    phase := .pack, acc := acc, off := off, code := tableOf 0#256 [(0x10#8, code)], len := tableOf 0#9 [(0x10#8, len)] }

/-- FREQ[0] = TOTAL = 2^64 - 1 (95 L2.2). -/
def fullTotal : State :=
  { State.reset with freq := tableOf 0#64 [(0x00#8, 0xFFFFFFFFFFFFFFFF#64)], total := 0xFFFFFFFFFFFFFFFF#64 }

/-- FAULT with ERR = 5 (95 L2.7). -/
def faulted5 : State := { packABC with phase := .fault, err := .missingSymbol }

/-! ## One step of each command -/

/-- R230's example, and OUT kept. -/
theorem test_clear_in_fault : nextIs (exec .clear { faulted5 with out := [7#8] })
    (fun t => t.status == 0#32 && t.outcnt == 0#64 && t.out == [7#8]) = true := by decide +kernel

/-- R110's example. -/
theorem test_count : nextIs (exec (.count 0x41#8) .reset)
    (fun t => symGet t.freq 0x41#8 == 1#64 && t.total == 1#64 && t.nsym == 1) = true := by decide +kernel

/-- 95 L2.2: COUNT at TOTAL = 2^64 - 1. -/
theorem test_count_overflow : nextIs (exec (.count 0x01#8) fullTotal)
    (fun t => t.status == 0x00000407#32 && symGet t.freq 0x01#8 == 0#64 && t.total == 0xFFFFFFFFFFFFFFFF#64) = true := by
  decide +kernel

/-- R111's example: DATA_HI is the high half. -/
theorem test_setfreq : nextIs (exec (.setfreq 0x00#8) { State.reset with dataLo := 5#32, dataHi := 0x00800000#32 })
    (fun t => (symGet t.freq 0x00#8).toNat == 2 ^ 55 + 5 && t.total.toNat == 2 ^ 55 + 5 && t.nsym == 1) = true := by
  decide +kernel

/-- 95 L2.2: SETFREQ replaces, also at the greatest TOTAL. -/
theorem test_setfreq_replaces : nextIs (exec (.setfreq 0x00#8) { fullTotal with dataLo := 5#32 })
    (fun t => symGet t.freq 0x00#8 == 5#64 && t.total == 5#64) = true := by decide +kernel

/-- 95 P1, statement 8. -/
theorem test_finit : nextIs (exec .finit countABC)
    (fun t => t.node[2] == .leafOf 0x43#8 1#64 && t.nnodes == 3#10 && t.forest == 3 &&
      mmioRead 0x4000#16 t == 0x00004101#32 && t.status == 0x00000001#32) = true := by decide +kernel

/-- 95 L2.3: the degenerate case. -/
theorem test_finit_degenerate : nextIs (exec .finit { State.reset with freq := tableOf 0#64 [(0x07#8, 1#64)], total := 1#64 })
    (fun t => t.status == 0x0000000A#32 && t.forest == 1 && t.root == 0#9) = true := by decide +kernel

/-- 95 L2.3, MERGE 1: the first selected is LEFT. -/
theorem test_merge : nextIs (exec .merge forestABC)
    (fun t => t.node[3] == .internalOf 3#64 2#9 1#9 && mmioRead 0x6000#16 t == 0x00000009#32 &&
      t.status == 0x00000001#32) = true := by decide +kernel

/-- 95 L2.3: six pairs, one for each key of the comparator. -/
theorem test_comparator :
    precedes (.internalOf 1#64 0#9 1#9) 300 (.leafOf 0x09#8 2#64) 9 = true ∧
      precedes (.leafOf 0xC8#8 3#64) 200 (.internalOf 3#64 0#9 1#9) 300 = true ∧
      precedes (.leafOf 0x01#8 3#64) 1 (.leafOf 0x02#8 3#64) 0 = true ∧
      precedes (.internalOf 4#64 0#9 1#9) 257 (.internalOf 4#64 0#9 1#9) 258 = true ∧
      precedes (.leafOf 0x00#8 0x8000000000000000#64) 0 (.leafOf 0xFF#8 1#64) 255 = false ∧
      precedes (.internalOf 2#64 0#9 1#9) 5 (.leafOf 0x00#8 3#64) 0 = true := by decide

/-- 95 L2.3, MERGE 2 and R134's example: at equal weight the leaf is LEFT. -/
theorem test_build : nextIs (exec .build forestABC)
    (fun t => t.node[4] == .internalOf 6#64 0#9 3#9 && t.root == 4#9 && t.nnodes == 5#10 &&
      t.status == 0x00000002#32) = true := by decide +kernel

/-- 95 L2.3: BUILD in phase TREE is a no-op. -/
theorem test_build_in_tree : exec .build treeABC = .next treeABC := rfl

/-- R161's example. -/
theorem test_gencodes : nextIs (exec .gencodes treeABC)
    (fun t => symGet t.code 0x41#8 == 0#256 && symGet t.code 0x42#8 == 0b11#256 && symGet t.code 0x43#8 == 0b10#256 &&
      symGet t.len 0x41#8 == 1#9 && symGet t.len 0x42#8 == 2#9 && symGet t.len 0x43#8 == 2#9) = true := by decide +kernel

/-- 95 L2.4: the degenerate case. -/
theorem test_gencodes_degenerate : nextIs (exec .gencodes { State.reset with
      phase := .tree, degen := true, node := arenaOf [.leafOf 0x5A#8 10#64] })
    (fun t => symGet t.code 0x5A#8 == 0#256 && symGet t.len 0x5A#8 == 1#9 && t.status == 0x0000000B#32) = true := by
  decide +kernel

/-- R182's example: the bytes after MAGIC, with their order. -/
theorem test_serialize : nextIs (exec .serialize codedABC)
    (fun t => t.out.drop 8 ==
        [0x0C#8, 0#8, 0#8, 0#8, 0#8, 0#8, 0#8, 0#8, 0x07#8, 0#8, 0#8, 0#8, 0#8, 0#8, 0#8, 0x41#8,
         0x06#8, 0#8, 0#8, 0#8, 0#8, 0#8, 0#8, 0#8, 0x03#8, 0#8, 0#8, 0#8, 0#8, 0#8, 0#8, 0x43#8,
         0x05#8, 0#8, 0#8, 0#8, 0#8, 0#8, 0#8, 0x42#8, 0#8, 0#8, 0#8, 0#8, 0#8, 0#8, 0#8, 0#8] &&
      t.outcnt == 56#64 && t.status == 0x00000004#32) = true := by decide +kernel

/-- 95 L1.8 and L2.5: a truncated weight, the greatest weight kept whole, and the alias of the sentinel. -/
theorem test_records :
    nodeRecord (.leafOf 0x41#8 3#64) = 0x4100000000000007#64 ∧
      nodeRecord (.leafOf 0xFF#8 0x007FFFFFFFFFFFFF#64) = 0xFFFFFFFFFFFFFFFF#64 ∧
      nodeRecord (.leafOf 0x00#8 0x0080000000000005#64) = 0x000000000000000B#64 ∧
      nodeRecord (.internalOf 0x0080000000000000#64 0#9 1#9) = 0#64 := by decide

/-- R201's example. -/
theorem test_pack : nextIs (exec (.pack 0x43#8) packABC)
    (fun t => t.out == [0xF8#8] && t.acc == 0#264 && t.off == 1#9 && t.outcnt == 57#64) = true := by decide +kernel

/-- 95 L2.6, the last row but one: LEN = 255 at OFF = 7. -/
theorem test_pack_longest : nextIs (exec (.pack 0x10#8) (packer 0#264 7#9 (BitVec.ofNat 256 (2 ^ 255 - 1)) 255#9))
    (fun t => t.out == 0x80#8 :: List.replicate 31 0xFF#8 && t.acc == 0x3F#264 && t.off == 6#9) = true := by
  decide +kernel

/-- 95 L2.6, FLUSH with bits waiting. -/
theorem test_flush : nextIs (exec .flush (packer 0x05#264 3#9 0#256 0#9))
    (fun t => t.out == [0x05#8] && t.acc == 0#264 && t.off == 0#9 && t.status == 0x00000005#32) = true := by
  decide +kernel

/-- 95 L2.6, FLUSH with none. -/
theorem test_flush_empty : nextIs (exec .flush (packer 0#264 0#9 0#256 0#9))
    (fun t => t.out == [] && t.outcnt == 0#64 && t.phase == .done) = true := by decide +kernel

/-! ## The host's accesses and the sink (95 L2.7) -/

theorem test_first_command_after_reset :
    step (State.reset.withFetchWord 32 0x00004102) = exec (.count 0x41#8) .reset := rfl

theorem test_sequence_illegal_empty :
    nextIs (step (State.reset.withFetchWord 32 0x7)) (fun t => t.status == 0x00000207#32) = true ∧
      nextIs (step (State.reset.withFetchWord 32 0)) (fun t => t.status == 0x00000107#32) = true ∧
      nextIs (step (State.reset.withFetchWord 32 0x4105)) (fun t => t.status == 0x00000107#32) = true ∧
      nextIs (step (State.reset.withFetchWord 32 0x4)) (fun t => t.status == 0x00000307#32) = true := by decide +kernel

theorem test_ignored_in_fault :
    nextIs (step (faulted5.withFetchWord 32 0x101)) (fun t => t.err == .missingSymbol) = true ∧
      nextIs (step { faulted5 with hostQueue := [wr 0x000C#16 7#32] }) (fun t => mmioRead 0x000C#16 t == 7#32) = true := by
  decide +kernel

theorem test_reads :
    mmioRead 0x0308#16 countABC = 3#32 ∧ mmioRead 0x0A0C#16 codedABC = 2#32 ∧ mmioRead 0x1840#16 codedABC = 3#32 ∧
      mmioRead 0x403C#16 treeABC = 0x00010002#32 ∧ mmioRead 0x0030#16 packABC = 0#32 ∧
      mmioRead 0x0004#16 packABC = 0x00070004#32 := by decide +kernel

theorem test_refused_access :
    step { State.reset with hostQueue := [.read 0x0002#16 32] } = .refused (.misalignedAccess 0x0002#16) ∧
      step { State.reset with hostQueue := [.write 0x0000#16 8 1#32] } = .refused (.badAccessWidth 8) := ⟨rfl, rfl⟩

/-- The sink refuses the second byte of a PACK of two bytes. -/
theorem test_sink_error : nextIs (exec (.pack 0x10#8)
      { packer 0#264 7#9 0x300#256 10#9 with sinkScript := [.takes, .ioError, .takes] })
    (fun t => t.err == .sinkIo && t.phase == .fault && t.outcnt == 1#64 && t.off == 7#9 && t.acc == 0#264) = true := by
  decide +kernel

theorem test_sink_silent : exec .flush { packer 0x05#264 3#9 0#256 0#9 with sinkScript := [.silent] } =
    .fault .sinkSilent := rfl

/-! ## States within the invariants -/

theorem of_nextIs {r : Result} {p : State → Bool} (h : nextIs r p = true) : ∃ t, r = .next t ∧ p t = true := by
  cases r with
  | next t => exact ⟨t, rfl, h⟩
  | fault e => cases h
  | refused e => cases h

/-- "AAB" counted. -/
def countAAB : State :=
  { State.reset with freq := tableOf 0#64 [(0x41#8, 2#64), (0x42#8, 1#64)], total := 3#64 }

/-- "AAB" in phase TREE: B is selected first. -/
def treeAAB : State :=
  { countAAB with
    phase := .tree, nnodes := 3#10, root := 2#9, active := activeOf [false, false, true]
    node := arenaOf [.leafOf 0x41#8 2#64, .leafOf 0x42#8 1#64, .internalOf 3#64 1#9 0#9] }

/-- "AAB" with its codes, in a phase from CODED on. -/
def codesAAB (p : Phase) : State :=
  { treeAAB with
    phase := p, code := tableOf 0#256 [(0x41#8, 1#256)], len := tableOf 0#9 [(0x41#8, 1#9), (0x42#8, 1#9)] }

/-- "AAB" in phase PACK with one bit waiting. -/
def packAAB : State := { codesAAB .pack with acc := 1#264, off := 1#9 }

/-- The tree of "AAB". -/
def theTree : Machine.Tree :=
  .node 2 (.internalOf 3#64 1#9 0#9) (.leaf 1 (.leafOf 0x42#8 1#64)) (.leaf 0 (.leafOf 0x41#8 2#64))

theorem theTree_read : treeAt treeAAB.node treeAAB.root.toNat = some theTree := by decide +kernel

theorem mapping_AAB : treeAAB.mapping = [(0x41#8, 2#64), (0x42#8, 1#64)] := by decide +kernel

theorem unused_AAB (i : Nat) (h : i < 511) (hi : 3 ≤ i) : treeAAB.node[i] = .zero := by
  simp [treeAAB, arenaOf, fill, show ¬ 0 = i by omega, show ¬ 1 = i by omega, show ¬ 2 = i by omega]

theorem node_AAB : treeAAB.node[0] = .leafOf 0x41#8 2#64 ∧ treeAAB.node[1] = .leafOf 0x42#8 1#64 := by decide +kernel

theorem forest_AAB : HoldsForest treeAAB [theTree] where
  read t ht := by rw [List.mem_singleton.1 ht]; exact theTree_read
  roots := by decide +kernel
  cover := by decide +kernel
  leaves := by rw [mapping_AAB]; decide
  sums := by decide
  below := by decide
  unused i h hi := unused_AAB i h hi
  leafPart i hi h' := by
    simp only [mapping_AAB] at hi ⊢
    have hi : i < 2 := by simpa using hi
    rcases (by omega : i = 0 ∨ i = 1) with rfl | rfl
    · exact node_AAB.1
    · exact node_AAB.2

theorem total_AAB : TotalInv countAAB := by unfold TotalInv; decide +kernel

theorem nsym_AAB : countAAB.nsym = 2 := by decide +kernel

theorem inv_count : BlockInv countAAB := by
  refine ⟨total_AAB, ⟨by decide +kernel, by decide +kernel, by decide +kernel⟩, ?_⟩
  simp [TreeInv, countAAB, resetBlock, State.reset]

theorem forest_ABC : HoldsForest forestABC (leafTrees countABC.mapping) :=
  holdsForest_finit (s := countABC) forestABC (Vector.toList_inj.1 (by decide +kernel)) (by decide +kernel)
    (Vector.toList_inj.1 (by decide +kernel)) rfl

theorem merge_ABC : TreeInv forestABC := by
  have hf : 2 ≤ forestABC.forest := by decide +kernel
  have h0 : forestABC.phase = .merge := by decide +kernel
  have hd : forestABC.degen = false := by decide +kernel
  have hx : ∃ ts, HoldsForest forestABC ts := ⟨_, forest_ABC⟩
  generalize forestABC = s at *
  rw [TreeInv, h0]
  exact ⟨hd, hf, hx⟩

theorem inv_merge : BlockInv forestABC :=
  ⟨by unfold TotalInv; decide +kernel, ⟨by decide +kernel, by decide +kernel, by decide +kernel⟩, merge_ABC⟩

theorem degen_AAB : treeAAB.degen = TreeInv.degenOf treeAAB := by decide +kernel

theorem inv_tree : BlockInv treeAAB := by
  refine ⟨total_AAB, ⟨by decide +kernel, by decide +kernel, by decide +kernel⟩, ?_⟩
  exact (⟨degen_AAB, theTree, forest_AAB, rfl⟩ : treeAAB.degen = TreeInv.degenOf treeAAB ∧
    ∃ t, HoldsForest treeAAB [t] ∧ treeAAB.root.toNat = t.idx)

theorem codes_AAB (p : Phase) : HoldsCodes (codesAAB p) theTree := by
  refine ⟨(fun h => by cases h), fun _ => ⟨?_, fun x hx => ?_⟩⟩
  · have h : theTree.paths = [(0x42#8, [false]), (0x41#8, [true])] := by decide
    rw [h]
    intro q hq
    simp only [List.mem_cons, List.not_mem_nil, or_false] at hq
    rcases hq with rfl | rfl <;> exact ⟨rfl, rfl⟩
  · have h : theTree.paths.map Prod.fst = [0x42#8, 0x41#8] := by decide
    rw [h] at hx
    simp only [List.mem_cons, List.not_mem_nil, or_false, not_or] at hx
    simp [codesAAB, tableOf, symGet_symSet, hx.1, hx.2]

theorem inv_coded : BlockInv (codesAAB .coded) :=
  ⟨total_AAB, ⟨by decide +kernel, by decide +kernel, by decide +kernel⟩, degen_AAB, theTree,
    forest_AAB.congr rfl rfl rfl rfl, rfl, codes_AAB .coded⟩

theorem inv_pack : BlockInv packAAB :=
  ⟨total_AAB, ⟨by decide +kernel, by decide +kernel, by decide⟩, degen_AAB, theTree,
    forest_AAB.congr rfl rfl rfl rfl, rfl, codes_AAB .pack⟩

theorem inv_done : BlockInv (codesAAB .done) :=
  ⟨total_AAB, ⟨by decide +kernel, by decide +kernel, by decide⟩, degen_AAB, theTree,
    forest_AAB.congr rfl rfl rfl rfl, rfl, codes_AAB .done⟩

/-- The state of phase COUNT with nothing counted and a DATA register written. -/
def emptyCount : State := { State.reset with dataLo := 5#32, dataHi := 7#32 }

theorem inv_empty : BlockInv emptyCount :=
  ⟨by unfold TotalInv; decide +kernel, ⟨by decide +kernel, by decide +kernel, by decide +kernel⟩, rfl⟩

theorem inv_fault : BlockInv { codesAAB .coded with phase := .fault, err := .sequence } :=
  ⟨total_AAB, ⟨by decide +kernel, by decide +kernel, by decide⟩, trivial⟩

/-- The degenerate case in phase TREE. -/
def treeDegen : State :=
  { State.reset with
    phase := .tree, degen := true, freq := tableOf 0#64 [(0x5A#8, 10#64)], total := 10#64, nnodes := 1#10
    node := arenaOf [.leafOf 0x5A#8 10#64], active := activeOf [true] }

/-- "AAB" with a weight of 2^55 at the root, in phase CODED. -/
def codedBig : State :=
  { codesAAB .coded with node := arenaOf [.leafOf 0x41#8 0x007FFFFFFFFFFFFF#64, .leafOf 0x42#8 1#64,
      .internalOf 0x0080000000000000#64 1#9 0#9] }

/-! ## For each statement with hypotheses, states and operands that meet them -/

theorem witness_StepRunsTheDecodedCommand :
    { State.reset with hostQueue := [writeCmd 0x00004102#32] }.hostQueue = .write 0x0000#16 32 0x00004102#32 :: [] ∧
      decode 0x00004102#32 = .ok (.count 0x41#8) ∧ decodeTableWord 32 0x0000FF09 = some (.pack 0xFF#8) := by decide

/-- The clauses: FAULT; ill-formed; out of phase; accepted. -/
theorem witness_CmdWriteDispatchOrder :
    faulted5.phase = .fault ∧ (State.reset.phase ≠ .fault ∧ wellFormed 0x0000000B#32 = false) ∧
      (State.reset.phase ≠ .fault ∧ wellFormed 0x00000006#32 = true ∧
        State.reset.phase ∉ acceptedPhases ((0x00000006#32).extractLsb' 0 8).toNat) ∧
      treeAAB.phase ≠ .fault ∧ treeAAB.phase ∈ acceptedPhases ((0x00000006#32).extractLsb' 0 8).toNat := by decide

theorem witness_FaultEntryIsPrecise : State.reset.phase ≠ .fault ∧
    ∃ t, onCmdWrite 0#32 .reset = .next t ∧ (t.phase == .fault && t.err != .sinkIo) = true :=
  ⟨by decide, of_nextIs (by decide +kernel)⟩

theorem witness_FaultPhaseIgnoresAllButClear : faulted5.phase = .fault ∧ (0x00000101#32 : Word32) ≠ 0x00000001#32 ∧
    (0x6040#16 : Offset).toNat % 4 = 0 := by decide

theorem witness_OnlyClearAndResetLeaveFault : faulted5.phase = .fault ∧
    (∃ t, step { faulted5 with hostQueue := [.reset] } = .next t ∧ (t.phase != .fault) = true) ∧
    ∃ t, step { faulted5 with hostQueue := [writeCmd 1#32] } = .next t ∧ (t.phase != .fault) = true :=
  ⟨rfl, of_nextIs (by decide +kernel), of_nextIs (by decide +kernel)⟩

theorem witness_ErrIsStickyUntilResetOrClear :
    (∃ t, step { State.reset with hostQueue := [writeCmd 5#32] } = .next t ∧ (t.err == .sequence) = true) ∧
    ∃ t, step { faulted5 with hostQueue := [writeCmd 1#32] } = .next t ∧ (t.err == .none && faulted5.err != .none) = true :=
  ⟨of_nextIs (by decide +kernel), of_nextIs (by decide +kernel)⟩

/-- PACK at the last byte, FLUSH, SERIALIZE at the first and at the last byte; and a command that reports SINK_IO. -/
theorem witness_SinkErrorStopsTheCommand :
    (let s := { packer 0#264 7#9 0x300#256 10#9 with sinkScript := [.takes, .ioError] }
     s.sinkTakes 1 = true ∧ s.sinkScript[1]? = some .ioError ∧ s.phase = .pack ∧ symGet s.len 0x10#8 ≠ 0#9 ∧
        1 < (s.off.toNat + (symGet s.len 0x10#8).toNat) / 8) ∧
    (let s := { packAAB with sinkScript := [.ioError] }
     s.sinkTakes 0 = true ∧ s.sinkScript[0]? = some .ioError ∧ s.phase = .pack ∧ 0 < s.off.toNat) ∧
    (let s := { codesAAB .coded with sinkScript := List.replicate 39 SinkReply.takes ++ [SinkReply.ioError] }
     s.sinkTakes 39 = true ∧ s.sinkScript[39]? = some .ioError ∧ s.phase = .coded ∧
        treeAt s.node s.root.toNat = some theTree ∧ theTree.depth ≤ 255 ∧ theTree.size ≤ 511 ∧
        39 < 16 + 8 * theTree.size) ∧
    ∃ t, exec .flush { packAAB with sinkScript := [.ioError] } = .next t ∧
      (t.phase == .fault && t.err == .sinkIo) = true :=
  ⟨by decide +kernel, by decide +kernel, by decide +kernel, of_nextIs (by decide +kernel)⟩

/-- A state within the invariants whose next step never ends. -/
theorem witness_OnlyASilentSinkHangs :
    let s := { packAAB with sinkScript := [.silent], hostQueue := [writeCmd 0x0A#32] }
    BlockInv s ∧ step s = .fault .sinkSilent ∧ s.phase = .pack ∧ 0 < s.off.toNat ∧
      s.sinkScript.head? = some .silent :=
  ⟨⟨total_AAB, inv_pack.2.1, degen_AAB, theTree, forest_AAB.congr rfl rfl rfl rfl, rfl, codes_AAB .pack⟩, rfl, rfl,
    by decide +kernel, rfl⟩

theorem witness_ResetAndClearSetEveryElement : { packAAB with hostQueue := [.reset] }.hostQueue = .reset :: [] := rfl

theorem witness_ClearRunsInEveryPhase :
    ((0x00000101#32).extractLsb' 0 8 = 0x01#8 ∧ (0x00000101#32).extractLsb' 8 8 ≠ 0#8) ∧
    ((0x80000001#32).extractLsb' 0 8 = 0x01#8 ∧ (0x80000001#32).extractLsb' 16 16 ≠ 0#16) ∧
    (BlockInv emptyCount ∧ emptyCount.phase = .count ∧ emptyCount.nsym = 0) ∧
    (faulted5.phase = .fault ∧ ∃ t, exec .clear faulted5 = .next t ∧ (t.phase != .fault) = true) ∧
    (codesAAB .done).phase = .done ∧
    ∃ t, exec .clear (codesAAB .done) = .next t ∧ (t.phase != .done && t.phase != .fault) = true :=
  ⟨by decide, by decide, ⟨inv_empty, rfl, by decide +kernel⟩, ⟨rfl, of_nextIs (by decide +kernel)⟩, rfl,
    of_nextIs (by decide +kernel)⟩

/-- The first unused entry and the last one. -/
theorem witness_WindowsShowTheTables : BlockInv treeAAB ∧ treeAAB.phase ≠ .fault ∧ treeAAB.nnodes.toNat ≤ 3 ∧
    treeAAB.nnodes.toNat ≤ 510 := ⟨inv_tree, by decide, by decide, by decide⟩

/-- Both ends of each unmapped range. -/
theorem witness_RegisterReadsAndUnmappedReads :
    ∀ n ∈ [0x0030, 0x00FF, 0x0D00, 0x0FFF, 0x3000, 0x3FFF, 0x5FF0, 0x5FFF, 0x6040, 0xFFFF],
      0x0030 ≤ n ∧ n < 0x0100 ∨ 0x0D00 ≤ n ∧ n < 0x1000 ∨ 0x3000 ≤ n ∧ n < 0x4000 ∨ 0x5FF0 ≤ n ∧ n < 0x6000 ∨
        0x6040 ≤ n := by decide

theorem witness_WritesReachCmdAndDataOnly :
    (0xFFFC#16 : Offset).toNat % 4 = 0 ∧ (0x0001#16 : Offset).toNat % 4 ≠ 0 ∧ (16 : Nat) ≠ 32 := by decide

theorem witness_MisalignedOrNarrowAccessIsRefused :
    { State.reset with hostQueue := [.read 0xFFFF#16 32] }.hostQueue = .read 0xFFFF#16 32 :: [] ∧
      (0xFFFF#16 : Offset).toNat % 4 ≠ 0 := by decide

/-- FINIT changes DEGEN, SERIALIZE changes TRUNC, CLEAR and reset clear them. -/
theorem witness_FlagsAreWrittenByFinitAndSerializeOnly :
    (∃ t, exec .finit { State.reset with freq := tableOf 0#64 [(0x07#8, 1#64)] } = .next t ∧ (t.degen != false) = true) ∧
    (∃ t, exec .serialize codedBig = .next t ∧ (t.trunc != codedBig.trunc) = true) ∧
    (∃ t, exec .clear treeDegen = .next t ∧ (t.degen != treeDegen.degen) = true) ∧
    ∃ t, step { treeDegen with hostQueue := [.reset] } = .next t ∧ (t.degen == false) = true :=
  ⟨of_nextIs (by decide +kernel), of_nextIs (by decide +kernel), of_nextIs (by decide +kernel),
    of_nextIs (by decide +kernel)⟩

theorem witness_OutGrowsOnlyAtItsEnd :
    ∃ t, step { packAAB with hostQueue := [writeCmd 0x0A#32] } = .next t ∧ (t.out == [1#8] && t.phase == .done) = true :=
  of_nextIs (by decide +kernel)

theorem witness_NoCommandReadsTheSinkOrTheHost :
    ∃ t, exec .flush packAAB = .next t ∧ (t.err != .sinkIo && t.out == [1#8]) = true := of_nextIs (by decide +kernel)

/-- The greatest TOTAL that COUNT accepts, and the one it does not; two COUNTs before the greatest TOTAL. -/
theorem witness_CountAddsOneOrFaults :
    (let s := { State.reset with total := 0xFFFFFFFFFFFFFFFE#64 }; s.phase = .count ∧ s.total.toNat ≠ 2 ^ 64 - 1) ∧
    (fullTotal.phase = .count ∧ fullTotal.total.toNat = 2 ^ 64 - 1) ∧
    (TotalInv countAAB ∧ countAAB.phase = .count ∧ countAAB.total.toNat + 2 ≤ 2 ^ 64 - 1 ∧
      symGet countAAB.freq 0x43#8 = 0#64) ∧
    (treeAAB.phase ≠ .count ∧ treeAAB.phase ≠ .fault) ∧
    (0x00010002#32).extractLsb' 0 8 = 0x02#8 ∧ (0x00010002#32).extractLsb' 16 16 ≠ 0#16 :=
  ⟨by decide, by decide, ⟨total_AAB, rfl, by decide, by decide +kernel⟩, by decide, by decide⟩

/-- SETFREQ of 2^64 - 1 on the symbol that holds everything; D = 0; D as it stands; one too many. -/
theorem witness_SetfreqReplacesTheCountOrFaults :
    (let s := { fullTotal with dataLo := 0xFFFFFFFF#32, dataHi := 0xFFFFFFFF#32 }
     s.phase = .count ∧ (s.total.toNat : Int) - (symGet s.freq 0x00#8).toNat +
        ((s.dataHi.toNat * 2 ^ 32 + s.dataLo.toNat : Nat) : Int) = 2 ^ 64 - 1) ∧
    (let s := { fullTotal with dataLo := 1#32 }
     s.phase = .count ∧ (2 ^ 64 - 1 : Int) < (s.total.toNat : Int) - (symGet s.freq 0x01#8).toNat +
        ((s.dataHi.toNat * 2 ^ 32 + s.dataLo.toNat : Nat) : Int)) ∧
    (countAAB.dataHi.toNat * 2 ^ 32 + countAAB.dataLo.toNat = 0 ∧ symGet countAAB.freq 0x41#8 ≠ 0#64) ∧
    (TotalInv { countAAB with dataLo := 2#32 } ∧ (symGet countAAB.freq 0x41#8).toNat = 0 * 2 ^ 32 + (2#32).toNat) ∧
    (TotalInv emptyCount ∧ ∀ x, x ≠ 0x41#8 → symGet emptyCount.freq x = 0#64) ∧
    (0x00014103#32).extractLsb' 0 8 = 0x03#8 ∧ (0x00014103#32).extractLsb' 16 16 ≠ 0#16 :=
  ⟨by decide +kernel, by decide +kernel, by decide +kernel, ⟨total_AAB, by decide +kernel⟩,
    ⟨inv_empty.1, fun x _ => by simp [emptyCount, State.reset]⟩, by decide⟩

theorem witness_FinitLoadsTheForest :
    (countAAB.phase = .count ∧ countAAB.nsym ≠ 0) ∧ (emptyCount.phase = .count ∧ emptyCount.nsym = 0) ∧
    (treeAAB.phase ≠ .count ∧ treeAAB.phase ≠ .fault) ∧
    (0x00000104#32).extractLsb' 0 8 = 0x04#8 ∧ (0x00000104#32).extractLsb' 8 8 ≠ 0#8 :=
  ⟨⟨rfl, by rw [nsym_AAB]; decide⟩, ⟨rfl, by decide +kernel⟩, by decide, by decide⟩

theorem witness_ComparatorIsAStrictTotalOrder :
    HoldsForest treeAAB [theTree] ∧ ∀ i : Fin 3, i.val < treeAAB.nnodes.toNat := ⟨forest_AAB, by decide⟩

theorem witness_MergeJoinsTheTwoFirstSelected :
    (BlockInv forestABC ∧ forestABC.phase = .merge) ∧ (treeAAB.phase ≠ .merge ∧ treeAAB.phase ≠ .fault) ∧
    (0x00004105#32).extractLsb' 0 8 = 0x05#8 ∧ (0x00004105#32).extractLsb' 8 8 ≠ 0#8 :=
  ⟨⟨inv_merge, rfl⟩, by decide, by decide⟩

theorem witness_ForestAccounting :
    (BlockInv forestABC ∧ forestABC.phase = .merge) ∧ BlockInv countAAB ∧ countAAB.phase = .count ∧ 2 ≤ countAAB.nsym :=
  ⟨⟨inv_merge, rfl⟩, inv_count, rfl, by rw [nsym_AAB]⟩

theorem witness_BuildMergesToOneRoot :
    (BlockInv forestABC ∧ forestABC.phase = .merge ∧
      ∃ u, exec .merge forestABC = .next u ∧ (u.phase == .merge) = true) ∧ treeAAB.phase = .tree ∧
    (State.reset.phase ≠ .merge ∧ State.reset.phase ≠ .tree ∧ State.reset.phase ≠ .fault) ∧
    (0x00010006#32).extractLsb' 0 8 = 0x06#8 ∧ (0x00010006#32).extractLsb' 16 16 ≠ 0#16 :=
  ⟨⟨inv_merge, rfl, of_nextIs (by decide +kernel)⟩, rfl, by decide, by decide⟩

/-- Two states with the same FREQ that differ elsewhere, both of which reach CODED. -/
theorem witness_TreeAndCodesDependOnFreqOnly :
    countAAB.nsym ≠ 0 ∧
    (∃ t, execAll [.finit, .build, .gencodes] countAAB = .next t ∧ (t.phase == .coded) = true) ∧
    ∃ t, execAll [.finit, .build, .gencodes] { treeAAB with phase := .count, trunc := true } = .next t ∧
      (t.phase == .coded) = true :=
  ⟨by rw [nsym_AAB]; decide, of_nextIs (by decide +kernel), of_nextIs (by decide +kernel)⟩

theorem witness_GencodesGivesEachLeafItsPath :
    (treeAAB.phase = .tree ∧ treeAAB.degen = false ∧ treeAt treeAAB.node treeAAB.root.toNat = some theTree ∧
      theTree.depth ≤ 255 ∧ theTree.size ≤ 511 ∧ (theTree.leaves.map Prod.fst).Nodup) ∧
    (treeDegen.phase = .tree ∧ treeDegen.degen = true ∧ treeDegen.root.toNat < 511) ∧
    (State.reset.phase ≠ .tree ∧ State.reset.phase ≠ .fault) ∧
    (0x00000107#32).extractLsb' 0 8 = 0x07#8 ∧ (0x00000107#32).extractLsb' 8 8 ≠ 0#8 :=
  ⟨⟨rfl, rfl, theTree_read, by decide, by decide, by decide⟩, by decide, by decide, by decide⟩

theorem witness_CodesArePrefixFree :
    BlockInv (codesAAB .coded) ∧ symGet (codesAAB .coded).len 0x41#8 ≠ 0#9 ∧
      symGet (codesAAB .coded).len 0x42#8 ≠ 0#9 ∧ BlockInv packAAB ∧ BlockInv (codesAAB .done) :=
  ⟨inv_coded, by decide +kernel, by decide +kernel, inv_pack, inv_done⟩

theorem witness_CodeLengthsAreBounded :
    (BlockInv (codesAAB .coded) ∧ (codesAAB .coded).phase = .coded) ∧ BlockInv treeAAB ∧ treeAAB.phase = .tree :=
  ⟨⟨inv_coded, rfl⟩, inv_tree, rfl⟩

theorem witness_SerializeEmitsThePreorderRecords :
    (let s := codesAAB .coded
     s.phase = .coded ∧ treeAt s.node s.root.toNat = some theTree ∧ theTree.depth ≤ 255 ∧ theTree.size ≤ 511 ∧
        s.sinkTakes (16 + 8 * theTree.size) = true) ∧
    (BlockInv (codesAAB .coded) ∧ theTree.size + 1 = 2 * (codesAAB .coded).nsym) ∧
    ({ codesAAB .coded with sinkScript := [.ioError] }.sinkTakes 0 = true ∧
      { codesAAB .coded with sinkScript := [.ioError] }.sinkScript[0]? = some .ioError) ∧
    (State.reset.phase ≠ .coded ∧ State.reset.phase ≠ .fault) ∧
    (0x00000108#32).extractLsb' 0 8 = 0x08#8 ∧ (0x00000108#32).extractLsb' 8 8 ≠ 0#8 :=
  ⟨⟨rfl, theTree_read, by decide, by decide, by decide⟩, ⟨inv_coded, by decide +kernel⟩, by decide, by decide, by decide⟩

theorem witness_TruncReportsATotalOf55Bits : BlockInv (codesAAB .coded) ∧
    ∃ t, exec .serialize (codesAAB .coded) = .next t ∧ (t.phase == .pack && t.trunc == false) = true :=
  ⟨inv_coded, of_nextIs (by decide +kernel)⟩

theorem witness_OnlyTruncatedInternalRecordsAliasTheSentinel :
    nodeRecord (.internalOf 0x0080000000000000#64 0#9 1#9) = 0#64 ∧ (0x0080000000000000#64 : Weight) ≠ 0#64 := by decide

theorem witness_ReaderRebuildsTheTree : treeAt treeAAB.node 2 = some theTree ∧
    (∀ e ∈ theTree.preorder, e.w.toNat < 2 ^ 55 ∧ nodeRecord e ≠ 0#64) ∧
    readTreeSection (theTree.preorder.map nodeRecord ++ 0#64 :: []) = some theTree.shape :=
  ⟨theTree_read, by decide, by decide +kernel⟩

/-- PACK at the widest case of R201; a symbol without a code; out of phase; RSV not 0. -/
theorem witness_PackAppendsTheCodeBits :
    (let s := packer 0x7F#264 7#9 (BitVec.ofNat 256 (2 ^ 255 - 1)) 255#9
     s.phase = .pack ∧ PackerInv s ∧ (symGet s.len 0x10#8).toNat = 255 ∧ s.sinkTakes 32 = true) ∧
    (packAAB.phase = .pack ∧ (symGet packAAB.len 0x43#8).toNat = 0) ∧
    (let s := { packer 0#264 7#9 0#256 1#9 with sinkScript := [.ioError] }
     s.phase = .pack ∧ (symGet s.len 0x10#8).toNat = 1 ∧ 0 < (s.off.toNat + 1) / 8 ∧ s.sinkTakes 0 = true ∧
        s.sinkScript[0]? = some .ioError) ∧
    (treeAAB.phase ≠ .pack ∧ treeAAB.phase ≠ .fault) ∧
    (0x00014109#32).extractLsb' 0 8 = 0x09#8 ∧ (0x00014109#32).extractLsb' 16 16 ≠ 0#16 :=
  ⟨⟨rfl, ⟨by decide +kernel, by decide +kernel, by decide⟩, by decide +kernel, by decide +kernel⟩,
    ⟨rfl, by decide +kernel⟩, by decide +kernel, by decide, by decide⟩

theorem witness_FlushEmitsTheLastByte :
    ((codesAAB .pack).phase = .pack ∧ (codesAAB .pack).off = 0#9) ∧
    (packAAB.phase = .pack ∧ 0 < packAAB.off.toNat ∧ packAAB.sinkTakes 1 = true ∧ PackerInv packAAB) ∧
    ({ packAAB with sinkScript := [.ioError] }.sinkScript.head? = some .ioError ∧ (codesAAB .done).phase = .done) ∧
    (State.reset.phase ≠ .pack ∧ State.reset.phase ≠ .fault) ∧
    (0x0000010A#32).extractLsb' 0 8 = 0x0A#8 ∧ (0x0000010A#32).extractLsb' 8 8 ≠ 0#8 :=
  ⟨by decide, ⟨rfl, by decide +kernel, by decide, inv_pack.2.1⟩, by decide, by decide, by decide⟩

/-- The bounds of the two statements about single values: the last bit of the longest code, and the last byte. -/
theorem witness_ReversedCodeBits : (254 : Nat) < 255 ∧ (255 : Nat) ≤ 255 ∧ revCode 0b10#256 2 = 0b01 := by decide

theorem witness_RecordsAreLittleEndian : 7 < (bytesLE 0x4100000000000007#64).length := by decide

theorem witness_WellFormedWordsAreExactlyTheCommands :
    decode 0x0000FF09#32 = .ok (.pack 0xFF#8) ∧ encode (.pack 0xFF#8) = 0x0000FF09#32 := by decide

/-- The second pass over "AAB" itself, so each symbol is packed FREQ times. -/
theorem witness_SecondPassPacksTheCodes :
    let s := codesAAB .pack
    s.phase = .pack ∧ s.off = 0#9 ∧ s.acc = 0#264 ∧
      (∀ x ∈ [0x41#8, 0x41#8, 0x42#8], symGet s.len x ≠ 0#9 ∧ (symGet s.len x).toNat ≤ 255) ∧
      s.sinkTakes ((([0x41#8, 0x41#8, 0x42#8].map fun x => (symGet s.len x).toNat).sum + 7) / 8) = true ∧
      ∀ x : Sym, [0x41#8, 0x41#8, 0x42#8].count x = (symGet s.freq x).toNat := by
  refine ⟨rfl, rfl, rfl, by decide +kernel, by decide +kernel, fun x => ?_⟩
  by_cases h1 : x = 0x41#8
  · subst h1; decide +kernel
  · by_cases h2 : x = 0x42#8
    · subst h2; decide +kernel
    · simp [codesAAB, treeAAB, countAAB, tableOf, symGet_symSet, State.reset, h1, h2, Ne.symm h1, Ne.symm h2]

theorem witness_EveryStepKeepsTheInvariants :
    BlockInv { packAAB with hostQueue := [writeCmd 0x00004109#32] } ∧
    ∃ t, step { packAAB with hostQueue := [writeCmd 0x00004109#32] } = .next t ∧ (t.off == 2#9) = true :=
  ⟨⟨total_AAB, inv_pack.2.1, degen_AAB, theTree, forest_AAB.congr rfl rfl rfl rfl, rfl, codes_AAB .pack⟩,
    of_nextIs (by decide +kernel)⟩

theorem witness_EveryStepKeepsTotalTheSumOfFreq : TotalInv countAAB ∧
    ∃ t, step (countAAB.withFetchWord 32 0x4302) = .next t ∧ (t.total == 4#64) = true :=
  ⟨total_AAB, of_nextIs (by decide +kernel)⟩

theorem witness_EveryStepKeepsThePackerInvariant : PackerInv packAAB ∧
    ∃ t, step (packAAB.withFetchWord 32 0x4209) = .next t ∧ (t.off == 2#9 && t.acc == 1#264) = true :=
  ⟨inv_pack.2.1, of_nextIs (by decide +kernel)⟩

/-- A command that ends in each phase but FAULT, from a state within the invariants. -/
theorem witness_TheInvariantsOfR40Hold :
    (BlockInv countAAB ∧ ∃ t, exec (.count 0x43#8) countAAB = .next t ∧ (t.phase == .count) = true) ∧
    (BlockInv forestABC ∧ ∃ t, exec .merge forestABC = .next t ∧ (t.phase == .merge) = true) ∧
    (BlockInv treeAAB ∧ ∃ t, exec .build treeAAB = .next t ∧ (t.phase == .tree) = true) ∧
    (BlockInv treeAAB ∧ ∃ t, exec .gencodes treeAAB = .next t ∧ (t.phase == .coded) = true) ∧
    (BlockInv (codesAAB .coded) ∧ ∃ t, exec .serialize (codesAAB .coded) = .next t ∧ (t.phase == .pack) = true) ∧
    (BlockInv packAAB ∧ ∃ t, exec .flush packAAB = .next t ∧ (t.phase == .done) = true) :=
  ⟨⟨inv_count, of_nextIs (by decide +kernel)⟩, ⟨inv_merge, of_nextIs (by decide +kernel)⟩,
    ⟨inv_tree, of_nextIs (by decide +kernel)⟩, ⟨inv_tree, of_nextIs (by decide +kernel)⟩,
    ⟨inv_coded, of_nextIs (by decide +kernel)⟩, ⟨inv_pack, of_nextIs (by decide +kernel)⟩⟩

/-- FAULT is within the invariants too. -/
theorem test_inv_fault : BlockInv { codesAAB .coded with phase := .fault, err := .sequence } ∧
    BlockInv (codesAAB .done) := ⟨inv_fault, inv_done⟩

theorem witness_TreeShape : BlockInv treeAAB ∧ treeAAB.phase ∈ [Phase.tree, .coded, .pack, .done] :=
  ⟨inv_tree, by decide⟩

/-- "AAB" through the whole operation, on a sink that takes every byte. -/
theorem witness_EncodeOperationEmitsTheContainer :
    ([0x41#8, 0x41#8, 0x42#8] : List Byte) ≠ [] ∧ ([0x41#8, 0x41#8, 0x42#8] : List Byte).length ≤ 2 ^ 64 - 1 ∧
      faulted5.sinkScript.all (· == .takes) = true ∧
      ∃ t, execAll (encodeCommands [0x41#8, 0x41#8, 0x42#8]) faulted5 = .next t ∧
        (t.completed && t.out.drop 8 == [0x06#8, 0#8, 0#8, 0#8, 0#8, 0#8, 0#8, 0#8, 0x03#8, 0#8, 0#8, 0#8, 0#8, 0#8, 0#8,
          0x42#8, 0x05#8, 0#8, 0#8, 0#8, 0#8, 0#8, 0#8, 0x41#8, 0#8, 0#8, 0#8, 0#8, 0#8, 0#8, 0#8, 0#8, 0x03#8]) = true :=
  ⟨by decide, by decide, by decide, of_nextIs (by decide +kernel)⟩

end Sys2Proof.Tests
end

section
/-! PROOFS, family 10_state: what a step can do, by what it does to the block (spec R74, R231, R233, R252, R290). -/

namespace Sys2Proof.Machine

/-! ## Commands and their words (R95, R97) -/

/-- A word that decodes is the word of the command it decodes to (R97). -/
theorem encode_of_decode {v : Word32} {i : Instr} (h : decode v = .ok i) : encode i = v := by
  unfold decode at h
  split at h
  case isFalse => cases h
  case isTrue hr =>
    rw [eq_cmdWord v hr]
    unfold decodeOp at h
    have hop : ∀ {n : Nat}, (fieldOp v).toNat = n → fieldOp v = BitVec.ofNat 8 n := fun e => by
      rw [← e, BitVec.ofNat_toNat, BitVec.setWidth_eq]
    split at h
    case h_11 => cases h
    case h_2 e | h_3 e | h_9 e => cases h; rw [hop e]; rfl
    all_goals
      rename_i e
      obtain ⟨hs, rfl⟩ := plainCommand_ok h
      rw [hop e, hs]; rfl

/-! ## Every next state of a command, in FAULT and outside (R233, R254) -/

/-- A command either is CLEAR, or changes nothing because the block is in FAULT, or is one of a state outside FAULT. -/
theorem exec_next_cases {i : Instr} {s t : State} (h : exec i s = .next t) :
    (i = .clear ∧ t = resetBlock s) ∨ (i ≠ .clear ∧ s.phase = .fault ∧ t = s) ∨
      (i ≠ .clear ∧ s.phase ≠ .fault ∧ ExecNext s i t) := by
  by_cases hi : i = .clear
  · subst hi; cases h; exact .inl ⟨rfl, rfl⟩
  · by_cases hp : s.phase = .fault
    · rw [exec_in_fault hp, if_neg hi] at h
      cases h; exact .inr (.inl ⟨hi, hp, rfl⟩)
    · exact .inr (.inr ⟨hi, hp, exec_next hp h⟩)

/-! ## Every next state of a step -/

/-- The host is about to reset the block, by the reset signal or by the word of CLEAR (R255, R290). -/
def State.aboutToReset (s : State) : Prop :=
  ∃ rest, s.hostQueue = .reset :: rest ∨ s.hostQueue = .write 0x0000#16 32 0x00000001#32 :: rest

/-- Every next state a step can answer: only the host's side and the DATA registers change, or the block is reset, or an
ill-formed word faults, or a command other than CLEAR runs outside FAULT. -/
inductive StepNext (s : State) : State → Prop where
  | bus (q : List HostAccess) (r : List Word32) (lo hi : Word32) :
      StepNext s { s with hostQueue := q, readLog := r, dataLo := lo, dataHi := hi }
  | reset (q : List HostAccess) (hq : s.aboutToReset) : StepNext s (resetBlock { s with hostQueue := q })
  | illegal (q : List HostAccess) (hp : s.phase ≠ .fault) :
      StepNext s (State.faultedWith { s with hostQueue := q } .illegalCmd)
  | command (q : List HostAccess) (i : Instr) (t : State) (hp : s.phase ≠ .fault) (hi : i ≠ .clear)
      (h : ExecNext { s with hostQueue := q } i t) : StepNext s t

/-- A CMD write as a step: its four branches (R233). -/
theorem stepNext_of_onCmdWrite {s t : State} {q : List HostAccess} {v : Word32}
    (hq : s.hostQueue = .write 0x0000#16 32 v :: q) (h : onCmdWrite v { s with hostQueue := q } = .next t) :
    StepNext s t := by
  rcases onCmdWrite_cases v { s with hostQueue := q } with ⟨-, rfl, e⟩ | ⟨-, -, e⟩ | ⟨hp, -, e⟩ | ⟨hp, i, hd, e⟩
  all_goals rw [e] at h
  · cases h; exact .reset q ⟨q, .inr hq⟩
  · cases h; exact .bus q s.readLog s.dataLo s.dataHi
  · cases h; exact .illegal q hp
  · by_cases hi : i = .clear
    · subst hi
      cases h
      obtain rfl : 0x00000001#32 = v := encode_of_decode hd
      exact .reset q ⟨q, .inr hq⟩
    · exact .command q i t hp hi (exec_next hp h)

/-- Everything a step can answer as a next state. -/
theorem stepNext_of_step {s t : State} (h : step s = .next t) : StepNext s t := by
  rcases step_next h with ⟨-, rfl⟩ | ⟨q, ⟨hq, rfl⟩ | ⟨off, -, -, rfl⟩ | ⟨v, hq, hc⟩ | ⟨v, -, rfl⟩ | ⟨v, -, rfl⟩ |
    ⟨off, v, -, -, rfl⟩⟩
  · exact .bus t.hostQueue t.readLog t.dataLo t.dataHi
  · exact .reset q ⟨q, .inl hq⟩
  · exact .bus q _ s.dataLo s.dataHi
  · exact stepNext_of_onCmdWrite hq hc
  · exact .bus q s.readLog v s.dataHi
  · exact .bus q s.readLog s.dataLo v
  · exact .bus q s.readLog s.dataLo s.dataHi

/-- An invariant of the block: whatever holds after a reset, does not look at the host's side or the DATA registers, and is
kept by the fault entry and by every command outside FAULT, is kept by every step. -/
theorem step_keeps {P : State → Prop} (hreset : ∀ s, P (resetBlock s))
    (hbus : ∀ s q r lo hi, P s → P { s with hostQueue := q, readLog := r, dataLo := lo, dataHi := hi })
    (hexec : ∀ {i s t}, ExecNext s i t → s.phase ≠ .fault → P s → P t)
    {s t : State} (hs : P s) (h : step s = .next t) : P t := by
  have hq : ∀ q, P { s with hostQueue := q } := fun q => hbus s q s.readLog s.dataLo s.dataHi hs
  cases stepNext_of_step h with
  | bus q r lo hi => exact hbus s q r lo hi hs
  | reset q _ => exact hreset _
  | illegal q hp => exact hexec (.fault .clear _ nofun nofun) hp (hq q)
  | command q i t hp _ hc => exact hexec hc hp (hq q)

/-- The step of the reset signal (R290). -/
theorem step_reset {s : State} {rest : List HostAccess} (h : s.hostQueue = .reset :: rest) :
    step s = .next (resetBlock { s with hostQueue := rest }) := by
  simp [step, performNext, h, hostAccess]

/-! ## ERR (R22) -/

/-- SINK_IO outside FAULT writes its code (R256). -/
theorem sinkIoFault_err {s : State} (h : s.phase ≠ .fault) : (sinkIoFault s).err = .sinkIo := by
  simp [sinkIoFault, raiseFault_of_ne h]

theorem MergeFrame.err {s t : State} (h : MergeFrame s t) : t.err = s.err := by rw [h.1]

/-- A command outside FAULT writes ERR by the fault entry only, or it is CLEAR (R22). -/
theorem ExecNext.err_cases {i : Instr} {s t : State} (h : ExecNext s i t) (hp : s.phase ≠ .fault) (hi : i ≠ .clear) :
    t.err = s.err ∨ (t.err ≠ .none ∧ t.phase = .fault) := by
  cases h with
  | clear => exact absurd rfl hi
  | fault i e hnone => exact .inr ⟨hnone, rfl⟩
  | sinkError i n bs => exact .inr ⟨ne_of_eq_of_ne (sinkIoFault_err hp) nofun, sinkIoFault_phase _⟩
  | merge t _ hm => exact .inl (mergeOnce_frame hm).err
  | build t _ hm => exact .inl (mergeLoop_frame hm).err
  | count | setfreq | finit | buildTree | gencodes | serialize | pack | flush => exact .inl rfl

/-- Settles O9: of the ways a step can go, only the fault entry makes ERR nonzero and only the reset makes it 0. -/
theorem errIsStickyUntilResetOrClear : Obligations.ErrIsStickyUntilResetOrClear := by
  refine ⟨rfl, fun s t h hne => ?_⟩
  cases stepNext_of_step h with
  | bus => exact absurd rfl hne
  | reset q hq => exact .inr ⟨rfl, hq⟩
  | illegal q hp => exact .inl ⟨nofun, hp, rfl⟩
  | command q i t hp hi hc =>
    obtain ⟨herr, hfault⟩ := (hc.err_cases hp hi).resolve_left hne
    exact .inl ⟨herr, hp, hfault⟩

end Sys2Proof.Machine
end

section
/-! PROOFS, family 10_state: the invariants between commands, each kept by every command (spec R40, R136, R164). -/

namespace Sys2Proof.Machine

/-! ## What a merge leaves (R131) -/

theorem MergeFrame.freq {s t : State} (h : MergeFrame s t) : t.freq = s.freq := by rw [h.1]
theorem MergeFrame.total {s t : State} (h : MergeFrame s t) : t.total = s.total := by rw [h.1]
theorem MergeFrame.degen {s t : State} (h : MergeFrame s t) : t.degen = s.degen := by rw [h.1]
theorem MergeFrame.acc {s t : State} (h : MergeFrame s t) : t.acc = s.acc := by rw [h.1]
theorem MergeFrame.off {s t : State} (h : MergeFrame s t) : t.off = s.off := by rw [h.1]

/-! ## (I1): TOTAL is the sum of FREQ (R27) -/

/-- (I1) looks at FREQ and TOTAL only. -/
theorem TotalInv.congr {s t : State} (h : TotalInv s) (hf : t.freq = s.freq) (ht : t.total = s.total) : TotalInv t := by
  unfold TotalInv; rw [hf, ht]; exact h

theorem totalInv_resetBlock (s : State) : TotalInv (resetBlock s) := by
  have hzero : ∀ n ∈ (resetBlock s).freq.toList.map BitVec.toNat, n = 0 := by
    rw [toList_eq_map_symbols, List.map_map]
    exact List.forall_mem_map.2 fun x _ => congrArg BitVec.toNat (symGet_replicate 0#64 x)
  exact (List.sum_eq_zero hzero).symm

/-- (I1) bounds every count by TOTAL. -/
theorem TotalInv.symGet_le {s : State} (h : TotalInv s) (x : Sym) : (symGet s.freq x).toNat ≤ s.total.toNat :=
  h ▸ symGet_le_freqSum s.freq x

/-- Writing one count keeps (I1) when TOTAL moves by the difference of the new and the old count. -/
theorem TotalInv.write {s t : State} (h : TotalInv s) {x : Sym} {w : Weight} (hf : t.freq = symSet s.freq x w)
    (ht : t.total.toNat + (symGet s.freq x).toNat = s.total.toNat + w.toNat) : TotalInv t := by
  have hsum := freqSum_symSet s.freq x w
  unfold TotalInv at *
  rw [hf]
  omega

/-- COUNT adds one to a count and to TOTAL, and neither wraps (R110). -/
theorem TotalInv.count {s : State} (h : TotalInv s) (x : Sym) (ht : s.total.toNat ≠ Config.totalMax) :
    TotalInv { s with freq := symSet s.freq x (symGet s.freq x + 1#64), total := s.total + 1#64 } := by
  refine h.write (w := symGet s.freq x + 1#64) rfl ?_
  have hle := h.symGet_le x
  have hlt := s.total.isLt
  simp only [Config.totalMax] at ht
  simp only [BitVec.toNat_add, BitVec.toNat_ofNat]
  omega

/-- SETFREQ replaces a count; T' is neither negative nor above 2^64 - 1 (R111). -/
theorem TotalInv.setfreq {s : State} (h : TotalInv s) (x : Sym) (ht : setfreqTotal x s ≤ Config.totalMax) :
    TotalInv { s with freq := symSet s.freq x s.dataOperand, total := BitVec.ofInt 64 (setfreqTotal x s) } := by
  refine h.write (w := s.dataOperand) rfl ?_
  have hle := h.symGet_le x
  simp only [setfreqTotal, Config.totalMax] at ht
  simp only [setfreqTotal, BitVec.toNat_ofInt]
  omega

theorem ExecNext.keeps_totalInv {i : Instr} {s t : State} (h : ExecNext s i t) (hs : TotalInv s) : TotalInv t := by
  cases h with
  | clear => exact totalInv_resetBlock s
  | count x _ ht => exact hs.count x ht
  | setfreq x _ ht => exact hs.setfreq x ht
  | merge t _ hm => exact hs.congr (mergeOnce_frame hm).freq (mergeOnce_frame hm).total
  | build t _ hm => exact hs.congr (mergeLoop_frame hm).freq (mergeLoop_frame hm).total
  | sinkError => exact hs.congr (sinkIoFault_freq _) (sinkIoFault_total _)
  | fault | finit | buildTree | gencodes | serialize | pack | flush => exact hs.congr rfl rfl

/-- Settles O44: only COUNT and SETFREQ write FREQ outside a reset, and they move TOTAL with it. -/
theorem everyStepKeepsTotalTheSumOfFreq : Obligations.EveryStepKeepsTotalTheSumOfFreq := fun _ _ hs h =>
  step_keeps totalInv_resetBlock (fun _ _ _ _ _ hs => hs.congr rfl rfl) (fun hc _ hs => hc.keeps_totalInv hs) hs h

/-! ## (I6) and (I7): the packer (R35, R36) -/

/-- Where the packer's registers are unchanged, (I6) and (I7) stay if no phase before PACK is entered from PACK on. -/
theorem PackerInv.congr {s t : State} (h : PackerInv s) (ho : t.off = s.off) (ha : t.acc = s.acc)
    (hp : t.phase = .count ∨ t.phase = .merge ∨ t.phase = .tree ∨ t.phase = .coded →
      s.phase = .count ∨ s.phase = .merge ∨ s.phase = .tree ∨ s.phase = .coded) : PackerInv t := by
  obtain ⟨hoff, hacc, hzero⟩ := h
  unfold PackerInv
  rw [ho, ha]
  exact ⟨hoff, hacc, fun ht => hzero (hp ht)⟩

/-- An empty packer meets (I6) and (I7) in every phase. -/
theorem packerInv_of_zero {s : State} (ho : s.off = 0#9) (ha : s.acc = 0#264) : PackerInv s := by
  rw [PackerInv, ho, ha]
  exact ⟨by decide, BitVec.toNat_zero.trans_lt (Nat.two_pow_pos _), fun _ => ⟨rfl, rfl⟩⟩

/-- PACK leaves fewer than eight waiting bits (R203). -/
theorem PackerInv.pack {s t : State} (h : PackerInv s) (x : Sym) (hp : t.phase = .pack)
    (ho : t.off = BitVec.ofNat 9 (packDrain x s).off) (ha : t.acc = (packDrain x s).acc) : PackerInv t := by
  obtain ⟨-, hlt, -⟩ := h
  have hacc := packDrain_acc_lt x s hlt
  have hoff : t.off.toNat = (s.off.toNat + (symGet s.len x).toNat) % 8 := by
    rw [ho, packDrain_off, BitVec.toNat_ofNat]; omega
  refine ⟨by omega, by rw [ha, hoff]; exact hacc, by simp [hp]⟩

theorem ExecNext.keeps_packerInv {i : Instr} {s t : State} (h : ExecNext s i t) (hs : PackerInv s) : PackerInv t := by
  cases h with
  | clear => exact packerInv_of_zero rfl rfl
  | fault i e => exact hs.congr rfl rfl nofun
  | sinkError => exact hs.congr (sinkIoFault_off _) (sinkIoFault_acc _) (by simp)
  | count | setfreq | buildTree => exact hs.congr rfl rfl id
  | finit hp => exact hs.congr rfl rfl (by simp [hp])
  | merge t hp hm => exact hs.congr (mergeOnce_frame hm).off (mergeOnce_frame hm).acc (by simp [hp])
  | build t hp hm => exact hs.congr (mergeLoop_frame hm).off (mergeLoop_frame hm).acc (by simp [hp])
  | gencodes _ hp | serialize _ hp => exact hs.congr rfl rfl (by simp [hp])
  | pack x hp => exact hs.pack x hp rfl rfl
  | flush => exact packerInv_of_zero rfl rfl

/-- Settles O45: PACK leaves OFF mod 8 waiting bits, FLUSH and a reset none, and no other command touches the packer. -/
theorem everyStepKeepsThePackerInvariant : Obligations.EveryStepKeepsThePackerInvariant := fun _ _ hs h =>
  step_keeps (fun _ => packerInv_of_zero rfl rfl) (fun _ _ _ _ _ hs => hs.congr rfl rfl id)
    (fun hc _ hs => hc.keeps_packerInv hs) hs h

end Sys2Proof.Machine
end

section
/-! PROOFS, family 10_state: the tables in each phase, and the whole invariant between commands (spec R40, R132, R136, R164). -/

namespace Sys2Proof.Machine

/-! ## The invariant of the tables, phase by phase -/

/-- What the tables hold from GENCODES on: one tree under ROOT, and its codes (R136, R164). -/
def CodedInv (s : State) : Prop :=
  s.degen = TreeInv.degenOf s ∧ ∃ t, HoldsForest s [t] ∧ s.root.toNat = t.idx ∧ HoldsCodes s t

theorem treeInv_of_count {s : State} (hp : s.phase = .count) : TreeInv s ↔
    { s with freq := State.reset.freq, total := 0#64, dataLo := 0#32, dataHi := 0#32 } = resetBlock s := by
  simp only [TreeInv, hp]

theorem treeInv_of_merge {s : State} (hp : s.phase = .merge) :
    TreeInv s ↔ s.degen = false ∧ 2 ≤ s.forest ∧ ∃ ts, HoldsForest s ts := by
  simp only [TreeInv, hp]

theorem treeInv_of_tree {s : State} (hp : s.phase = .tree) :
    TreeInv s ↔ s.degen = TreeInv.degenOf s ∧ ∃ t, HoldsForest s [t] ∧ s.root.toNat = t.idx := by
  simp only [TreeInv, hp]

theorem treeInv_of_coded {s : State} (hp : s.phase = .coded ∨ s.phase = .pack ∨ s.phase = .done) :
    TreeInv s ↔ CodedInv s := by
  rcases hp with hp | hp | hp <;> simp only [TreeInv, CodedInv, hp]

theorem treeInv_of_fault {s : State} (hp : s.phase = .fault) : TreeInv s := by
  simp only [TreeInv, hp]

/-! ## What the tables' invariant looks at -/

/-- The counts, the arena, DEGEN and the code tables are as before. -/
structure SameTables (s t : State) : Prop where
  freq : t.freq = s.freq
  node : t.node = s.node
  nnodes : t.nnodes = s.nnodes
  active : t.active = s.active
  root : t.root = s.root
  degen : t.degen = s.degen
  code : t.code = s.code
  len : t.len = s.len

theorem SameTables.forest {s t : State} (h : SameTables s t) {ts : List Tree} (hs : HoldsForest s ts) :
    HoldsForest t ts := hs.congr h.node h.nnodes h.active h.freq

/-- NSYM looks at FREQ only (R28). -/
theorem nsym_congr {s t : State} (h : t.freq = s.freq) : t.nsym = s.nsym := by rw [State.nsym, State.nsym, h]

theorem SameTables.degenOf {s t : State} (h : SameTables s t) (hs : s.degen = TreeInv.degenOf s) :
    t.degen = TreeInv.degenOf t := by
  rw [h.degen, hs, TreeInv.degenOf, TreeInv.degenOf, nsym_congr h.freq]

theorem CodedInv.congr {s t : State} (hs : CodedInv s) (h : SameTables s t) : CodedInv t := by
  obtain ⟨hd, tr, hf, hr, hc⟩ := hs
  refine ⟨h.degenOf hd, tr, h.forest hf, h.root ▸ hr, ?_⟩
  unfold HoldsCodes at *
  rw [h.degen, h.code, h.len]
  exact hc

/-- After COUNT, the invariant of the tables looks at the tables and PHASE only. -/
theorem TreeInv.congr {s t : State} (hs : TreeInv s) (h : SameTables s t) (hp : t.phase = s.phase)
    (hne : s.phase ≠ .count) : TreeInv t := by
  cases hps : s.phase with
  | count => exact absurd hps hne
  | merge =>
    obtain ⟨hd, hf, ts, hts⟩ := (treeInv_of_merge hps).1 hs
    refine (treeInv_of_merge (hp.trans hps)).2 ⟨h.degen.trans hd, ?_, ts, h.forest hts⟩
    rwa [(h.forest hts).forest_eq, ← hts.forest_eq]
  | tree =>
    obtain ⟨hd, tr, htr, hr⟩ := (treeInv_of_tree hps).1 hs
    exact (treeInv_of_tree (hp.trans hps)).2 ⟨h.degenOf hd, tr, h.forest htr, h.root ▸ hr⟩
  | coded | pack | done =>
    have hcoded : s.phase = .coded ∨ s.phase = .pack ∨ s.phase = .done := by simp [hps]
    exact (treeInv_of_coded (hp ▸ hcoded)).2 (((treeInv_of_coded hcoded).1 hs).congr h)
  | fault => exact treeInv_of_fault (hp.trans hps)

/-- The invariant of the tables does not look at the host's side or the DATA registers. -/
theorem TreeInv.bus {s : State} (h : TreeInv s) (q : List HostAccess) (r : List Word32) (lo hi : Word32) :
    TreeInv { s with hostQueue := q, readLog := r, dataLo := lo, dataHi := hi } := by
  by_cases hp : s.phase = .count
  · refine (treeInv_of_count (by exact hp)).2 ?_
    exact congrArg (fun u : State => { u with hostQueue := q, readLog := r }) ((treeInv_of_count hp).1 h)
  · exact h.congr ⟨rfl, rfl, rfl, rfl, rfl, rfl, rfl, rfl⟩ rfl hp

theorem treeInv_resetBlock (s : State) : TreeInv (resetBlock s) := (treeInv_of_count rfl).2 rfl

/-! ## FINIT, MERGE and BUILD (R132, R133, R134) -/

/-- FINIT loads a forest of at least two leaves, or the one leaf of the degenerate case (R132). -/
theorem treeInv_finit (s : State) (hn : s.nsym ≠ 0) {t : State} (hnode : t.node = finitArena s.freq)
    (hnn : t.nnodes = BitVec.ofNat 10 s.nsym) (hact : t.active = arenaTable fun i => decide (i < s.nsym))
    (hfreq : t.freq = s.freq) (hroot : t.root = 0#9) (hdeg : t.degen = degenFlag s.nsym)
    (hphase : t.phase = if s.nsym = 1 then .tree else .merge) : TreeInv t := by
  have hf := holdsForest_finit t hnode hnn hact hfreq
  by_cases h1 : s.nsym = 1
  · obtain ⟨p, hp⟩ := List.length_eq_one_iff.1 ((mapping_length s).trans h1)
    rw [hp] at hf
    refine (treeInv_of_tree (hphase.trans (if_pos h1))).2 ⟨?_, _, hf, ?_⟩
    · rw [hdeg, degenFlag, TreeInv.degenOf, nsym_congr hfreq]
    · rw [hroot]; rfl
  · refine (treeInv_of_merge (hphase.trans (if_neg h1))).2 ⟨?_, ?_, _, hf⟩
    · simp [hdeg, degenFlag, h1]
    · rw [hf.forest_eq, leafTrees, List.length_mapIdx, mapping_length]; omega

/-- One merge of a forest of two or more trees leaves a forest, or the finished tree under ROOT (R131, R133). -/
theorem treeInv_mergeOnce {s t : State} (hp : s.phase = .merge) (htot : TotalInv s) (hs : TreeInv s)
    (h : mergeOnce s = .ok t) : TreeInv t := by
  obtain ⟨hdeg, hfor, ts, hts⟩ := (treeInv_of_merge hp).1 hs
  rw [hts.forest_eq] at hfor
  obtain ⟨m1, m2, hk, t1, t2, rest, -, -, -, -, -, hok, -, -, -, -, hf⟩ := hts.merge_step htot hfor
  obtain rfl := Except.ok.inj (h.symm.trans hok)
  have hframe := mergeOnce_frame h
  have hphase := mergePair_phase m1 m2 _ hk s
  by_cases h1 : (mergePair m1 m2 _ hk s).forest = 1
  · rw [if_pos h1] at hphase
    have hrest : rest = [] := by
      rw [hf.forest_eq] at h1; simpa using h1
    subst hrest
    refine (treeInv_of_tree hphase).2 ⟨?_, _, hf, ?_⟩
    · have hnsym : s.nsym ≠ 1 := by have := hts.counts.2; omega
      rw [hframe.degen, hdeg, TreeInv.degenOf, nsym_congr hframe.freq]
      simpa using hnsym
    · rw [mergePair_root, if_pos h1, BitVec.toNat_ofNat, Nat.mod_eq_of_lt (by omega)]; rfl
  · rw [if_neg h1, hp] at hphase
    refine (treeInv_of_merge hphase).2 ⟨hframe.degen.trans hdeg, ?_, _, hf⟩
    have hpos : (mergePair m1 m2 _ hk s).forest ≠ 0 := by rw [hf.forest_eq]; simp
    omega

/-- BUILD's merges keep the invariant of the tables; the loop ends once one tree is left (R134). -/
theorem treeInv_mergeLoop {fuel : Nat} {s t : State} (hp : s.phase = .merge ∨ s.phase = .tree) (htot : TotalInv s)
    (hs : TreeInv s) (h : mergeLoop fuel s = .ok t) : TreeInv t := by
  induction fuel generalizing s with
  | zero => exact Except.ok.inj ((mergeLoop_zero s).symm.trans h) ▸ hs
  | succ fuel ih =>
    by_cases hf : s.forest > 1
    · have hm : s.phase = .merge := hp.resolve_right fun htree => by
        obtain ⟨-, tr, htr, -⟩ := (treeInv_of_tree htree).1 hs
        rw [htr.forest_eq] at hf
        simp at hf
      cases hu : mergeOnce s with
      | error e => exact (error_ne_ok ((mergeLoop_error hf hu).symm.trans h)).elim
      | ok u =>
        have hframe := mergeOnce_frame hu
        exact ih (hm ▸ hframe.2) (htot.congr hframe.freq hframe.total) (treeInv_mergeOnce hm htot hs hu)
          ((mergeLoop_ok hf hu).symm.trans h)
    · exact Except.ok.inj ((mergeLoop_stop hf).symm.trans h) ▸ hs

/-! ## GENCODES (R161, R162) -/

/-- The root's entry is the one GENCODES looks up in the degenerate case (R162). -/
theorem HoldsForest.arenaGet_root {s : State} {t : Tree} (h : HoldsForest s [t]) (hr : s.root.toNat = t.idx) :
    arenaGet s.node s.root = some t.entry := by
  obtain ⟨hi, he⟩ := h.entry_eq (t := t) (by simp)
  rw [arenaGet, hr, Vector.getElem?_eq_getElem hi, he]

/-- The degenerate case gives the sole symbol the one-bit code 0 and no other symbol a code (R162). -/
theorem cleared_assign_sole (x y : Sym) :
    symGet (CodeTables.cleared.assign x 0#256 1).code y = 0#256 ∧
      symGet (CodeTables.cleared.assign x 0#256 1).len y = if y = x then 1#9 else 0#9 := by
  simp [CodeTables.assign, CodeTables.cleared, symGet_symSet]

/-- The tables GENCODES fills hold the codes of the tree under ROOT (R161, R162). -/
theorem holdsCodes_genTables {s u : State} {t : Tree} {tb : CodeTables} (h : HoldsForest s [t])
    (hr : s.root.toNat = t.idx) (hg : genTables s = some tb) (hd : u.degen = s.degen) (hc : u.code = tb.code)
    (hl : u.len = tb.len) : HoldsCodes u t := by
  rw [HoldsCodes, hd, hc, hl]
  refine ⟨fun hdeg x => ?_, fun hdeg => ?_⟩
  · rw [genTables, if_pos hdeg, h.arenaGet_root hr] at hg
    obtain rfl := Option.some.inj hg
    exact cleared_assign_sole t.entry.sym x
  · obtain ⟨hread, -, hdepth, hsize⟩ := h.tree_facts hr
    rw [genTables_eq hdeg hread (Nat.lt_succ_of_le hdepth) hsize] at hg
    obtain rfl := Option.some.inj hg
    have hnd : (t.paths.map Prod.fst).Nodup := by simpa [Tree.paths_map_fst] using h.leaf_syms_nodup
    refine ⟨fun p hp => ?_, fun x hx => ?_⟩
    · have hassign := assignPaths_of_mem (tb := .cleared) (c := 0#256) (d := 0) hp hnd
      rwa [pathWord_zero, Nat.zero_add] at hassign
    · have hassign := assignPaths_of_not_mem (tb := .cleared) (c := 0#256) (d := 0) hx
      simpa [CodeTables.cleared] using hassign

theorem treeInv_gencodes {s : State} {tb : CodeTables} (hp : s.phase = .tree) (hs : TreeInv s)
    (hg : genTables s = some tb) : TreeInv { s with code := tb.code, len := tb.len, phase := .coded } := by
  obtain ⟨hd, t, ht, hr⟩ := (treeInv_of_tree hp).1 hs
  exact (treeInv_of_coded (.inl rfl)).2
    ⟨hd, t, ht.congr rfl rfl rfl rfl, hr, holdsCodes_genTables ht hr hg rfl rfl rfl⟩

/-! ## Every command -/

theorem ExecNext.keeps_treeInv {i : Instr} {s t : State} (h : ExecNext s i t) (htot : TotalInv s) (hs : TreeInv s) :
    TreeInv t := by
  cases h with
  | clear => exact treeInv_resetBlock s
  | fault | sinkError => exact treeInv_of_fault (by simp [State.faultedWith])
  | count x hp | setfreq x hp => exact (treeInv_of_count (by exact hp)).2 ((treeInv_of_count hp).1 hs)
  | finit _ hn => exact treeInv_finit s hn rfl rfl rfl rfl rfl rfl rfl
  | merge t hp hm => exact treeInv_mergeOnce hp htot hs hm
  | build t hp hm => exact treeInv_mergeLoop (.inl hp) htot hs hm
  | buildTree => exact hs
  | gencodes tb hp hg => exact treeInv_gencodes hp hs hg
  | serialize es hp =>
    have hcoded := (treeInv_of_coded (.inl hp)).1 hs
    exact (treeInv_of_coded (.inr (.inl rfl))).2 (hcoded.congr ⟨rfl, rfl, rfl, rfl, rfl, rfl, rfl, rfl⟩)
  | pack x hp => exact hs.congr ⟨rfl, rfl, rfl, rfl, rfl, rfl, rfl, rfl⟩ rfl (by simp [hp])
  | flush hp =>
    have hcoded := (treeInv_of_coded (.inr (.inl hp))).1 hs
    exact (treeInv_of_coded (.inr (.inr rfl))).2 (hcoded.congr ⟨rfl, rfl, rfl, rfl, rfl, rfl, rfl, rfl⟩)

theorem ExecNext.keeps_blockInv {i : Instr} {s t : State} (h : ExecNext s i t) (hs : BlockInv s) : BlockInv t := by
  obtain ⟨htot, hpack, htree⟩ := hs
  exact ⟨h.keeps_totalInv htot, h.keeps_packerInv hpack, h.keeps_treeInv htot htree⟩

theorem blockInv_resetBlock (s : State) : BlockInv (resetBlock s) :=
  ⟨totalInv_resetBlock s, packerInv_of_zero rfl rfl, treeInv_resetBlock s⟩

/-- The block's invariant does not look at the host's side or the DATA registers. -/
theorem BlockInv.bus {s : State} (h : BlockInv s) (q : List HostAccess) (r : List Word32) (lo hi : Word32) :
    BlockInv { s with hostQueue := q, readLog := r, dataLo := lo, dataHi := hi } := by
  obtain ⟨htot, hpack, htree⟩ := h
  exact ⟨htot.congr rfl rfl, hpack.congr rfl rfl id, htree.bus q r lo hi⟩

/-- Settles O46: the three invariants hold after a reset, ignore the host's traffic, and every command keeps them. -/
theorem everyStepKeepsTheInvariants : Obligations.EveryStepKeepsTheInvariants := fun _ _ hs h =>
  step_keeps blockInv_resetBlock (fun _ q r lo hi hs => hs.bus q r lo hi) (fun hc _ hs => hc.keeps_blockInv hs) hs h

/-- Settles O43: State.reset is a block that was just reset. -/
theorem resetStateMeetsTheInvariants : Obligations.ResetStateMeetsTheInvariants := blockInv_resetBlock State.reset

end Sys2Proof.Machine
end

section
/-! PROOFS, family 10_state: (I1) to (I7) of R40, read off the invariant between commands. -/

namespace Sys2Proof.Machine

/-! ## The forest's phases -/

/-- The tables hold a forest in every phase from MERGE to DONE (R136). -/
theorem TreeInv.holdsForest {s : State} (h : TreeInv s) (hp : s.phase ∈ [.merge, .tree, .coded, .pack, .done]) :
    ∃ ts, HoldsForest s ts := by
  cases hps : s.phase with
  | count | fault => simp [hps] at hp
  | merge =>
    obtain ⟨-, -, hts⟩ := (treeInv_of_merge hps).1 h
    exact hts
  | tree =>
    obtain ⟨-, t, ht, -⟩ := (treeInv_of_tree hps).1 h
    exact ⟨[t], ht⟩
  | coded | pack | done =>
    obtain ⟨-, t, ht, -⟩ := (treeInv_of_coded (by simp [hps])).1 h
    exact ⟨[t], ht⟩

/-- In phase COUNT the arena is empty (R290). -/
theorem TreeInv.nnodes_of_count {s : State} (h : TreeInv s) (hp : s.phase = .count) : s.nnodes = 0#10 :=
  congrArg State.nnodes ((treeInv_of_count hp).1 h)

theorem exec_keeps_blockInv {i : Instr} {s t : State} (hs : BlockInv s) (h : exec i s = .next t) : BlockInv t := by
  rcases exec_next_cases h with ⟨-, rfl⟩ | ⟨-, -, rfl⟩ | ⟨-, -, hc⟩
  · exact blockInv_resetBlock s
  · exact hs
  · exact hc.keeps_blockInv hs

/-! ## (I1) and (I2): the sums -/

theorem TotalInv.sum_symbols {s : State} (h : TotalInv s) :
    s.total.toNat = (symbols.map fun x => (symGet s.freq x).toNat).sum := by
  rw [h, toList_eq_map_symbols, List.map_map]; rfl

/-- (I2): the active entries weigh TOTAL together. -/
theorem HoldsForest.activeWeight_eq_total {s : State} {ts : List Tree} (h : HoldsForest s ts) (htot : TotalInv s) :
    s.activeWeight = s.total.toNat := by
  rw [h.activeWeight_eq, h.weight, htot]

/-! ## (I3): the leaves of the arena -/

/-- The entry of a leaf is an entry of the mapping (R136). -/
theorem HoldsForest.leaf_mem_mapping {s : State} {ts : List Tree} (h : HoldsForest s ts) {i : Fin 511}
    (hi : i.val < s.nnodes.toNat) (hk : s.node[i].kind = .leaf) : (s.node[i].sym, s.node[i].w) ∈ s.mapping := by
  obtain ⟨t, ht, hmem⟩ := List.mem_flatMap.1 (h.cover.mem_iff.2 (List.mem_range.2 hi))
  refine h.leaves.mem_iff.1 (List.mem_flatMap.2 ⟨t, ht, ?_⟩)
  rw [Tree.leaves_eq]
  exact List.mem_map.2 ⟨_, readTree_leafNodes (h.read t ht) i.val i.isLt hmem hk, rfl⟩

/-- The leaves of a held forest are exactly the entries below NSYM (R29, R136). -/
theorem HoldsForest.kind_leaf_iff {s : State} {ts : List Tree} (h : HoldsForest s ts) (i : Fin 511) :
    s.node[i].kind = .leaf ↔ i.val < s.nsym := by
  have hlow : ∀ j : Fin 511, (hj : j.val < s.mapping.length) →
      s.node[j] = .leafOf s.mapping[j.val].1 s.mapping[j.val].2 := fun j hj => h.leafPart j.val hj j.isLt
  refine ⟨fun hk => ?_, fun hi => by rw [hlow i (by rwa [mapping_length])]; rfl⟩
  have hi : i.val < s.nnodes.toNat := by
    by_contra hge
    rw [Fin.getElem_fin, h.unused i.val i.isLt (by omega)] at hk
    cases hk
  obtain ⟨j, hj, he⟩ := List.mem_iff_getElem.1 (h.leaf_mem_mapping hi hk)
  have hjn : j < s.nsym := by rwa [mapping_length] at hj
  have hcounts := h.counts
  have hle := nsym_le s
  have hnode := hlow ⟨j, by omega⟩ hj
  have hij : i = ⟨j, by omega⟩ :=
    h.leaf_inj hi (show j < _ by omega) hk (by rw [hnode]; rfl) (by rw [hnode]; exact congrArg Prod.fst he.symm)
  rw [hij]; exact hjn

/-- The entries of a held forest with KIND = Leaf are NSYM in number (R40 I3). -/
theorem HoldsForest.leaf_count {s : State} {ts : List Tree} (h : HoldsForest s ts) :
    ((List.finRange 511).filter fun i => s.node[i].kind == .leaf).length = s.nsym := by
  have hle := nsym_le s
  have hperm : (((List.finRange 511).filter fun i => s.node[i].kind == .leaf).map Fin.val).Perm (List.range s.nsym) := by
    refine (List.perm_ext_iff_of_nodup (((List.nodup_finRange 511).filter _).map Fin.val_injective)
      List.nodup_range).2 fun i => ?_
    simp only [List.mem_map, List.mem_filter, List.mem_finRange, true_and, beq_iff_eq, h.kind_leaf_iff, List.mem_range]
    exact ⟨fun ⟨j, hj, e⟩ => e ▸ hj, fun hi => ⟨⟨i, by omega⟩, hi, rfl⟩⟩
  simpa using hperm.length_eq

/-! ## (I4): children below their parent -/

/-- In a tree whose children lie below their parents, so do LEFT and RIGHT of each of its internal entries (R40 I4). -/
theorem readTree_childrenBelow {node : Vector NodeEntry 511} {t : Tree} : ∀ {g i : Nat}, readTree node g i = some t →
    t.childrenBelow = true → ∀ j (_ : j < 511), j ∈ t.indices → node[j].kind = .internal →
      node[j].left.toNat < j ∧ node[j].right.toNat < j ∧ node[j].left ≠ node[j].right := by
  induction t with
  | leaf k e =>
    intro g i h _ j hj hm hk
    obtain ⟨g, rfl⟩ : ∃ g', g = g' + 1 := Nat.exists_eq_succ_of_ne_zero (by rintro rfl; simp [readTree] at h)
    obtain ⟨hi, ⟨hki, he⟩ | ⟨-, l, r, -, -, he⟩⟩ := readTree_succ h
    · cases he
      simp only [Tree.indices, List.mem_singleton] at hm
      subst hm
      rw [hki] at hk; cases hk
    · cases he
  | node k e l r hl hr =>
    intro g i h hb j hj hm hk
    obtain ⟨g, rfl⟩ : ∃ g', g = g' + 1 := Nat.exists_eq_succ_of_ne_zero (by rintro rfl; simp [readTree] at h)
    obtain ⟨hi, ⟨-, he⟩ | ⟨-, l', r', hl', hr', he⟩⟩ := readTree_succ h
    · cases he
    · cases he
      simp only [Tree.childrenBelow, Bool.and_eq_true, decide_eq_true_eq, bne_iff_ne] at hb
      obtain ⟨⟨⟨⟨hli, hri⟩, hne⟩, hbl⟩, hbr⟩ := hb
      simp only [Tree.indices, List.mem_cons, List.mem_append] at hm
      rcases hm with rfl | hm | hm
      · rw [(readTree_root hl').1] at hli hne
        rw [(readTree_root hr').1] at hri hne
        exact ⟨hli, hri, fun e => hne (congrArg BitVec.toNat e)⟩
      · exact hl hl' hbl j hj hm hk
      · exact hr hr' hbr j hj hm hk

theorem HoldsForest.children_below {s : State} {ts : List Tree} (h : HoldsForest s ts) {i : Nat} (h511 : i < 511)
    (hi : i < s.nnodes.toNat) (hk : s.node[i].kind = .internal) :
    s.node[i].left.toNat < i ∧ s.node[i].right.toNat < i ∧ s.node[i].left ≠ s.node[i].right := by
  obtain ⟨t, ht, hmem⟩ := List.mem_flatMap.1 (h.cover.mem_iff.2 (List.mem_range.2 hi))
  exact readTree_childrenBelow (h.read t ht) (h.below t ht) i h511 hmem hk

/-! ## (I5): the symbols with a code -/

/-- Only a one-leaf tree gives its symbol the empty path. -/
theorem Tree.path_ne_nil {t : Tree} (ht : t.leaves.length ≠ 1) {p : Sym × List Bool} (hp : p ∈ t.paths) : p.2 ≠ [] := by
  cases t with
  | leaf => exact absurd rfl ht
  | node i e l r =>
    simp only [Tree.paths, List.mem_append, List.mem_map] at hp
    rcases hp with ⟨q, -, rfl⟩ | ⟨q, -, rfl⟩ <;> simp

/-- A tree with one leaf is that leaf. -/
theorem Tree.leaves_of_length_one {t : Tree} (ht : t.leaves.length = 1) : t.leaves = [(t.entry.sym, t.entry.w)] := by
  cases t with
  | leaf => rfl
  | node i e l r =>
    have hl := l.leaves_pos
    have hr := r.leaves_pos
    simp only [Tree.leaves, List.length_append] at ht
    omega

/-- The symbols of the tree are those with a nonzero count (R26, R136). -/
theorem HoldsForest.mem_leaf_syms {s : State} {t : Tree} (h : HoldsForest s [t]) (x : Sym) :
    x ∈ t.leaves.map Prod.fst ↔ symGet s.freq x ≠ 0#64 := by
  have hperm : t.leaves.Perm s.mapping := by simpa using h.leaves
  rw [(hperm.map _).mem_iff, mem_mapping_fst]

theorem HoldsForest.leaves_length {s : State} {t : Tree} (h : HoldsForest s [t]) : t.leaves.length = s.nsym := by
  simpa using h.leaves.length_eq

/-- LEN is nonzero exactly where FREQ is, from phase CODED on (R40 I5). -/
theorem CodedInv.len_ne_zero_iff {s : State} (h : CodedInv s) (x : Sym) :
    symGet s.len x ≠ 0#9 ↔ symGet s.freq x ≠ 0#64 := by
  obtain ⟨hdegen, t, hf, -, hsole, hpaths⟩ := h
  rw [← hf.mem_leaf_syms x]
  cases hd : s.degen with
  | true =>
    have hone : s.nsym = 1 := by simpa [hd, TreeInv.degenOf] using hdegen
    rw [Tree.leaves_of_length_one (hf.leaves_length.trans hone), (hsole hd x).2]
    by_cases hx : x = t.entry.sym <;> simp [hx]
  | false =>
    have hmany : s.nsym ≠ 1 := by simpa [hd, TreeInv.degenOf] using hdegen
    obtain ⟨hin, hout⟩ := hpaths hd
    rw [← Tree.paths_map_fst]
    by_cases hx : x ∈ t.paths.map Prod.fst
    · refine iff_of_true ?_ hx
      obtain ⟨p, hp, rfl⟩ := List.mem_map.1 hx
      have hpos := List.length_pos_of_ne_nil (Tree.path_ne_nil (by rwa [hf.leaves_length]) hp)
      have hle := Tree.path_length_le hp
      have hdepth := hf.depth_lt (t := t) (by simp)
      rw [(hin p hp).2]
      refine fun e => absurd (congrArg BitVec.toNat e) ?_
      rw [BitVec.toNat_ofNat, BitVec.toNat_ofNat]
      omega
    · exact iff_of_false (fun hne => hne (hout x hx).2) hx

/-! ## (I6): the accumulator -/

/-- ACC has no bit at a position from OFF on (R40 I6). -/
theorem PackerInv.getLsbD_acc {s : State} (h : PackerInv s) {j : Nat} (hj : s.off.toNat ≤ j) :
    s.acc.getLsbD j = false := by
  obtain ⟨-, hacc, -⟩ := h
  exact Nat.testBit_lt_two_pow (lt_of_lt_of_le hacc (Nat.pow_le_pow_right (by decide) hj))

/-! ## (I1) to (I7) -/

/-- Settles O47: the command keeps the invariant, which gives each of (I1) to (I7) in its phases. -/
theorem theInvariantsOfR40Hold : Obligations.TheInvariantsOfR40Hold := by
  intro i s₀ s hs₀ h hp
  obtain ⟨htot, hpack, htree⟩ := exec_keeps_blockInv hs₀ h
  obtain ⟨hoff, -, hempty⟩ := id hpack
  refine ⟨⟨htot.sum_symbols, Nat.le_pred_of_lt s.total.isLt⟩, fun hforest => ?_, fun hforest => ?_, fun i h511 hi hk => ?_,
    fun hcoded x => ?_, ⟨hoff, fun j hj => hpack.getLsbD_acc hj⟩, fun hbefore => hempty (by simpa using hbefore)⟩
  · obtain ⟨ts, hts⟩ := htree.holdsForest hforest
    exact hts.activeWeight_eq_total htot
  · obtain ⟨ts, hts⟩ := htree.holdsForest hforest
    exact ⟨hts.forest_eq ▸ hts.counts.1, hts.leaf_count⟩
  · by_cases hcount : s.phase = .count
    · rw [htree.nnodes_of_count hcount] at hi
      exact absurd hi (Nat.not_lt_zero i)
    · obtain ⟨ts, hts⟩ := htree.holdsForest (by cases hps : s.phase <;> simp_all)
      exact hts.children_below h511 hi hk
  · exact ((treeInv_of_coded (by simpa using hcoded)).1 htree).len_ne_zero_iff x

end Sys2Proof.Machine
end

section
/-! PROOFS, family 10_state: the flags, STATUS and OUT (spec R37, R39, R42, R44, R256). -/

namespace Sys2Proof.Machine

/-! ## The flags (R42) -/

theorem MergeFrame.trunc {s t : State} (h : MergeFrame s t) : t.trunc = s.trunc := by rw [h.1]
theorem MergeFrame.out {s t : State} (h : MergeFrame s t) : t.out = s.out := by rw [h.1]
theorem MergeFrame.outcnt {s t : State} (h : MergeFrame s t) : t.outcnt = s.outcnt := by rw [h.1]

theorem ExecNext.degen_cases {i : Instr} {s t : State} (h : ExecNext s i t) :
    t.degen = s.degen ∨ i = .finit ∨ i = .clear := by
  cases h with
  | clear => exact .inr (.inr rfl)
  | finit => exact .inr (.inl rfl)
  | sinkError => exact .inl (sinkIoFault_degen _)
  | merge t _ hm => exact .inl (mergeOnce_frame hm).degen
  | build t _ hm => exact .inl (mergeLoop_frame hm).degen
  | fault | count | setfreq | buildTree | gencodes | serialize | pack | flush => exact .inl rfl

theorem ExecNext.trunc_cases {i : Instr} {s t : State} (h : ExecNext s i t) :
    t.trunc = s.trunc ∨ i = .serialize ∨ i = .clear := by
  cases h with
  | clear => exact .inr (.inr rfl)
  | serialize => exact .inr (.inl rfl)
  | sinkError => exact .inl (sinkIoFault_trunc _)
  | merge t _ hm => exact .inl (mergeOnce_frame hm).trunc
  | build t _ hm => exact .inl (mergeLoop_frame hm).trunc
  | fault | count | setfreq | finit | buildTree | gencodes | pack | flush => exact .inl rfl

/-- Settles O19: each command's next states, by the flag they write. -/
theorem flagsAreWrittenByFinitAndSerializeOnly : Obligations.FlagsAreWrittenByFinitAndSerializeOnly := by
  refine ⟨fun i s t h => ?_, fun s t rest hq h => ?_⟩
  · rcases exec_next_cases h with ⟨rfl, rfl⟩ | ⟨hi, -, rfl⟩ | ⟨hi, -, hc⟩
    · exact ⟨fun _ => .inr ⟨rfl, rfl⟩, fun _ => .inr ⟨rfl, rfl⟩, fun _ => ⟨rfl, rfl⟩⟩
    · exact ⟨fun hne => absurd rfl hne, fun hne => absurd rfl hne, fun hc => absurd hc hi⟩
    · exact ⟨fun hne => .inl ((hc.degen_cases.resolve_left hne).resolve_right hi),
        fun hne => .inl ((hc.trunc_cases.resolve_left hne).resolve_right hi), fun hc => absurd hc hi⟩
  · rw [step_reset hq] at h
    cases h; exact ⟨rfl, rfl⟩

/-! ## STATUS (R44) -/

/-- The bits of STATUS, field by field from bit 0 up (R44). -/
theorem getLsbD_status (s : State) (j : Nat) : s.status.getLsbD j = (decide (j < 32) &&
    if j < 3 then s.phase.bits.getLsbD j
    else if j = 3 then s.degen
    else if j = 4 then s.trunc
    else if j < 8 then false
    else if j < 16 then s.err.bits.getLsbD (j - 8)
    else (s.off.extractLsb' 0 3).getLsbD (j - 16)) := by
  rw [State.status, BitVec.getLsbD_setWidth]
  simp only [BitVec.getLsbD_append]
  rcases (by omega : j < 3 ∨ j = 3 ∨ j = 4 ∨ (5 ≤ j ∧ j < 8) ∨ (8 ≤ j ∧ j < 16) ∨ 16 ≤ j) with
    h | rfl | rfl | ⟨h, h'⟩ | ⟨h, h'⟩ | h
  · simp only [h, if_true]
  · simp
  · simp
  · simp (disch := omega) only [if_pos, if_neg, BitVec.getLsbD_zero]
  · simp (disch := omega) only [if_pos, if_neg]
    congr 2
  · simp (disch := omega) only [if_neg]
    congr 2

/-- A field of a word, given by its bits. -/
theorem extractLsb'_eq_of_getLsbD {w n : Nat} {v : BitVec w} {lo : Nat} {f : BitVec n}
    (h : ∀ j, j < n → v.getLsbD (lo + j) = f.getLsbD j) : v.extractLsb' lo n = f :=
  BitVec.eq_of_getLsbD_eq fun j hj => by rw [BitVec.getLsbD_extractLsb', h j hj]; simp [hj]

/-- Settles O14: each field of STATUS is its bits, and PHASE and ERR have the numbers of R21 and R251. -/
theorem statusWordLayout : Obligations.StatusWordLayout := by
  refine ⟨by decide, fun s => ⟨rfl, fun v => rfl, ?_, getLsbD_status s 3, getLsbD_status s 4, ?_, ?_, ?_, ?_⟩⟩
  · have h : s.status.extractLsb' 0 3 = s.phase.bits := extractLsb'_eq_of_getLsbD fun j hj => by
      simp (disch := omega) only [getLsbD_status, if_pos, decide_eq_true, Bool.true_and, Nat.zero_add]
    rw [h]; cases s.phase <;> rfl
  · refine extractLsb'_eq_of_getLsbD fun j hj => ?_
    simp (disch := omega) only [getLsbD_status, if_pos, if_neg, Bool.and_false, BitVec.getLsbD_zero]
  · have h : s.status.extractLsb' 8 8 = s.err.bits := extractLsb'_eq_of_getLsbD fun j hj => by
      simp (disch := omega) only [getLsbD_status, if_pos, if_neg, decide_eq_true, Bool.true_and, Nat.add_sub_cancel_left]
    rw [h]; cases s.err <;> rfl
  · refine extractLsb'_eq_of_getLsbD fun j hj => ?_
    simp (disch := omega) only [getLsbD_status, if_neg, decide_eq_true, Bool.true_and, Nat.add_sub_cancel_left]
  · refine extractLsb'_eq_of_getLsbD fun j hj => ?_
    rw [getLsbD_status, BitVec.getLsbD_of_ge (s.off.extractLsb' 0 3) _ (by omega)]
    simp (disch := omega) only [if_neg, Bool.and_false, BitVec.getLsbD_zero]

/-! ## OUT (R39) -/

/-- OUT grows at its end, and OUTCNT counts the new bytes (R37, R39). -/
def OutAppended (s t : State) : Prop := ∃ bs, t.out = s.out ++ bs ∧ t.outcnt = s.outcnt + BitVec.ofNat 64 bs.length

theorem outAppended_of_eq {s t : State} (ho : t.out = s.out) (hc : t.outcnt = s.outcnt) : OutAppended s t :=
  ⟨[], by simp [ho], by simp [hc]⟩

/-- A command other than CLEAR appends to OUT, or reports SINK_IO (R39, R256). -/
theorem ExecNext.out_cases {i : Instr} {s t : State} (h : ExecNext s i t) (hp : s.phase ≠ .fault) (hi : i ≠ .clear) :
    (t.phase = .fault ∧ t.err = .sinkIo) ∨ OutAppended s t := by
  cases h with
  | clear => exact absurd rfl hi
  | sinkError => exact .inl ⟨sinkIoFault_phase _, sinkIoFault_err hp⟩
  | merge t _ hm => exact .inr (outAppended_of_eq (mergeOnce_frame hm).out (mergeOnce_frame hm).outcnt)
  | build t _ hm => exact .inr (outAppended_of_eq (mergeLoop_frame hm).out (mergeLoop_frame hm).outcnt)
  | serialize es => exact .inr ⟨serialBytes es, rfl, rfl⟩
  | pack x => exact .inr ⟨(packDrain x s).bytes, rfl, rfl⟩
  | flush => exact .inr ⟨flushBytes s, rfl, rfl⟩
  | fault | count | setfreq | finit | buildTree | gencodes => exact .inr (outAppended_of_eq rfl rfl)

/-- Settles O20: only an emitting command touches OUT, and only a reset touches OUTCNT otherwise. -/
theorem outGrowsOnlyAtItsEnd : Obligations.OutGrowsOnlyAtItsEnd := by
  intro s t h
  cases stepNext_of_step h with
  | bus | illegal => exact .inr (.inl (outAppended_of_eq rfl rfl))
  | reset q hq => exact .inr (.inr ⟨rfl, rfl, hq⟩)
  | command q i t hp hi hc =>
    rcases hc.out_cases hp hi with hsink | happ
    · exact .inl ⟨hp, hsink⟩
    · exact .inr (.inl happ)

end Sys2Proof.Machine
end

section
/-! PROOFS, family 10_state: no command reads OUT, the host's queue or the host's log (spec R39, R43, R60, R74). A command
that emits nothing commutes with any change of these; an emitting one gets the same answers of the sink. -/

namespace Sys2Proof.Machine

/-! ## A state with another history and another host -/

/-- s with other bytes taken before, another host queue and another host log. -/
def State.withEnv (s : State) (o : List Byte) (q : List HostAccess) (r : List Word32) : State :=
  { s with out := o, hostQueue := q, readLog := r }

@[simp] theorem withEnv_phase (s : State) (o : List Byte) (q : List HostAccess) (r : List Word32) :
    (s.withEnv o q r).phase = s.phase := rfl
@[simp] theorem withEnv_total (s : State) (o : List Byte) (q : List HostAccess) (r : List Word32) :
    (s.withEnv o q r).total = s.total := rfl
@[simp] theorem withEnv_node (s : State) (o : List Byte) (q : List HostAccess) (r : List Word32) :
    (s.withEnv o q r).node = s.node := rfl
@[simp] theorem withEnv_nnodes (s : State) (o : List Byte) (q : List HostAccess) (r : List Word32) :
    (s.withEnv o q r).nnodes = s.nnodes := rfl
@[simp] theorem withEnv_active (s : State) (o : List Byte) (q : List HostAccess) (r : List Word32) :
    (s.withEnv o q r).active = s.active := rfl
@[simp] theorem withEnv_len (s : State) (o : List Byte) (q : List HostAccess) (r : List Word32) :
    (s.withEnv o q r).len = s.len := rfl
@[simp] theorem withEnv_nsym (s : State) (o : List Byte) (q : List HostAccess) (r : List Word32) :
    (s.withEnv o q r).nsym = s.nsym := rfl
@[simp] theorem withEnv_forest (s : State) (o : List Byte) (q : List HostAccess) (r : List Word32) :
    (s.withEnv o q r).forest = s.forest := rfl
@[simp] theorem withEnv_setfreqTotal (x : Sym) (s : State) (o : List Byte) (q : List HostAccess) (r : List Word32) :
    setfreqTotal x (s.withEnv o q r) = setfreqTotal x s := rfl
@[simp] theorem withEnv_genTables (s : State) (o : List Byte) (q : List HostAccess) (r : List Word32) :
    genTables (s.withEnv o q r) = genTables s := rfl
@[simp] theorem withEnv_treeEntries (s : State) (o : List Byte) (q : List HostAccess) (r : List Word32) :
    treeEntries (s.withEnv o q r) = treeEntries s := rfl

/-- An outcome whose next state, if there is one, has another history and another host. -/
def withEnvResult (o : List Byte) (q : List HostAccess) (r : List Word32) : Result → Result
  | .next t => .next (t.withEnv o q r)
  | .fault e => .fault e
  | .refused e => .refused e

/-- A rule that neither reads nor writes OUT or the host's side. -/
def Quiet (f : State → Result) : Prop := ∀ s o q r, f (s.withEnv o q r) = withEnvResult o q r (f s)

/-- What the rule of a command answers from s and from s with another history and host: the same, and the same bytes
appended unless SINK_IO occurred (R256). -/
def SameAnswer (s : State) (o : List Byte) (q : List HostAccess) (r : List Word32) (a b : Result) : Prop :=
  ∀ t, a = .next t → ∃ o', b = .next (t.withEnv o' q r) ∧ t.hostQueue = s.hostQueue ∧ t.readLog = s.readLog ∧
    (s.phase = .fault ∨ t.err ≠ .sinkIo → ∃ bs, t.out = s.out ++ bs ∧ o' = o ++ bs)

/-! ## Rules that emit nothing -/

/-- A quiet rule keeps OUT and the host's side: it commutes with putting back what stood there. -/
theorem Quiet.env_eq {f : State → Result} (hf : Quiet f) {s t : State} (h : f s = .next t) :
    t.out = s.out ∧ t.hostQueue = s.hostQueue ∧ t.readLog = s.readLog := by
  have hself := hf s s.out s.hostQueue s.readLog
  rw [show s.withEnv s.out s.hostQueue s.readLog = s from rfl, h] at hself
  have ht : t = t.withEnv s.out s.hostQueue s.readLog := Host.Outcome.next.inj hself
  rw [ht]
  exact ⟨rfl, rfl, rfl⟩

theorem Quiet.sameAnswer {f : State → Result} (hf : Quiet f) (s : State) (o : List Byte) (q : List HostAccess)
    (r : List Word32) : SameAnswer s o q r (f s) (f (s.withEnv o q r)) := by
  intro t h
  obtain ⟨ho, hq, hr⟩ := hf.env_eq h
  exact ⟨o, by rw [hf, h]; rfl, hq, hr, fun _ => ⟨[], by simp [ho], by simp⟩⟩

theorem raiseFault_withEnv (e : ErrCode) (s : State) (o : List Byte) (q : List HostAccess) (r : List Word32) :
    raiseFault e (s.withEnv o q r) = (raiseFault e s).withEnv o q r := by
  unfold raiseFault
  rw [withEnv_phase]
  split <;> rfl

theorem quiet_raiseFault (e : ErrCode) : Quiet fun s => .next (raiseFault e s) := fun s o q r =>
  congrArg _ (raiseFault_withEnv e s o q r)

theorem quiet_countBody (x : Sym) : Quiet (countBody x) := fun s o q r => by
  unfold countBody
  rw [withEnv_total]
  split
  · exact quiet_raiseFault _ s o q r
  · rfl

theorem quiet_setfreqBody (x : Sym) : Quiet (setfreqBody x) := fun s o q r => by
  unfold setfreqBody
  rw [withEnv_setfreqTotal]
  split
  · exact quiet_raiseFault _ s o q r
  · rfl

theorem quiet_finitBody : Quiet finitBody := fun s o q r => by
  unfold finitBody
  rw [withEnv_nsym]
  dsimp only
  split
  · exact quiet_raiseFault _ s o q r
  · rfl

theorem finishTree_withEnv (k : Nat) (s : State) (o : List Byte) (q : List HostAccess) (r : List Word32) :
    finishTree k (s.withEnv o q r) = (finishTree k s).withEnv o q r := by
  unfold finishTree
  rw [withEnv_forest]
  split <;> rfl

theorem mergePair_withEnv (m1 m2 : Fin 511) (k : Nat) (hk : k < 511) (s : State) (o : List Byte) (q : List HostAccess)
    (r : List Word32) : mergePair m1 m2 k hk (s.withEnv o q r) = (mergePair m1 m2 k hk s).withEnv o q r := by
  rw [mergePair, mergePair, ← finishTree_withEnv]; rfl

theorem mergeOnce_withEnv (s : State) (o : List Byte) (q : List HostAccess) (r : List Word32) :
    mergeOnce (s.withEnv o q r) = (mergeOnce s).map fun t => t.withEnv o q r := by
  unfold mergeOnce
  simp only [withEnv_node, withEnv_active, withEnv_nnodes, mergePair_withEnv]
  cases selectMin s.node s.active with
  | none => rfl
  | some m1 =>
    dsimp only
    cases selectMin s.node (s.active.set m1.val false m1.isLt) with
    | none => rfl
    | some m2 =>
      dsimp only
      split <;> rfl

theorem mergeLoop_withEnv (fuel : Nat) (s : State) (o : List Byte) (q : List HostAccess) (r : List Word32) :
    mergeLoop fuel (s.withEnv o q r) = (mergeLoop fuel s).map fun t => t.withEnv o q r := by
  induction fuel generalizing s with
  | zero => rfl
  | succ fuel ih =>
    by_cases hf : s.forest > 1
    · cases hm : mergeOnce s with
      | ok u => rw [mergeLoop_ok hf hm, ← ih, mergeLoop_ok (by exact hf) (by rw [mergeOnce_withEnv, hm]; rfl)]
      | error e =>
        rw [mergeLoop_error hf hm, mergeLoop_error (e := e) (by exact hf) (by rw [mergeOnce_withEnv, hm]; rfl)]; rfl
    · rw [mergeLoop_stop hf, mergeLoop_stop (by exact hf)]; rfl

theorem mergeResult_withEnv (x : Except Fault State) (o : List Byte) (q : List HostAccess) (r : List Word32) :
    mergeResult (x.map fun t => t.withEnv o q r) = withEnvResult o q r (mergeResult x) := by
  cases x <;> rfl

theorem quiet_mergeBody : Quiet mergeBody := fun s o q r => by
  rw [mergeBody, mergeBody, mergeOnce_withEnv, mergeResult_withEnv]

theorem quiet_buildBody : Quiet buildBody := fun s o q r => by
  unfold buildBody
  rw [withEnv_phase, withEnv_forest, mergeLoop_withEnv, mergeResult_withEnv]
  split <;> rfl

theorem quiet_gencodesBody : Quiet gencodesBody := fun s o q r => by
  unfold gencodesBody
  rw [withEnv_genTables]
  cases genTables s <;> rfl

/-! ## Rules that emit (R39, R256) -/

/-- The sink's answers decide when an emission stops: before the first byte it did not take (R256). -/
theorem le_of_sinkTakes {s : State} {m n : Nat} {a : SinkReply} (hm : s.sinkTakes m) (hn : s.sinkScript[n]? = some a)
    (ha : a ≠ .takes) : m ≤ n := by
  by_contra hlt
  have hmem : a ∈ s.sinkScript.take m :=
    List.mem_iff_getElem?.2 ⟨n, by rw [List.getElem?_take_of_lt (by omega)]; exact hn⟩
  exact ha (by simpa using List.all_eq_true.1 hm a hmem)

/-- s after an emission of bs that the sink stopped at byte n (R256). -/
def State.stoppedAt (s : State) (bs : List Byte) (n : Nat) : State :=
  { s.delivered (bs.take n) with sinkScript := s.sinkScript.drop (n + 1) }

/-- An emitting command whose first bytes the sink takes and then refuses one reports SINK_IO (R256). -/
theorem emitThen_ioError (bs : List Byte) (commit : State → State) {s : State} {n : Nat} (hn : n < bs.length)
    (ht : s.sinkTakes n) (hs : s.sinkScript[n]? = some .ioError) :
    emitThen bs commit s = .next (sinkIoFault (s.stoppedAt bs n)) := by
  rcases emitThen_cases bs commit s with ⟨-, hm⟩ | ⟨m, -, hm, hr, e⟩ | ⟨m, -, hm, hr, -⟩
  · exact absurd (le_of_sinkTakes hm hs (by decide)) (Nat.not_le.2 hn)
  all_goals
    obtain rfl : m = n := le_antisymm (le_of_sinkTakes hm hs (by decide)) (le_of_sinkTakes ht hr (by decide))
  · exact e
  · rw [hr] at hs; cases hs

theorem delivered_withEnv (s : State) (bs : List Byte) (o : List Byte) (q : List HostAccess) (r : List Word32) :
    (s.withEnv o q r).delivered bs = (s.delivered bs).withEnv (o ++ bs) q r := rfl

/-- After SINK_IO OUT is the same free value, whatever stood there (R256). -/
theorem sinkIoFault_withEnv (s : State) (o : List Byte) (q : List HostAccess) (r : List Word32) :
    sinkIoFault (s.withEnv o q r) = (sinkIoFault s).withEnv (Config.freeOut s.freeCount) q r := by
  unfold sinkIoFault
  rw [raiseFault_withEnv]; rfl

/-- A command that emits and then writes registers without looking at OUT or the host answers the same. -/
theorem emitThen_sameAnswer (bs : List Byte) {commit : State → State} {s : State} (hp : s.phase ≠ .fault)
    (hcommit : Quiet fun t => .next (commit t)) (o : List Byte) (q : List HostAccess) (r : List Word32) :
    SameAnswer s o q r (emitThen bs commit s) (emitThen bs commit (s.withEnv o q r)) := by
  intro t h
  rcases emitThen_cases bs commit s with ⟨e, ht⟩ | ⟨n, hn, ht, hs, e⟩ | ⟨n, -, -, -, e⟩
  · obtain rfl := Host.Outcome.next.inj (e.symm.trans h)
    obtain ⟨hout, hq, hr⟩ := hcommit.env_eq (s := s.delivered bs) rfl
    refine ⟨o ++ bs, ?_, hq, hr, fun _ => ⟨bs, hout, rfl⟩⟩
    rw [emitThen_took bs commit _ (by exact ht), delivered_withEnv]
    exact hcommit (s.delivered bs) (o ++ bs) q r
  · obtain rfl := Host.Outcome.next.inj (e.symm.trans h)
    refine ⟨Config.freeOut s.freeCount, ?_, sinkIoFault_hostQueue _, sinkIoFault_readLog _, fun hc => ?_⟩
    · rw [emitThen_ioError bs commit hn (by exact ht) (by exact hs)]
      exact congrArg _ (sinkIoFault_withEnv (s.stoppedAt bs n) (o ++ bs.take n) q r)
    · exact absurd (sinkIoFault_err (s := s.stoppedAt bs n) hp) (hc.resolve_left hp)
  · rw [e] at h; cases h

theorem serializeBody_sameAnswer {s : State} (hp : s.phase ≠ .fault) (o : List Byte) (q : List HostAccess)
    (r : List Word32) : SameAnswer s o q r (serializeBody s) (serializeBody (s.withEnv o q r)) := by
  unfold serializeBody
  rw [withEnv_treeEntries]
  cases treeEntries s with
  | none => intro t h; cases h
  | some es => exact emitThen_sameAnswer _ hp (fun _ _ _ _ => rfl) o q r

theorem packBody_sameAnswer (x : Sym) {s : State} (hp : s.phase ≠ .fault) (o : List Byte) (q : List HostAccess)
    (r : List Word32) : SameAnswer s o q r (packBody x s) (packBody x (s.withEnv o q r)) := by
  unfold packBody
  rw [withEnv_len]
  split
  · exact (quiet_raiseFault _).sameAnswer s o q r
  · exact emitThen_sameAnswer (packDrain x s).bytes hp (fun _ _ _ _ => rfl) o q r

theorem flushBody_sameAnswer {s : State} (hp : s.phase ≠ .fault) (o : List Byte) (q : List HostAccess)
    (r : List Word32) : SameAnswer s o q r (flushBody s) (flushBody (s.withEnv o q r)) :=
  emitThen_sameAnswer (flushBytes s) hp (fun _ _ _ _ => rfl) o q r

/-! ## The gate, and every command -/

/-- A gated command answers the same when its rule does (R233). -/
theorem gated_sameAnswer (i : Instr) {body : State → Result} {s : State} {o : List Byte} {q : List HostAccess}
    {r : List Word32} (hbody : s.phase ≠ .fault → SameAnswer s o q r (body s) (body (s.withEnv o q r))) :
    SameAnswer s o q r (gated i body s) (gated i body (s.withEnv o q r)) := by
  unfold gated
  rw [withEnv_phase]
  split
  case isTrue => exact Quiet.sameAnswer (f := .next) (fun _ _ _ _ => rfl) s o q r
  case isFalse hp =>
    split
    · exact hbody hp
    · exact (quiet_raiseFault _).sameAnswer s o q r

theorem exec_sameAnswer (i : Instr) (s : State) (o : List Byte) (q : List HostAccess) (r : List Word32) :
    SameAnswer s o q r (exec i s) (exec i (s.withEnv o q r)) := by
  cases i with
  | clear => exact Quiet.sameAnswer (f := execClear) (fun _ _ _ _ => rfl) s o q r
  | count x => exact gated_sameAnswer _ fun _ => (quiet_countBody x).sameAnswer s o q r
  | setfreq x => exact gated_sameAnswer _ fun _ => (quiet_setfreqBody x).sameAnswer s o q r
  | finit => exact gated_sameAnswer _ fun _ => quiet_finitBody.sameAnswer s o q r
  | merge => exact gated_sameAnswer _ fun _ => quiet_mergeBody.sameAnswer s o q r
  | build => exact gated_sameAnswer _ fun _ => quiet_buildBody.sameAnswer s o q r
  | gencodes => exact gated_sameAnswer _ fun _ => quiet_gencodesBody.sameAnswer s o q r
  | serialize => exact gated_sameAnswer _ fun hp => serializeBody_sameAnswer hp o q r
  | pack x => exact gated_sameAnswer _ fun hp => packBody_sameAnswer x hp o q r
  | flush => exact gated_sameAnswer _ fun hp => flushBody_sameAnswer hp o q r

/-- Settles O21, command by command. -/
theorem noCommandReadsTheSinkOrTheHost : Obligations.NoCommandReadsTheSinkOrTheHost :=
  fun i s t o q r h => exec_sameAnswer i s o q r t h

end Sys2Proof.Machine
end

section
/-! PROOFS, family 20_memory: host accesses that have a meaning and those that have none, a command as one step, and the
byte order of the records (spec R10, R62, R71, R74, R76, R231, R233). -/

namespace Sys2Proof.Machine

/-! ## A command as one step (R74, R233) -/

/-- A well-formed CMD write runs its command in every phase: the filter of FAULT stands in the command too (R233, R254). -/
theorem onCmdWrite_of_decode {v : Word32} {i : Instr} (hd : decode v = .ok i) (s : State) : onCmdWrite v s = exec i s := by
  have hv : encode i = v := encode_of_decode hd
  rcases onCmdWrite_cases v s with ⟨-, rfl, e⟩ | ⟨hp, hne, e⟩ | ⟨-, ⟨r, hr⟩, -⟩ | ⟨-, j, hj, e⟩
  · obtain rfl : Instr.clear = i := Except.ok.inj hd
    exact e
  · have hi : i ≠ .clear := fun h => hne (by rw [← hv, h]; rfl)
    rw [e, exec_in_fault hp, if_neg hi]
  · rw [hd] at hr; cases hr
  · rw [hd] at hj; cases hj; exact e

/-- A table's word that decodes is the bus word of the command. -/
theorem decode_of_decodeTableWord {nbits w : Nat} {i : Instr} (h : decodeTableWord nbits w = some i) :
    decode (BitVec.ofNat 32 (w % 2 ^ nbits)) = .ok i := by
  unfold decodeTableWord tableWord at h
  split at h
  · cases h
  · rename_i v hv
    obtain ⟨-, hv⟩ := Option.ite_none_right_eq_some.1 hv
    obtain rfl := Option.some.inj hv
    split at h
    · rename_i j hj; cases h; exact hj
    · cases h

/-- Settles O4: the host's next access is the CMD write of the command's word, placed there or pending already. -/
theorem stepRunsTheDecodedCommand : Obligations.StepRunsTheDecodedCommand := by
  refine ⟨fun s rest v i hq hd => ?_, fun s nbits w i _ hw => ?_⟩
  · rw [step_write_cmd hq, onCmdWrite_of_decode hd]
  · rw [step_write_cmd (s := s.withFetchWord nbits w) rfl, onCmdWrite_of_decode (decode_of_decodeTableWord hw)]
    rfl

/-! ## Accesses without a meaning (R62) -/

theorem step_read {s : State} {rest : List HostAccess} {off : Offset} {width : Nat}
    (h : s.hostQueue = .read off width :: rest) :
    step s = checkedAccess off width
      (.next { s with hostQueue := rest, readLog := s.readLog ++ [mmioRead off { s with hostQueue := rest }] }) := by
  rw [step, performNext, h]; rfl

theorem step_write {s : State} {rest : List HostAccess} {off : Offset} {width : Nat} {v : Word32}
    (h : s.hostQueue = .write off width v :: rest) :
    step s = checkedAccess off width (mmioWrite off v { s with hostQueue := rest }) := by
  rw [step, performNext, h]; rfl

/-- The check of R62 refuses, the width named first (log 9). -/
theorem checkedAccess_refused {off : Offset} {width : Nat} (h : off.toNat % 4 ≠ 0 ∨ width ≠ 32) (act : Result) :
    ∃ r, checkedAccess off width act = .refused r ∧ (r = .misalignedAccess off ∨ r = .badAccessWidth width) := by
  unfold checkedAccess
  by_cases hw : width = 32
  · have ho : off.toNat % 4 ≠ 0 := h.resolve_right fun hne => hne hw
    exact ⟨_, by rw [if_neg (not_not.2 hw), if_pos ho], .inl rfl⟩
  · exact ⟨_, if_pos hw, .inr rfl⟩

/-- Settles O18: a read and a write pass the same check before anything else. -/
theorem misalignedOrNarrowAccessIsRefused : Obligations.MisalignedOrNarrowAccessIsRefused := by
  intro s rest off width v hbad hq
  rcases hq with hq | hq
  · rw [step_read hq]; exact checkedAccess_refused hbad _
  · rw [step_write hq]; exact checkedAccess_refused hbad _

/-! ## Records on the sink (R71) -/

theorem bytesLE_eq_map (r : NodeRecord) : bytesLE r = (List.range 8).map fun j => r.extractLsb' (8 * j) 8 := rfl

/-- Settles O35: the eight bytes are the slices of the record at the multiples of 8. -/
theorem recordsAreLittleEndian : Obligations.RecordsAreLittleEndian := by
  intro r
  rw [bytesLE_eq_map]
  refine ⟨by simp, fun j h => ?_⟩
  rw [List.getElem_map, List.getElem_range]

end Sys2Proof.Machine
end

section
/-! PROOFS, family 20_memory: the five read windows show the tables (spec R65 to R69). -/

namespace Sys2Proof.Machine

/-! ## Which window an offset reads (R232) -/

theorem mmioRead_freq (s : State) {n : Nat} (h : n < 0x0800) :
    mmioRead (BitVec.ofNat 16 (0x0100 + n)) s = freqWindow s n := by
  simp (disch := omega) only [mmioRead, BitVec.toNat_ofNat, Nat.mod_eq_of_lt, if_pos, if_neg, Nat.add_sub_cancel_left]

theorem mmioRead_len (s : State) {n : Nat} (h : n < 0x0400) :
    mmioRead (BitVec.ofNat 16 (0x0900 + n)) s = lenWindow s n := by
  simp (disch := omega) only [mmioRead, BitVec.toNat_ofNat, Nat.mod_eq_of_lt, if_pos, if_neg, Nat.add_sub_cancel_left]

theorem mmioRead_code (s : State) {n : Nat} (h : n < 0x2000) :
    mmioRead (BitVec.ofNat 16 (0x1000 + n)) s = codeWindow s n := by
  simp (disch := omega) only [mmioRead, BitVec.toNat_ofNat, Nat.mod_eq_of_lt, if_pos, if_neg, Nat.add_sub_cancel_left]

theorem mmioRead_node (s : State) {n : Nat} (h : n < 0x1FF0) :
    mmioRead (BitVec.ofNat 16 (0x4000 + n)) s = nodeWindow s n := by
  simp (disch := omega) only [mmioRead, BitVec.toNat_ofNat, Nat.mod_eq_of_lt, if_pos, if_neg, Nat.add_sub_cancel_left]

theorem mmioRead_active (s : State) {n : Nat} (h : n < 0x0040) :
    mmioRead (BitVec.ofNat 16 (0x6000 + n)) s = activeWindow s n := by
  simp (disch := omega) only [mmioRead, BitVec.toNat_ofNat, Nat.mod_eq_of_lt, if_pos, if_neg, Nat.add_sub_cancel_left]

/-! ## The words of the tables by symbol (R65, R66, R67) -/

theorem getD_eq_symGet {α : Type} (t : Vector α 256) (x : Sym) (d : α) : t.getD x.toNat d = symGet t x :=
  vector_getD_lt t x.isLt d

theorem mmioRead_freq_word (s : State) (x : Sym) {k : Nat} (hk : k < 2) :
    mmioRead (BitVec.ofNat 16 (0x0100 + (8 * x.toNat + 4 * k))) s = (symGet s.freq x).extractLsb' (32 * k) 32 := by
  have hx := x.isLt
  have hentry : (8 * x.toNat + 4 * k) / 8 = x.toNat := by omega
  have hword : (8 * x.toNat + 4 * k) / 4 % 2 = k := by omega
  rw [mmioRead_freq s (by omega), freqWindow, hentry, hword, getD_eq_symGet, wordOf64]

theorem mmioRead_len_word (s : State) (x : Sym) :
    mmioRead (BitVec.ofNat 16 (0x0900 + 4 * x.toNat)) s = (symGet s.len x).setWidth 32 := by
  have hx := x.isLt
  rw [mmioRead_len s (by omega), lenWindow, Nat.mul_div_cancel_left _ (by decide), getD_eq_symGet]

theorem mmioRead_code_word (s : State) (x : Sym) {k : Nat} (hk : k < 8) :
    mmioRead (BitVec.ofNat 16 (0x1000 + (32 * x.toNat + 4 * k))) s = (symGet s.code x).extractLsb' (32 * k) 32 := by
  have hx := x.isLt
  have hentry : (32 * x.toNat + 4 * k) / 32 = x.toNat := by omega
  have hword : (32 * x.toNat + 4 * k) / 4 % 8 = k := by omega
  rw [mmioRead_code s (by omega), codeWindow, hentry, hword, getD_eq_symGet]

/-! ## The words of an arena entry (R68) -/

theorem mmioRead_node_word (s : State) {i k : Nat} (hi : i < 511) (hk : k < 4) :
    mmioRead (BitVec.ofNat 16 (0x4000 + (16 * i + 4 * k))) s = entryWord s.node[i] k := by
  have hentry : (16 * i + 4 * k) / 16 = i := by omega
  have hword : (16 * i + 4 * k) / 4 % 4 = k := by omega
  rw [mmioRead_node s (by omega), nodeWindow, hentry, hword, vector_getD_lt _ hi]

/-- The bits of word 0, from bit 0 up: KIND, seven zeros, SYM. -/
theorem getLsbD_entryWord_zero (e : NodeEntry) {j : Nat} (hj : j < 32) : (entryWord e 0).getLsbD j =
    if j < 1 then e.kind.bit.getLsbD j else if j < 8 then false else e.sym.getLsbD (j - 8) := by
  simp only [entryWord, BitVec.getLsbD_setWidth, BitVec.getLsbD_append, hj, decide_true, Bool.true_and,
    BitVec.getLsbD_zero]
  simp (disch := omega) only [Nat.sub_sub, Nat.reduceAdd, (by omega : j - 1 < 7 ↔ j < 8)]

/-- The bits of word 3, from bit 0 up: LEFT, seven zeros, RIGHT. -/
theorem getLsbD_entryWord_three (e : NodeEntry) {j : Nat} (hj : j < 32) : (entryWord e 3).getLsbD j =
    if j < 9 then e.left.getLsbD j else if j < 16 then false else e.right.getLsbD (j - 16) := by
  simp only [entryWord, BitVec.getLsbD_setWidth, BitVec.getLsbD_append, hj, decide_true, Bool.true_and,
    BitVec.getLsbD_zero]
  simp (disch := omega) only [Nat.sub_sub, Nat.reduceAdd, (by omega : j - 9 < 7 ↔ j < 16)]

/-- Word 0 of an entry (R68): KIND in bit 0, SYM in bits 15:8, zeros elsewhere. -/
theorem entryWord_zero_fields (e : NodeEntry) :
    (entryWord e 0).getLsbD 0 = decide (e.kind = .leaf) ∧ (entryWord e 0).extractLsb' 1 7 = 0#7 ∧
      (entryWord e 0).extractLsb' 8 8 = e.sym ∧ (entryWord e 0).extractLsb' 16 16 = 0#16 := by
  refine ⟨?_, extractLsb'_eq_of_getLsbD fun j hj => ?_, extractLsb'_eq_of_getLsbD fun j hj => ?_,
    extractLsb'_eq_of_getLsbD fun j hj => ?_⟩ <;> rw [getLsbD_entryWord_zero e (by omega)]
  · cases e.kind <;> rfl
  · simp (disch := omega) only [if_pos, if_neg, BitVec.getLsbD_zero]
  · simp (disch := omega) only [if_neg, Nat.add_sub_cancel_left]
  · simp (disch := omega) only [if_neg, BitVec.getLsbD_of_ge, BitVec.getLsbD_zero]

/-- Word 3 of an entry (R68): LEFT in bits 8:0, RIGHT in bits 24:16, zeros elsewhere. -/
theorem entryWord_three_fields (e : NodeEntry) :
    (entryWord e 3).extractLsb' 0 9 = e.left ∧ (entryWord e 3).extractLsb' 9 7 = 0#7 ∧
      (entryWord e 3).extractLsb' 16 9 = e.right ∧ (entryWord e 3).extractLsb' 25 7 = 0#7 := by
  refine ⟨extractLsb'_eq_of_getLsbD fun j hj => ?_, extractLsb'_eq_of_getLsbD fun j hj => ?_,
    extractLsb'_eq_of_getLsbD fun j hj => ?_, extractLsb'_eq_of_getLsbD fun j hj => ?_⟩ <;>
    rw [getLsbD_entryWord_three e (by omega)]
  · simp (disch := omega) only [if_pos, Nat.zero_add]
  · simp (disch := omega) only [if_pos, if_neg, BitVec.getLsbD_zero]
  · simp (disch := omega) only [if_neg, Nat.add_sub_cancel_left]
  · simp (disch := omega) only [if_neg, BitVec.getLsbD_of_ge, BitVec.getLsbD_zero]

/-- All four words of an unused entry are 0 (R29, R68). -/
theorem entryWord_zero_of_unused {k : Nat} (hk : k < 4) : entryWord .zero k = 0#32 := by
  revert k; decide

/-- From NNODES on the arena is empty, in every phase but FAULT (R29, R40). -/
theorem BlockInv.node_unused {s : State} (h : BlockInv s) (hp : s.phase ≠ .fault) {i : Nat} (hi : i < 511)
    (hn : s.nnodes.toNat ≤ i) : s.node[i] = .zero := by
  obtain ⟨-, -, htree⟩ := h
  by_cases hc : s.phase = .count
  · have hreset := (treeInv_of_count hc).1 htree
    have hnode : s.node = Vector.replicate 511 .zero := congrArg State.node hreset
    rw [hnode]; exact Vector.getElem_replicate hi
  · obtain ⟨ts, hts⟩ := htree.holdsForest (by cases hps : s.phase <;> simp_all)
    exact hts.unused i hi hn

/-! ## The bits of ACTIVE (R69) -/

/-- A number with one more bit on top. -/
theorem testBit_add_topBit {x n : Nat} (hx : x < 2 ^ n) (b : Bool) (i : Nat) :
    (x + b.toNat * 2 ^ n).testBit i = if i = n then b else x.testBit i := by
  rw [Nat.add_comm, Nat.mul_comm, Nat.testBit_two_pow_mul_add _ hx]
  rcases Nat.lt_trichotomy i n with h | rfl | h
  · rw [if_pos h, if_neg h.ne]
  · cases b <;> simp
  · have hb : b.toNat < 2 ^ (i - n) := (Bool.toNat_lt b).trans_le (Nat.le_self_pow (by omega) 2)
    have hxi : x < 2 ^ i := hx.trans (Nat.pow_lt_pow_right (by decide) h)
    rw [if_neg (by omega), if_neg (by omega), Nat.testBit_lt_two_pow hb, Nat.testBit_lt_two_pow hxi]

theorem activeSum_lt (s : State) (base n : Nat) : activeSum s base n < 2 ^ n := by
  induction n with
  | zero => simp [activeSum]
  | succ n ih =>
    rw [activeSum, Nat.pow_succ]
    cases s.active.getD (base + n) false <;> simp <;> omega

/-- Bit i of the sum is ACTIVE[base + i]. -/
theorem testBit_activeSum (s : State) (base : Nat) {n i : Nat} (hi : i < n) :
    (activeSum s base n).testBit i = s.active.getD (base + i) false := by
  induction n with
  | zero => exact absurd hi (Nat.not_lt_zero i)
  | succ n ih =>
    rw [activeSum, testBit_add_topBit (activeSum_lt s base n)]
    split
    case isTrue h => rw [h]
    case isFalse h => exact ih (by omega)

theorem getLsbD_activeWindow (s : State) {j b : Nat} (hb : b < 32) :
    (activeWindow s (4 * j)).getLsbD b = if h : 32 * j + b < 511 then s.active[32 * j + b] else false := by
  rw [activeWindow, Nat.mul_div_cancel_left j (by decide), BitVec.getLsbD_ofNat, testBit_activeSum s _ hb]
  by_cases h : 32 * j + b < 511
  · rw [dif_pos h, vector_getD_lt _ h]; simp [hb]
  · rw [dif_neg h, vector_getD_ge _ h]; simp

/-! ## All five windows -/

/-- Settles O15: each offset names its window, and the words of that window are the fields of the entry. -/
theorem windowsShowTheTables : Obligations.WindowsShowTheTables := by
  intro s
  refine ⟨fun x => ⟨mmioRead_freq_word s x (k := 0) (by decide), ?_⟩, mmioRead_len_word s, fun x k hk => ?_,
    fun i hi => ⟨?_, ?_, ?_, ?_, fun hinv hp hn k hk => ?_⟩, fun j b hj hb => ?_⟩
  · rw [← mmioRead_freq_word s x (k := 1) (by decide)]
    congr 2; omega
  · rw [← mmioRead_code_word s x hk, Nat.add_assoc]
  · rw [← Nat.add_zero (_ + _), Nat.add_assoc, mmioRead_node_word s hi (k := 0) (by decide)]
    exact entryWord_zero_fields s.node[i]
  · rw [Nat.add_assoc, mmioRead_node_word s hi (k := 1) (by decide)]; rfl
  · rw [Nat.add_assoc, mmioRead_node_word s hi (k := 2) (by decide)]; rfl
  · rw [Nat.add_assoc, mmioRead_node_word s hi (k := 3) (by decide)]
    exact entryWord_three_fields s.node[i]
  · rw [Nat.add_assoc, mmioRead_node_word s hi hk, hinv.node_unused hp hi hn, entryWord_zero_of_unused hk]
  · rw [mmioRead_active s (by omega), getLsbD_activeWindow s hb]

end Sys2Proof.Machine
end

section
/-! PROOFS, family 30_encoding: decoder and encoder as inverses of each other, the check of a word, and the expansion of the
pseudo-instructions (spec R90, R95, R97, R99, R100). -/

namespace Sys2Proof.Machine

/-! ## Decode of encode (R95, R99) -/

/-- The decoder reads from a word with RSV = 0 what the opcode map gives. -/
@[simp] theorem decode_cmdWord (op : BitVec 8) (sym : Sym) : decode (cmdWord op sym) = decodeOp (cmdWord op sym) :=
  if_pos (fieldRsv_cmdWord op sym)

/-- A command without a symbol operand is read from a word whose SYM is 0. -/
theorem plainCommand_of_sym {v : Word32} (h : fieldSym v = 0#8) (i : Instr) : plainCommand i v = .ok i := if_pos h

/-- Of each command's word the opcode names the command, and SYM is its operand or 0. -/
theorem decode_encode (i : Instr) : decode (encode i) = .ok i := by
  cases i
  case count s | setfreq s | pack s => simp [encode, decodeOp]
  all_goals simp [encode, decodeOp, plainCommand_of_sym]

/-- Settles O3, command by command. -/
theorem decodeOfEncodeIsTheCommand : Obligations.DecodeOfEncodeIsTheCommand := decode_encode

/-! ## Well-formed words (R97) -/

/-- The check of a word, in the three parts of the rule. -/
theorem wellFormed_iff (v : Word32) : wellFormed v = true ↔
    fieldRsv v = 0#16 ∧ 0x01 ≤ (fieldOp v).toNat ∧ (fieldOp v).toNat ≤ 0x0A ∧
      ((fieldOp v).toNat ∈ [0x02, 0x03, 0x09] ∨ fieldSym v = 0#8) := by
  simp [wellFormed, rsvIsZero, opIsAssigned, symIsAllowed, opTakesSymbol, fieldRsv, fieldOp, fieldSym, BitVec.le_def,
    BitVec.toNat_eq, and_assoc, or_assoc]

/-- The word of every command is well formed. -/
theorem wellFormed_encode (i : Instr) : wellFormed (encode i) = true := by
  cases i with
  | clear => exact Laws.Encoding.clear.1
  | count s => exact (Laws.Encoding.count s).1
  | setfreq s => exact (Laws.Encoding.setfreq s).1
  | finit => exact Laws.Encoding.finit.1
  | merge => exact Laws.Encoding.merge.1
  | build => exact Laws.Encoding.build.1
  | gencodes => exact Laws.Encoding.gencodes.1
  | serialize => exact Laws.Encoding.serialize.1
  | pack s => exact (Laws.Encoding.pack s).1
  | flush => exact Laws.Encoding.flush.1

/-- The decoder gives a command for every well-formed word. -/
theorem exists_decode_of_wellFormed {v : Word32} (h : wellFormed v = true) : ∃ i, decode v = .ok i := by
  obtain ⟨hrsv, hlo, hhi, hsym⟩ := (wellFormed_iff v).1 h
  rw [decode, if_pos hrsv]
  unfold decodeOp
  split
  case h_2 | h_3 | h_9 => exact ⟨_, rfl⟩
  case h_11 => interval_cases (fieldOp v).toNat <;> contradiction
  all_goals
    rename_i e
    exact ⟨_, plainCommand_of_sym (hsym.resolve_left (by simp [e])) _⟩

/-- The well-formed words are the words the decoder gives a command for. -/
theorem wellFormed_iff_exists_decode (v : Word32) : wellFormed v = true ↔ ∃ i, decode v = .ok i :=
  ⟨exists_decode_of_wellFormed, fun ⟨i, hi⟩ => encode_of_decode hi ▸ wellFormed_encode i⟩

/-- Settles O2, by way of the model's own check of the word. -/
theorem wellFormedWordsAreExactlyTheCommands : Obligations.WellFormedWordsAreExactlyTheCommands := fun v =>
  ⟨(wellFormed_iff v).symm.trans (wellFormed_iff_exists_decode v), wellFormed_iff_exists_decode v,
    fun _ => encode_of_decode⟩

/-! ## Words written out (R90, R95) -/

/-- Settles O1: the decoder evaluated on each word. -/
theorem writtenOutWordsDecode : Obligations.WrittenOutWordsDecode := by
  unfold Obligations.WrittenOutWordsDecode
  decide

/-! ## The pseudo-instructions (R100) -/

/-- One command a byte, in order: COUNTS and PACKS. -/
theorem map_writeInstr_eq_flatMap (f : Byte → Instr) (text : List Byte) :
    (text.map fun b => writeInstr (f b)) = text.flatMap fun b => assemble (.cmd (f b)) :=
  List.map_eq_flatMap

/-- The accesses of ENCODE are those of the eight statements it stands for. -/
theorem assemble_encode (text : List Byte) : assemble (.encode text) =
    assembleAll [.cmd .clear, .counts text, .cmd .finit, .cmd .build, .cmd .gencodes, .cmd .serialize, .packs text,
      .cmd .flush] := by
  simp [assembleAll, assemble, encodeCommands, Function.comp_def]

/-- Settles O49: each pseudo-instruction by what `assemble` makes of it. -/
theorem pseudoInstructionsExpand : Obligations.PseudoInstructionsExpand :=
  ⟨fun _ _ => rfl, map_writeInstr_eq_flatMap .count, map_writeInstr_eq_flatMap .pack, assemble_encode, fun _ => rfl⟩

end Sys2Proof.Machine
end

section
/-! PROOFS, family 41_frequency: what COUNT and SETFREQ write, what that does to NSYM, and when they fault (spec R28, R94,
R110, R111, R233). -/

namespace Sys2Proof.Machine

/-! ## A command that is refused by its word or by the phase (R94, R233) -/

/-- A word with RSV set is ILLEGAL_CMD outside FAULT, whatever its other fields are (R94). -/
theorem onCmdWrite_of_fieldRsv_ne {v : Word32} {s : State} (hrsv : fieldRsv v ≠ 0#16) (hp : s.phase ≠ .fault) :
    onCmdWrite v s = .next (s.faultedWith .illegalCmd) := by
  have hd : decode v = .error .reservedFieldSet := if_neg hrsv
  rcases onCmdWrite_cases v s with ⟨h, -⟩ | ⟨h, -⟩ | ⟨-, -, e⟩ | ⟨-, i, hi, -⟩
  · exact absurd h hp
  · exact absurd h hp
  · exact e
  · rw [hd] at hi; cases hi

/-- In a phase that does not accept it, FAULT included, a command leaves the fault entry of SEQUENCE (R233, R254). -/
theorem exec_of_not_accepts {i : Instr} {s : State} (ha : accepts i s.phase = false) :
    exec i s = .next (raiseFault .sequence s) := by
  by_cases hp : s.phase = .fault
  · have hi : i ≠ .clear := by rintro rfl; cases ha
    rw [exec_in_fault hp, if_neg hi, raiseFault_of_fault hp]
  · rw [exec_sequence hp ha, raiseFault_eq hp]

/-- A sequence of commands whose first one completes goes on from the state that it leaves. -/
theorem execAll_cons {i : Instr} {s t : State} (h : exec i s = .next t) (is : List Instr) :
    execAll (i :: is) s = execAll is t := by
  simp only [execAll, h]

/-! ## NSYM after one write of FREQ (R28) -/

/-- The old entry leaves the count and the new one enters it, each if it is not 0. -/
theorem nsym_write {s t : State} {x : Sym} {w : Weight} (hf : t.freq = symSet s.freq x w) :
    t.nsym = s.nsym - (if symGet s.freq x != 0#64 then 1 else 0) + (if w != 0#64 then 1 else 0) := by
  have hlen : x.toNat < s.freq.toList.length := by simpa using x.isLt
  rw [State.nsym, hf, symSet, Vector.toList_set, List.countP_set hlen]
  rfl

/-- A counted symbol is in the alphabet. -/
theorem nsym_pos {s : State} {x : Sym} (hx : symGet s.freq x ≠ 0#64) : 0 < s.nsym :=
  List.countP_pos_iff.2 ⟨symGet s.freq x, by simp [symGet], by simpa using hx⟩

/-! ## COUNT (R110) -/

/-- What COUNT x leaves below the greatest TOTAL (R110). -/
def State.counted (s : State) (x : Sym) : State :=
  { s with freq := symSet s.freq x (symGet s.freq x + 1#64), total := s.total + 1#64 }

@[simp] theorem counted_total (s : State) (x : Sym) : (s.counted x).total = s.total + 1#64 := rfl

theorem symGet_counted (s : State) (x y : Sym) :
    symGet (s.counted x).freq y = if y = x then symGet s.freq y + 1#64 else symGet s.freq y := by
  rw [State.counted, symGet_symSet]
  split <;> simp_all

/-- In the phase COUNT the command runs its rule. -/
theorem exec_count_eq_body {s : State} (hp : s.phase = .count) (x : Sym) : exec (.count x) s = countBody x s :=
  gated_of_accepts (countBody x) (by simp [hp]) (by simp [accepts, hp])

theorem exec_count {s : State} (hp : s.phase = .count) (ht : s.total.toNat ≠ Config.totalMax) (x : Sym) :
    exec (.count x) s = .next (s.counted x) :=
  (exec_count_eq_body hp x).trans (if_neg ht)

/-- COUNT at the greatest TOTAL (R110). -/
theorem exec_count_overflow {s : State} (hp : s.phase = .count) (ht : s.total.toNat = Config.totalMax) (x : Sym) :
    exec (.count x) s = .next (s.faultedWith .countOverflow) := by
  rw [exec_count_eq_body hp, countBody, if_pos ht, raiseFault_eq (by simp [hp])]

theorem counted_total_toNat {s : State} (ht : s.total.toNat ≠ Config.totalMax) (x : Sym) :
    (s.counted x).total.toNat = s.total.toNat + 1 := by
  have hlt := s.total.isLt
  simp only [Config.totalMax] at ht
  simp only [counted_total, BitVec.toNat_add, BitVec.toNat_ofNat]
  omega

/-- No count wraps while TOTAL is the sum of the counts and does not wrap (R27, R110). -/
theorem TotalInv.symGet_counted_toNat {s : State} (h : TotalInv s) (ht : s.total.toNat ≠ Config.totalMax) (x : Sym) :
    (symGet (s.counted x).freq x).toNat = (symGet s.freq x).toNat + 1 := by
  have hle := h.symGet_le x
  have hlt := s.total.isLt
  simp only [Config.totalMax] at ht
  simp only [symGet_counted, if_true, BitVec.toNat_add, BitVec.toNat_ofNat]
  omega

/-- The first COUNT of a symbol adds it to the alphabet (R28). -/
theorem nsym_counted {s : State} {x : Sym} (hx : symGet s.freq x = 0#64) : (s.counted x).nsym = s.nsym + 1 := by
  rw [nsym_write (s := s) (t := s.counted x) rfl]
  simp [hx]

/-- Two counts add up in either order, entry by entry. -/
theorem counted_comm (s : State) (a b : Sym) : (s.counted a).counted b = (s.counted b).counted a := by
  have hfreq : ((s.counted a).counted b).freq = ((s.counted b).counted a).freq :=
    symTable_ext fun x => by
      simp only [symGet_counted]
      split_ifs <;> rfl
  exact congrArg (fun f => { s with freq := f, total := s.total + 1#64 + 1#64 }) hfreq

/-- Two COUNTs below the greatest TOTAL. -/
theorem execAll_count_count {s : State} (hp : s.phase = .count) (ht : s.total.toNat + 2 ≤ Config.totalMax) (a b : Sym) :
    execAll [.count a, .count b] s = .next ((s.counted a).counted b) := by
  have h1 : s.total.toNat ≠ Config.totalMax := by omega
  have h2 : (s.counted a).total.toNat ≠ Config.totalMax := by rw [counted_total_toNat h1]; omega
  rw [execAll_cons (exec_count hp h1 a), execAll_cons (exec_count (s := s.counted a) hp h2 b), execAll]

/-- COUNT outside its phase, FAULT included. -/
theorem exec_count_of_phase_ne {s : State} (hp : s.phase ≠ .count) (x : Sym) :
    exec (.count x) s = .next (raiseFault .sequence s) := exec_of_not_accepts (i := .count x) (beq_false_of_ne hp)

/-- Two COUNTs outside the phase COUNT: the first one faults, the second one is ignored. -/
theorem execAll_count_count_of_ne {s : State} (hp : s.phase ≠ .count) (a b : Sym) :
    execAll [.count a, .count b] s = .next (raiseFault .sequence s) := by
  have hq : (raiseFault .sequence s).phase ≠ .count := by simp
  rw [execAll_cons (exec_count_of_phase_ne hp a), execAll_cons (exec_count_of_phase_ne hq b), execAll,
    raiseFault_of_fault (raiseFault_phase _ s)]

/-- The order of two COUNTs does not matter, in any phase (R110). -/
theorem execAll_count_comm {s : State} (ht : s.total.toNat + 2 ≤ Config.totalMax) (a b : Sym) :
    execAll [.count a, .count b] s = execAll [.count b, .count a] s := by
  by_cases hp : s.phase = .count
  · rw [execAll_count_count hp ht, execAll_count_count hp ht, counted_comm]
  · rw [execAll_count_count_of_ne hp, execAll_count_count_of_ne hp]

/-- Settles O22: each clause is one fact about `State.counted` or about a refused command. -/
theorem countAddsOneOrFaults : Obligations.CountAddsOneOrFaults := by
  intro sym s
  refine ⟨fun a b ht => execAll_count_comm ht a b, cmdWord_toNat 0x02#8 sym, fun hp ht => ?_,
    fun hp ht => exec_count_overflow hp ht sym, fun hp hne => exec_sequence hne (beq_false_of_ne hp),
    fun v _ hrsv hne => onCmdWrite_of_fieldRsv_ne hrsv hne⟩
  exact ⟨s.counted sym, exec_count hp ht sym, symGet_counted s sym, counted_total_toNat ht sym, rfl, nsym_counted,
    fun htot => htot.symGet_counted_toNat ht sym⟩

/-! ## SETFREQ (R111) -/

/-- D = DATA_HI * 2^32 + DATA_LO (R93). -/
theorem dataOperand_toNat (s : State) : s.dataOperand.toNat = s.dataHi.toNat * 2 ^ 32 + s.dataLo.toNat := by
  change (s.dataHi ++ s.dataLo : BitVec (32 + 32)).toNat = _
  rw [BitVec.toNat_append, ← Nat.shiftLeft_add_eq_or_of_lt s.dataLo.isLt, Nat.shiftLeft_eq]

/-- What SETFREQ x leaves when T' fits (R111). -/
def State.recounted (s : State) (x : Sym) : State :=
  { s with freq := symSet s.freq x s.dataOperand, total := BitVec.ofInt 64 (setfreqTotal x s) }

theorem symGet_recounted (s : State) (x y : Sym) :
    symGet (s.recounted x).freq y = if y = x then s.dataOperand else symGet s.freq y := symGet_symSet ..

/-- In the phase COUNT the command runs its rule. -/
theorem exec_setfreq_eq_body {s : State} (hp : s.phase = .count) (x : Sym) :
    exec (.setfreq x) s = setfreqBody x s :=
  gated_of_accepts (setfreqBody x) (by simp [hp]) (by simp [accepts, hp])

theorem exec_setfreq {s : State} {x : Sym} (hp : s.phase = .count) (ht : setfreqTotal x s ≤ Config.totalMax) :
    exec (.setfreq x) s = .next (s.recounted x) :=
  (exec_setfreq_eq_body hp x).trans (if_neg (Int.not_lt.2 ht))

/-- SETFREQ with a T' above 2^64 - 1 (R111). -/
theorem exec_setfreq_overflow {s : State} {x : Sym} (hp : s.phase = .count) (ht : Config.totalMax < setfreqTotal x s) :
    exec (.setfreq x) s = .next (s.faultedWith .countOverflow) := by
  rw [exec_setfreq_eq_body hp, setfreqBody, if_pos ht, raiseFault_eq (by simp [hp])]

/-- TOTAL becomes T' itself when T' is neither negative nor above 2^64 - 1. -/
theorem recounted_total_toNat {s : State} {x : Sym} (h0 : 0 ≤ setfreqTotal x s)
    (ht : setfreqTotal x s ≤ Config.totalMax) : ((s.recounted x).total.toNat : Int) = setfreqTotal x s := by
  simp only [Config.totalMax] at ht
  simp only [State.recounted, BitVec.toNat_ofInt]
  omega

/-- SETFREQ of 0 takes a counted symbol out of the alphabet (R28, R111). -/
theorem nsym_recounted_zero {s : State} {x : Sym} (hD : s.dataOperand = 0#64) (hx : symGet s.freq x ≠ 0#64) :
    (s.recounted x).nsym + 1 = s.nsym := by
  rw [nsym_write (s := s) (t := s.recounted x) rfl]
  simpa [hD, hx] using Nat.sub_add_cancel (nsym_pos hx)

/-- Writing an entry that is there already changes no table. -/
theorem symSet_symGet {α : Type} (t : Vector α 256) (x : Sym) : symSet t x (symGet t x) = t :=
  symTable_ext fun y => by rw [symGet_symSet]; split <;> simp_all

/-- SETFREQ of the count as it stands changes nothing (R111). -/
theorem recounted_of_dataOperand_eq {s : State} {x : Sym} (hD : s.dataOperand = symGet s.freq x) : s.recounted x = s := by
  have htotal : setfreqTotal x s = s.total.toNat := by rw [setfreqTotal, hD]; omega
  rw [State.recounted, htotal, hD, symSet_symGet, BitVec.ofInt_natCast, BitVec.ofNat_toNat, BitVec.setWidth_eq]

/-- T' is not negative, because TOTAL contains the count that it replaces (R27, R111). -/
theorem TotalInv.setfreqTotal_nonneg {s : State} (h : TotalInv s) (x : Sym) : 0 ≤ setfreqTotal x s := by
  have hle := h.symGet_le x
  rw [setfreqTotal]
  omega

/-- Where every other count is 0, TOTAL is the one count. -/
theorem TotalInv.total_of_sole {s : State} (h : TotalInv s) {x : Sym} (hx : ∀ y, y ≠ x → symGet s.freq y = 0#64) :
    s.total.toNat = (symGet s.freq x).toNat := by
  rw [h.sum_symbols, List.sum_map_eq_nsmul_single x _ fun y hy _ => by rw [hx y hy]; rfl,
    List.count_eq_one_of_mem symbols_nodup (mem_symbols x), one_smul]

/-- Where every other count is 0, T' is D, so every D is accepted (R111). -/
theorem TotalInv.setfreqTotal_le_of_sole {s : State} (h : TotalInv s) {x : Sym}
    (hx : ∀ y, y ≠ x → symGet s.freq y = 0#64) : setfreqTotal x s ≤ Config.totalMax := by
  have hD := s.dataOperand.isLt
  rw [setfreqTotal, h.total_of_sole hx, Config.totalMax]
  omega

/-- Settles O23: with D and T' read as the model's own, each clause is one fact about `State.recounted` or about a refused
command. -/
theorem setfreqReplacesTheCountOrFaults : Obligations.SetfreqReplacesTheCountOrFaults := by
  intro sym s D T'
  have hD : D = s.dataOperand.toNat := (dataOperand_toNat s).symm
  have hT : T' = setfreqTotal sym s := by simp only [T', hD, setfreqTotal]
  clear_value D T'
  subst hD hT
  refine ⟨cmdWord_toNat 0x03#8 sym, fun htot => ⟨htot.setfreqTotal_nonneg sym, htot.setfreqTotal_le_of_sole⟩,
    fun hp ht => ⟨s.recounted sym, exec_setfreq hp ht, fun x => ?_, fun h0 => recounted_total_toNat h0 ht, rfl,
      fun hzero hx => nsym_recounted_zero (BitVec.eq_of_toNat_eq hzero) hx,
      fun _ hsame => recounted_of_dataOperand_eq (BitVec.eq_of_toNat_eq hsame)⟩,
    exec_setfreq_overflow, fun hp hne => exec_sequence hne (beq_false_of_ne hp),
    fun v _ hrsv hne => onCmdWrite_of_fieldRsv_ne hrsv hne⟩
  rw [symGet_recounted]
  split <;> rfl

end Sys2Proof.Machine
end

section
/-! PROOFS, family 42_merge_engine: FINIT, and the words that are no command of the merge engine (spec R94, R97, R132). -/

namespace Sys2Proof.Machine

/-! ## Words with a field set that the opcode does not use (R94, R97) -/

/-- A word that fails the check of R97 is ILLEGAL_CMD outside FAULT. -/
theorem onCmdWrite_of_not_wellFormed {v : Word32} {s : State} (hv : ¬ wellFormed v = true) (hp : s.phase ≠ .fault) :
    onCmdWrite v s = .next (s.faultedWith .illegalCmd) := by
  rcases onCmdWrite_cases v s with ⟨h, -⟩ | ⟨h, -⟩ | ⟨-, -, e⟩ | ⟨-, i, hi, -⟩
  · exact absurd h hp
  · exact absurd h hp
  · exact e
  · exact absurd ((wellFormed_iff_exists_decode v).2 ⟨i, hi⟩) hv

/-- A word whose opcode takes no symbol is ILLEGAL_CMD outside FAULT when its SYM or its RSV is not 0. -/
theorem onCmdWrite_of_operand_set {v : Word32} {s : State} {op : BitVec 8} (hop : v.extractLsb' 0 8 = op)
    (hplain : op.toNat ∉ [0x02, 0x03, 0x09]) (hset : v.extractLsb' 8 8 ≠ 0#8 ∨ v.extractLsb' 16 16 ≠ 0#16)
    (hp : s.phase ≠ .fault) : onCmdWrite v s = .next (s.faultedWith .illegalCmd) := by
  refine onCmdWrite_of_not_wellFormed (fun hw => ?_) hp
  obtain ⟨hrsv, -, -, hsym⟩ := (wellFormed_iff v).1 hw
  rw [fieldOp, hop] at hsym
  exact hset.elim (absurd (hsym.resolve_left hplain)) (absurd hrsv)

/-! ## FINIT (R132) -/

/-- What FINIT leaves when some symbol was counted (R132). -/
def State.finited (s : State) : State :=
  { s with
    node := finitArena s.freq
    active := arenaTable fun i => decide (i < s.nsym)
    code := Vector.replicate 256 0#256
    len := Vector.replicate 256 0#9
    nnodes := BitVec.ofNat 10 s.nsym
    root := 0#9
    degen := degenFlag s.nsym
    phase := if s.nsym = 1 then .tree else .merge }

/-- In the phase COUNT the command runs its rule. -/
theorem exec_finit_eq_body {s : State} (hp : s.phase = .count) : exec .finit s = finitBody s :=
  gated_of_accepts finitBody (by simp [hp]) (by simp [accepts, hp])

theorem exec_finit {s : State} (hp : s.phase = .count) (hn : s.nsym ≠ 0) : exec .finit s = .next s.finited :=
  (exec_finit_eq_body hp).trans (if_neg hn)

/-- FINIT with no symbol counted (R132). -/
theorem exec_finit_empty {s : State} (hp : s.phase = .count) (hn : s.nsym = 0) :
    exec .finit s = .next (s.faultedWith .empty) := by
  rw [exec_finit_eq_body hp, finitBody]
  simp only [hn, if_true, raiseFault_eq (show s.phase ≠ .fault by simp [hp])]

theorem finited_nnodes_toNat (s : State) : s.finited.nnodes.toNat = s.nsym := by
  have hle := nsym_le s
  change (BitVec.ofNat 10 s.nsym).toNat = s.nsym
  rw [BitVec.toNat_ofNat, Nat.mod_eq_of_lt (by omega)]

/-- FINIT makes one root a counted symbol (R132). -/
theorem finited_forest (s : State) : s.finited.forest = s.nsym := by
  rw [(holdsForest_finit s.finited rfl rfl rfl rfl).forest_eq, leafTrees, List.length_mapIdx, mapping_length]

/-- Settles O24: each clause is one fact about `State.finited` or about a refused command. -/
theorem finitLoadsTheForest : Obligations.FinitLoadsTheForest := by
  intro s
  refine ⟨rfl, fun hp hn => ⟨s.finited, exec_finit hp hn, finitArena_getElem s, fun i h => getElem_arenaTable _ i h,
      mapping_length s, finited_forest s, fun x => ⟨symGet_replicate _ x, symGet_replicate _ x⟩,
      finited_nnodes_toNat s, rfl, rfl, rfl, rfl⟩,
    exec_finit_empty, fun hp hne => exec_sequence hne (beq_false_of_ne hp),
    fun v hop hset hne => onCmdWrite_of_operand_set hop (by decide) hset hne⟩

end Sys2Proof.Machine
end

section
/-! PROOFS, family 42_merge_engine: the comparator as a strict total order, and what MERGE writes (spec R130, R131, R133). -/

namespace Sys2Proof.Machine

/-! ## The comparator (R130) -/

/-- The used entries of a held forest are totally ordered (R130). -/
theorem HoldsForest.precedesAt_total {s : State} {ts : List Tree} (h : HoldsForest s ts) {i j : Fin 511}
    (hi : i.val < s.nnodes.toNat) (hj : j.val < s.nnodes.toNat) (hij : i ≠ j) :
    precedesAt s.node i j = true ∨ precedesAt s.node j i = true :=
  precedes_total (fun ki kj e => hij (h.leaf_inj hi hj ki kj e)) fun _ _ e => hij (Fin.ext e)

/-- The four keys of R130, in the words of the rule. -/
theorem precedes_iff_keys (a b : NodeEntry) (i j : Nat) : precedes a i b j = true ↔
    (a.w.toNat < b.w.toNat ∨ a.w = b.w ∧
      (a.kind = .leaf ∧ b.kind = .internal ∨
       a.kind = .leaf ∧ b.kind = .leaf ∧ a.sym.toNat < b.sym.toNat ∨
       a.kind = .internal ∧ b.kind = .internal ∧ i < j)) := by
  rw [precedes_iff, ← BitVec.toNat_eq, lastKey, lastKey]
  cases a.kind <;> cases b.kind <;> simp [kindRank]

/-- Settles O25: on used entries the keys decide every pair, because no two leaves share a symbol. -/
theorem comparatorIsAStrictTotalOrder : Obligations.ComparatorIsAStrictTotalOrder :=
  ⟨precedes_iff_keys, fun _ _ h _ _ _ hi hj _ =>
    ⟨precedes_irrefl _ _, precedes_trans, h.precedesAt_total hi hj⟩⟩

/-! ## MERGE (R131, R133) -/

theorem HoldsForest.active_lt {s : State} {ts : List Tree} (h : HoldsForest s ts) {i : Fin 511}
    (hi : s.active[i] = true) : i.val < s.nnodes.toNat := by
  obtain ⟨t, ht, e⟩ := h.root_of_active.1 hi
  exact h.index_lt ht (e ▸ t.idx_mem_indices)

/-- Among the roots of a held forest, one that no other precedes is the argmin (R131). -/
theorem HoldsForest.isArgmin {s : State} {ts : List Tree} (h : HoldsForest s ts) {S : Fin 511 → Prop} {m : Fin 511}
    (hS : ∀ x, S x → s.active[x] = true) (hm : S m) (hmin : ∀ x, S x → precedesAt s.node x m = false) :
    IsArgmin s.node S m := by
  refine ⟨hm, fun x hx hne => ?_⟩
  refine (h.precedesAt_total (h.active_lt (hS m hm)) (h.active_lt (hS x hx)) hne.symm).resolve_right ?_
  rw [hmin x hx]
  exact Bool.false_ne_true

/-- The entry a merge creates, with its weight over the integers (R131). -/
theorem getElem_mergePair_node {m1 m2 : Fin 511} {k : Nat} (hk : k < 511) (s : State) (i : Nat) (h : i < 511) :
    (mergePair m1 m2 k hk s).node[i] =
      if i = k then
        { kind := .internal, sym := 0#8, w := BitVec.ofNat 64 (s.node[m1].w.toNat + s.node[m2].w.toNat),
          left := BitVec.ofNat 9 m1.val, right := BitVec.ofNat 9 m2.val }
      else s.node[i] := by
  simp only [mergePair_node, Vector.getElem_set, @eq_comm _ k i]
  split
  · simp [NodeEntry.internalOf, BitVec.ofNat_add]
  · rfl

theorem getElem_mergePair_active {m1 m2 : Fin 511} {k : Nat} (hk : k < 511) (s : State) (i : Nat) (h : i < 511) :
    (mergePair m1 m2 k hk s).active[i] =
      if i = k then true else if i = m1.val ∨ i = m2.val then false else s.active[i] := by
  simp only [mergePair_active, Vector.getElem_set, @eq_comm _ _ i]
  split_ifs <;> simp_all

/-- NNODES does not wrap in a merge (R131). -/
theorem mergePair_nnodes_toNat {s : State} (m1 m2 : Fin 511) (hk : s.nnodes.toNat < 511) :
    (mergePair m1 m2 s.nnodes.toNat hk s).nnodes.toNat = s.nnodes.toNat + 1 := by
  rw [mergePair_nnodes, BitVec.toNat_add, BitVec.toNat_ofNat]; omega

/-- In the phase MERGE the command runs its rule. -/
theorem exec_merge_eq {s : State} (hp : s.phase = .merge) : exec .merge s = mergeResult (mergeOnce s) :=
  gated_of_accepts mergeBody (by simp [hp]) (by simp [accepts, hp])

/-- Settles O26: the two selected roots are those of `HoldsForest.merge_step`, and the clauses are what `mergePair` writes. -/
theorem mergeJoinsTheTwoFirstSelected : Obligations.MergeJoinsTheTwoFirstSelected := by
  intro s
  refine ⟨rfl, fun hs hp => ?_, fun hp hne => exec_sequence hne (beq_false_of_ne hp),
    fun v hop hset hne => onCmdWrite_of_operand_set hop (by decide) hset hne⟩
  obtain ⟨htot, -, htree⟩ := hs
  obtain ⟨-, hfor, ts, hts⟩ := (treeInv_of_merge hp).1 htree
  obtain ⟨m1, m2, hk, t1, t2, rest, h12, a1, a2, min1, min2, hok, -, -, -, hw, -⟩ :=
    hts.merge_step htot (hts.forest_eq ▸ hfor)
  refine ⟨hfor, m1, m2, mergePair m1 m2 s.nnodes.toNat hk s, by rw [exec_merge_eq hp, hok]; rfl,
    hts.isArgmin (fun _ hx => hx) a1 min1,
    hts.isArgmin (fun _ hx => hx.1) ⟨a2, h12.symm⟩ fun x hx => min2 x hx.1 hx.2,
    Nat.le_of_lt_succ hk, hw, getElem_mergePair_node hk s, getElem_mergePair_active hk s,
    mergePair_nnodes_toNat m1 m2 hk, fun h1 => ⟨?_, ?_⟩, fun h1 => ⟨?_, ?_⟩, (mergePair_frame m1 m2 _ hk s).1⟩
  · rw [mergePair_phase, if_pos h1]
  · rw [mergePair_root, if_pos h1, BitVec.toNat_ofNat, Nat.mod_eq_of_lt (by omega)]
  · rw [mergePair_phase, if_neg h1, hp]
  · rw [mergePair_root, if_neg h1]

end Sys2Proof.Machine
end

section
/-! PROOFS, family 42_merge_engine: what each merge does to FOREST and NNODES, and BUILD as the merges that are left
(spec R134, R135). -/

namespace Sys2Proof.Machine

/-! ## The forest within the invariants (R135, R136) -/

/-- In phase MERGE a pair is left to merge (R133). -/
theorem BlockInv.two_le_forest {s : State} (h : BlockInv s) (hp : s.phase = .merge) : 2 ≤ s.forest := by
  obtain ⟨-, -, htree⟩ := h
  obtain ⟨-, hfor, -⟩ := (treeInv_of_merge hp).1 htree
  exact hfor

/-- In phase TREE one root is left, it is ROOT, and the arena holds a full binary tree (R135, R136). -/
theorem BlockInv.forest_of_tree {s : State} (h : BlockInv s) (hp : s.phase = .tree) :
    s.forest = 1 ∧ s.active[s.root.toNat]? = some true ∧ s.nnodes.toNat + 1 = 2 * s.nsym := by
  obtain ⟨-, -, htree⟩ := h
  obtain ⟨-, t, ht, hr⟩ := (treeInv_of_tree hp).1 htree
  obtain ⟨hi, -⟩ := ht.entry_eq (t := t) (by simp)
  refine ⟨ht.forest_eq, ?_, ht.counts.1⟩
  rw [hr, Vector.getElem?_eq_getElem hi]
  exact congrArg some (ht.root_of_active (i := ⟨t.idx, hi⟩).2 ⟨t, by simp, rfl⟩)

theorem BlockInv.activeWeight_eq_total {s : State} (h : BlockInv s) (hp : s.phase = .merge ∨ s.phase = .tree) :
    s.activeWeight = s.total.toNat := by
  obtain ⟨htot, -, htree⟩ := h
  obtain ⟨ts, hts⟩ := htree.holdsForest (by rcases hp with hp | hp <;> simp [hp])
  exact hts.activeWeight_eq_total htot

/-! ## One MERGE (R133, R135) -/

/-- t is what MERGE makes of s within the invariants: one root less, one entry more, and no phase but MERGE and TREE. -/
structure MergedOnce (s t : State) : Prop where
  run : exec .merge s = .next t
  once : mergeOnce s = .ok t
  inv : BlockInv t
  forest : t.forest + 1 = s.forest
  nnodes : t.nnodes.toNat = s.nnodes.toNat + 1
  phase : t.phase = .merge ∨ t.phase = .tree

theorem BlockInv.exists_mergedOnce {s : State} (hs : BlockInv s) (hp : s.phase = .merge) : ∃ t, MergedOnce s t := by
  obtain ⟨htot, -, htree⟩ := id hs
  obtain ⟨-, hfor, ts, hts⟩ := (treeInv_of_merge hp).1 htree
  obtain ⟨m1, m2, hk, -, -, -, h12, a1, a2, -, -, hok, -⟩ := hts.merge_step htot (hts.forest_eq ▸ hfor)
  have hrun : exec .merge s = .next (mergePair m1 m2 _ hk s) := by rw [exec_merge_eq hp, hok]; rfl
  exact ⟨_, hrun, hok, exec_keeps_blockInv hs hrun, forest_mergePair hk h12 a1 a2 (hts.next_inactive hk),
    mergePair_nnodes_toNat m1 m2 hk, hp ▸ (mergeOnce_frame hok).2⟩

/-- A merge replaces two roots by one of their weights' sum (R135). -/
theorem MergedOnce.activeWeight_eq {s t : State} (h : MergedOnce s t) (hs : BlockInv s) (hp : s.phase = .merge) :
    t.activeWeight = s.activeWeight := by
  rw [h.inv.activeWeight_eq_total h.phase, hs.activeWeight_eq_total (.inl hp), (mergeOnce_frame h.once).total]

/-! ## BUILD (R134) -/

/-- In the phases MERGE and TREE the command runs its rule. -/
theorem exec_build_eq_body {s : State} (hp : s.phase = .merge ∨ s.phase = .tree) : exec .build s = buildBody s :=
  gated_of_accepts buildBody (by rcases hp with hp | hp <;> simp [hp]) (by simpa [accepts] using hp)

theorem exec_build_of_tree {s : State} (hp : s.phase = .tree) : exec .build s = .next s := by
  rw [exec_build_eq_body (.inr hp), buildBody, if_neg (by simp [hp])]

theorem exec_build_of_merge {s : State} (hp : s.phase = .merge) :
    exec .build s = mergeResult (mergeLoop s.forest s) := by
  rw [exec_build_eq_body (.inl hp), buildBody, if_pos hp]

/-- BUILD after a MERGE gives what BUILD alone gives (R134). -/
theorem MergedOnce.exec_build {s t : State} (h : MergedOnce s t) (hs : BlockInv s) (hp : s.phase = .merge) :
    exec .build s = exec .build t := by
  rw [exec_build_of_merge hp, ← h.forest, mergeLoop_ok (hs.two_le_forest hp) h.once]
  rcases h.phase with hm | ht
  · rw [exec_build_of_merge hm]
  · have hone : t.forest = 1 := (h.inv.forest_of_tree ht).1
    rw [exec_build_of_tree ht, mergeLoop_stop (by omega)]; rfl

/-- BUILD is as many MERGEs as there are roots above one, and they end in phase TREE (R134, R135). -/
theorem BlockInv.execAll_merges {n : Nat} : ∀ {s : State}, BlockInv s → s.phase = .merge ∨ s.phase = .tree →
    s.forest = n + 1 → ∃ t, execAll (List.replicate n .merge) s = .next t ∧ exec .build s = .next t ∧
      BlockInv t ∧ t.phase = .tree ∧ MergeFrame s t := by
  induction n with
  | zero =>
    intro s hs hp hf
    have htree : s.phase = .tree := hp.resolve_left fun hm => by have := hs.two_le_forest hm; omega
    exact ⟨s, rfl, exec_build_of_tree htree, hs, htree, .refl s⟩
  | succ n ih =>
    intro s hs hp hf
    have hm : s.phase = .merge := hp.resolve_right fun htree => by have := (hs.forest_of_tree htree).1; omega
    obtain ⟨u, hu⟩ := hs.exists_mergedOnce hm
    have hfu : u.forest = n + 1 := by have := hu.forest; omega
    obtain ⟨t, hmerges, hbuild, hinv, htree, hframe⟩ := ih hu.inv hu.phase hfu
    exact ⟨t, (execAll_cons hu.run _).trans hmerges, (hu.exec_build hs hm).trans hbuild, hinv, htree,
      (mergeOnce_frame hu.once).trans hframe⟩

/-- Settles O27: one merge by `MergedOnce`, the run by `BlockInv.execAll_merges` from what FINIT leaves. -/
theorem forestAccounting : Obligations.ForestAccounting := by
  intro s hs
  refine ⟨fun hp => ?_, fun hp hn => ?_⟩
  · obtain ⟨t, ht⟩ := hs.exists_mergedOnce hp
    exact ⟨t, ht.run, ht.forest, ht.nnodes, ht.activeWeight_eq hs hp⟩
  · have hfinit := exec_finit hp (by omega)
    have hphase : s.finited.phase = .merge := if_neg (by omega)
    obtain ⟨t, hrun, -, hinv, htree, hframe⟩ := (exec_keeps_blockInv hs hfinit).execAll_merges (n := s.nsym - 1)
      (.inl hphase) (by rw [finited_forest]; omega)
    obtain ⟨hone, -, hnodes⟩ := hinv.forest_of_tree htree
    have hnsym : t.nsym = s.nsym := nsym_congr hframe.freq
    exact ⟨t, (execAll_cons hfinit _).trans hrun, hone, hnsym ▸ hnodes, htree⟩

/-- Settles O28: BUILD and the MERGEs by `BlockInv.execAll_merges`, BUILD after a MERGE by `MergedOnce.exec_build`. -/
theorem buildMergesToOneRoot : Obligations.BuildMergesToOneRoot := by
  intro s
  refine ⟨rfl, fun hs hp => ?_, exec_build_of_tree,
    fun hm ht hne => exec_sequence hne (by simp [accepts, hm, ht]),
    fun v hop hset hne => onCmdWrite_of_operand_set hop (by decide) hset hne⟩
  obtain ⟨t, hmerges, hbuild, hinv, htree, hframe, -⟩ := hs.execAll_merges (n := s.forest - 1) (.inl hp)
    (by have := hs.two_le_forest hp; omega)
  obtain ⟨hone, hroot, -⟩ := hinv.forest_of_tree htree
  refine ⟨t, hbuild, hmerges, htree, hone, hroot, hframe, fun u hu => ?_⟩
  obtain ⟨u', hmerged⟩ := hs.exists_mergedOnce hp
  obtain rfl : u' = u := Host.Outcome.next.inj (hmerged.run.symm.trans hu)
  exact (hmerged.exec_build hs hp).symm.trans hbuild

end Sys2Proof.Machine
end

section
/-! PROOFS, family 42_merge_engine: the tree, the codes and the records as a function of FREQ alone (spec R137). Two runs
are compared by the tables they hold, whatever else their states hold. -/

namespace Sys2Proof.Machine

/-! ## States that hold the same tables in the same phase -/

/-- Everything FINIT, MERGE, BUILD and GENCODES read and write is the same. -/
structure SameTree (s t : State) : Prop extends SameTables s t where
  phase : t.phase = s.phase

theorem SameTree.forest_eq {s t : State} (h : SameTree s t) : t.forest = s.forest := by
  rw [State.forest, State.forest, h.active]

/-! ## MERGE and BUILD (R131, R134) -/

theorem MergeFrame.code {s t : State} (h : MergeFrame s t) : t.code = s.code := by rw [h.1]
theorem MergeFrame.len {s t : State} (h : MergeFrame s t) : t.len = s.len := by rw [h.1]

/-- A completed merge step is the pair of its two selections (R131). -/
theorem mergeOnce_ok {s u : State} (h : mergeOnce s = .ok u) :
    ∃ (m1 m2 : Fin 511) (hk : s.nnodes.toNat < 511), selectMin s.node s.active = some m1 ∧
      selectMin s.node (s.active.set m1.val false m1.isLt) = some m2 ∧ u = mergePair m1 m2 s.nnodes.toNat hk s := by
  unfold mergeOnce at h
  split at h
  · cases h
  · rename_i m1 h1
    split at h
    · cases h
    · rename_i m2 h2
      split at h
      · rename_i hk
        exact ⟨m1, m2, hk, h1, h2, (Except.ok.inj h).symm⟩
      · cases h

theorem sameTree_mergePair {s t : State} (h : SameTree s t) (m1 m2 : Fin 511) {k : Nat} (hk : k < 511) :
    SameTree (mergePair m1 m2 k hk s) (mergePair m1 m2 k hk t) := by
  have hs := mergePair_frame m1 m2 k hk s
  have ht := mergePair_frame m1 m2 k hk t
  have hactive : (mergePair m1 m2 k hk t).active = (mergePair m1 m2 k hk s).active := by
    rw [mergePair_active, mergePair_active, h.active]
  have hforest : (mergePair m1 m2 k hk t).forest = (mergePair m1 m2 k hk s).forest := by
    rw [State.forest, State.forest, hactive]
  exact {
    freq := by rw [ht.freq, hs.freq, h.freq]
    node := by rw [mergePair_node, mergePair_node, h.node]
    nnodes := by rw [mergePair_nnodes, mergePair_nnodes, h.nnodes]
    active := hactive
    root := by rw [mergePair_root, mergePair_root, hforest, h.root]
    degen := by rw [ht.degen, hs.degen, h.degen]
    code := by rw [ht.code, hs.code, h.code]
    len := by rw [ht.len, hs.len, h.len]
    phase := by rw [mergePair_phase, mergePair_phase, hforest, h.phase] }

/-- A merge step looks at NODE, ACTIVE and NNODES only, so it makes the same choices (R137). -/
theorem sameTree_mergeOnce {s t u v : State} (h : SameTree s t) (hu : mergeOnce s = .ok u) (hv : mergeOnce t = .ok v) :
    SameTree u v := by
  obtain ⟨m1, m2, hk, h1, h2, rfl⟩ := mergeOnce_ok hu
  obtain ⟨n1, n2, hk', h1', h2', rfl⟩ := mergeOnce_ok hv
  rw [h.node, h.active] at h1' h2'
  obtain rfl := Option.some.inj (h1.symm.trans h1')
  obtain rfl := Option.some.inj (h2.symm.trans h2')
  simp only [h.nnodes]
  exact sameTree_mergePair h m1 m2 hk

theorem sameTree_mergeLoop {fuel : Nat} {s t u v : State} (h : SameTree s t) (hu : mergeLoop fuel s = .ok u)
    (hv : mergeLoop fuel t = .ok v) : SameTree u v := by
  induction fuel generalizing s t with
  | zero =>
    obtain rfl := Except.ok.inj hu
    obtain rfl := Except.ok.inj hv
    exact h
  | succ fuel ih =>
    by_cases hf : s.forest > 1
    · have hf' : t.forest > 1 := h.forest_eq ▸ hf
      cases hs : mergeOnce s with
      | error e => exact (error_ne_ok ((mergeLoop_error hf hs).symm.trans hu)).elim
      | ok s' =>
        cases ht : mergeOnce t with
        | error e => exact (error_ne_ok ((mergeLoop_error hf' ht).symm.trans hv)).elim
        | ok t' =>
          exact ih (sameTree_mergeOnce h hs ht) ((mergeLoop_ok hf hs).symm.trans hu) ((mergeLoop_ok hf' ht).symm.trans hv)
    · have hf' : ¬ t.forest > 1 := h.forest_eq ▸ hf
      obtain rfl := Except.ok.inj ((mergeLoop_stop hf).symm.trans hu)
      obtain rfl := Except.ok.inj ((mergeLoop_stop hf').symm.trans hv)
      exact h

/-! ## BUILD and GENCODES as commands (R134, R161, R233) -/

theorem sameTree_raiseFault {s t : State} (h : SameTree s t) (e : ErrCode) :
    SameTree (raiseFault e s) (raiseFault e t) where
  freq := by simp [h.freq]
  node := by simp [h.node]
  nnodes := by simp [h.nnodes]
  active := by simp [h.active]
  root := by simp [h.root]
  degen := by simp [h.degen]
  code := by simp [h.code]
  len := by simp [h.len]
  phase := by simp

/-- A command whose rule keeps two states alike keeps them alike, by the gate, in every phase (R233). -/
theorem sameTree_gated {i : Instr} {body : State → Result} {s t u v : State} (h : SameTree s t)
    (hbody : body s = .next u → body t = .next v → SameTree u v) (hu : gated i body s = .next u)
    (hv : gated i body t = .next v) : SameTree u v := by
  unfold gated at hu hv
  rw [h.phase] at hv
  by_cases hp : s.phase = .fault
  · rw [if_pos hp] at hu hv
    cases hu; cases hv
    exact h
  · rw [if_neg hp] at hu hv
    by_cases ha : accepts i s.phase = true
    · rw [if_pos ha] at hu hv
      exact hbody hu hv
    · rw [if_neg ha] at hu hv
      cases hu; cases hv
      exact sameTree_raiseFault h .sequence

theorem mergeResult_next {x : Except Fault State} {t : State} (h : mergeResult x = .next t) : x = .ok t := by
  cases x with
  | ok u => cases h; rfl
  | error e => cases h

theorem sameTree_buildBody {s t u v : State} (h : SameTree s t) (hu : buildBody s = .next u)
    (hv : buildBody t = .next v) : SameTree u v := by
  unfold buildBody at hu hv
  rw [h.phase, h.forest_eq] at hv
  by_cases hp : s.phase = .merge
  · rw [if_pos hp] at hu hv
    exact sameTree_mergeLoop h (mergeResult_next hu) (mergeResult_next hv)
  · rw [if_neg hp] at hu hv
    cases hu; cases hv
    exact h

/-- GENCODES reads NODE, ROOT and DEGEN only. -/
theorem SameTree.genTables_eq {s t : State} (h : SameTree s t) : genTables t = genTables s := by
  unfold genTables
  rw [h.degen, h.node, h.root]

theorem sameTree_gencodesBody {s t u v : State} (h : SameTree s t) (hu : gencodesBody s = .next u)
    (hv : gencodesBody t = .next v) : SameTree u v := by
  unfold gencodesBody at hu hv
  rw [h.genTables_eq] at hv
  cases hg : genTables s with
  | none => rw [hg] at hu; cases hu
  | some tb =>
    rw [hg] at hu hv
    cases hu; cases hv
    exact { h with code := rfl, len := rfl, phase := rfl }

/-! ## The whole run (R137) -/

/-- FINIT writes every table but FREQ, from FREQ (R132). -/
theorem sameTree_finited {s t : State} (h : t.freq = s.freq) : SameTree s.finited t.finited where
  freq := h
  node := congrArg finitArena h
  nnodes := by simp only [State.finited, nsym_congr h]
  active := by simp only [State.finited, nsym_congr h]
  root := rfl
  degen := by simp only [State.finited, nsym_congr h]
  code := rfl
  len := rfl
  phase := by simp only [State.finited, nsym_congr h]

/-- A sequence of commands that ends in a next state went through the next state of its first command. -/
theorem execAll_cons_next {i : Instr} {is : List Instr} {s t : State} (h : execAll (i :: is) s = .next t) :
    ∃ u, exec i s = .next u ∧ execAll is u = .next t := by
  rw [execAll] at h
  cases hu : exec i s with
  | next u => rw [hu] at h; exact ⟨u, rfl, h⟩
  | fault e => rw [hu] at h; cases h
  | refused r => rw [hu] at h; cases h

/-- From what FINIT leaves, BUILD and GENCODES end in one next state each. -/
theorem execAll_finit_build_gencodes {s t : State} (hp : s.phase = .count) (hn : s.nsym ≠ 0)
    (h : execAll [.finit, .build, .gencodes] s = .next t) :
    ∃ u, exec .build s.finited = .next u ∧ exec .gencodes u = .next t := by
  rw [execAll_cons (exec_finit hp hn)] at h
  obtain ⟨u, hu, h⟩ := execAll_cons_next h
  obtain ⟨v, hv, h⟩ := execAll_cons_next h
  cases h
  exact ⟨u, hu, hv⟩

/-- Settles O29: FINIT makes the tables alike, and BUILD and GENCODES keep them so. -/
theorem treeAndCodesDependOnFreqOnly : Obligations.TreeAndCodesDependOnFreqOnly := by
  intro s s' t t' hp hp' hfreq hn ht ht'
  obtain ⟨u, hu, ht⟩ := execAll_finit_build_gencodes hp hn ht
  obtain ⟨u', hu', ht'⟩ := execAll_finit_build_gencodes hp' (nsym_congr hfreq ▸ hn) ht'
  have hbuilt : SameTree u u' := sameTree_gated (sameTree_finited hfreq.symm)
    (sameTree_buildBody (sameTree_finited hfreq.symm)) hu hu'
  have hcoded : SameTree t t' := sameTree_gated hbuilt (sameTree_gencodesBody hbuilt) ht ht'
  refine ⟨hcoded.node.symm, hcoded.nnodes.symm, hcoded.active.symm, hcoded.root.symm, hcoded.code.symm,
    hcoded.len.symm, hcoded.degen.symm, ?_⟩
  rw [treeEntries, treeEntries, hcoded.node, hcoded.root]

end Sys2Proof.Machine
end

section
/-! PROOFS, family 42_merge_engine: the one full binary tree of the phases TREE to DONE (spec R136). -/

namespace Sys2Proof.Machine

/-- From phase TREE on the arena holds one tree, under ROOT (R136). -/
theorem TreeInv.holdsTree {s : State} (h : TreeInv s) (hp : s.phase ∈ [.tree, .coded, .pack, .done]) :
    ∃ t, HoldsForest s [t] ∧ s.root.toNat = t.idx := by
  by_cases htree : s.phase = .tree
  · obtain ⟨-, t, ht, hr⟩ := (treeInv_of_tree htree).1 h
    exact ⟨t, ht, hr⟩
  · have hcoded : s.phase = .coded ∨ s.phase = .pack ∨ s.phase = .done := by simpa [htree] using hp
    obtain ⟨-, t, ht, hr, -⟩ := (treeInv_of_coded hcoded).1 h
    exact ⟨t, ht, hr⟩

/-- W(ROOT) = TOTAL (R136). -/
theorem HoldsForest.root_weight {s : State} {t : Tree} (h : HoldsForest s [t]) (htot : TotalInv s) :
    t.entry.w = s.total := by
  have hw := h.weight
  rw [List.map_singleton, List.sum_singleton, ← htot] at hw
  exact BitVec.eq_of_toNat_eq hw

/-- Settles O48: each clause is a fact about the one tree that the arena holds. -/
theorem treeShape : Obligations.TreeShape := by
  intro s ⟨htot, _, htree⟩ hp
  obtain ⟨t, ht, hr⟩ := htree.holdsTree hp
  have hcover : t.indices.Perm (List.range s.nnodes.toNat) := by simpa using ht.cover
  have hmem : t ∈ [t] := List.mem_singleton_self t
  obtain ⟨hdepth, hle⟩ := ht.depth_lt hmem
  exact ⟨t, hr ▸ ht.read t hmem, hcover, hcover.nodup_iff.2 List.nodup_range, ht.below t hmem,
    fun i h511 _ => ht.kind_leaf_iff ⟨i, h511⟩, hdepth, hle, ht.sums t hmem, ht.root_weight htot⟩

end Sys2Proof.Machine
end

section
/-! PROOFS, family 43_codegen: the number of a path, the codes GENCODES fills, that no code begins another, and the length
bound (spec R160 to R164). -/

namespace Sys2Proof.Machine

/-! ## The number of a path and its bits (R160) -/

/-- A branch further down is a lower bit (R160). -/
theorem pathValue_concat (path : List Bool) (b : Bool) : pathValue (path ++ [b]) = 2 * pathValue path + b.toNat := by
  simp [pathValue]

/-- A path of d branches spells a number of d bits (R160). -/
theorem pathValue_lt (path : List Bool) : pathValue path < 2 ^ path.length := by
  induction path using List.reverseRecOn with
  | nil => decide
  | append_singleton path b ih =>
    have hb := b.toNat_lt
    rw [pathValue_concat, List.length_append, List.length_singleton, Nat.pow_succ]
    omega

/-- A path in a tree of depth at most 255 fits into CODE_W and LEN (R164). -/
theorem pathCode_toNat {path : List Bool} (h : path.length ≤ 255) :
    (BitVec.ofNat 256 (pathValue path)).toNat = pathValue path ∧ (BitVec.ofNat 9 path.length).toNat = path.length := by
  have hpow : 2 ^ path.length ≤ 2 ^ 256 := Nat.pow_le_pow_right (by decide) (by omega)
  rw [BitVec.toNat_ofNat, BitVec.toNat_ofNat]
  exact ⟨Nat.mod_eq_of_lt (lt_of_lt_of_le (pathValue_lt path) hpow), Nat.mod_eq_of_lt (by omega)⟩

/-- A bit shifted in from below is the last of the code's bit string (R160, R204). -/
theorem codeBits_shiftIn (n L : Nat) (b : Bool) (h : L < 256) :
    codeBits (BitVec.ofNat 256 (2 * n + b.toNat)) (L + 1) = codeBits (BitVec.ofNat 256 n) L ++ [b] := by
  have hlow : (2 * n + b.toNat).testBit 0 = b := by cases b <;> simp
  have hhigh (i : Nat) : (2 * n + b.toNat).testBit (i + 1) = n.testBit i := by
    have hhalf : (2 * n + b.toNat) / 2 = n := by have hb := b.toNat_lt; omega
    rw [Nat.testBit_succ, hhalf]
  rw [codeBits, codeBits, List.range_succ, List.map_append]
  congr 1
  · refine List.map_congr_left fun j hj => ?_
    have hj := List.mem_range.1 hj
    rw [show L + 1 - 1 - j = L - 1 - j + 1 by omega, BitVec.getLsbD_ofNat, BitVec.getLsbD_ofNat, hhigh,
      decide_eq_true (show L - 1 - j + 1 < 256 by omega), decide_eq_true (show L - 1 - j < 256 by omega)]
  · rw [List.map_singleton, Nat.add_sub_cancel, Nat.sub_self, BitVec.getLsbD_ofNat, hlow]
    rfl

/-- Read from the most significant used bit on, the code of a path is the path (R160, R163). -/
theorem codeBits_pathValue {path : List Bool} (h : path.length ≤ 256) :
    codeBits (BitVec.ofNat 256 (pathValue path)) path.length = path := by
  induction path using List.reverseRecOn with
  | nil => rfl
  | append_singleton path b ih =>
    rw [List.length_append, List.length_singleton] at h
    rw [pathValue_concat, List.length_append, List.length_singleton, codeBits_shiftIn _ _ _ h, ih (by omega)]

/-- No leaf lies on the way to another: a path that starts with a leaf's path is that leaf's (R163). -/
theorem Tree.eq_of_path_prefix {t : Tree} {p q : Sym × List Bool} (hp : p ∈ t.paths) (hq : q ∈ t.paths)
    (h : p.2 <+: q.2) : p = q := by
  induction t generalizing p q with
  | leaf i e =>
    rw [Tree.paths, List.mem_singleton] at hp hq
    rw [hp, hq]
  | node i e l r hl hr =>
    simp only [Tree.paths, List.mem_append, List.mem_map] at hp hq
    rcases hp with ⟨p, hp, rfl⟩ | ⟨p, hp, rfl⟩ <;> rcases hq with ⟨q, hq, rfl⟩ | ⟨q, hq, rfl⟩ <;>
      obtain ⟨hb, h⟩ := List.cons_prefix_cons.1 h
    · rw [hl hp hq h]
    · cases hb
    · cases hb
    · rw [hr hp hq h]

/-! ## GENCODES (R161, R162) -/

/-- In phase TREE, GENCODES stores the tables of the walk and enters CODED (R161). -/
theorem exec_gencodes {s : State} {tb : CodeTables} (hp : s.phase = .tree) (h : genTables s = some tb) :
    exec .gencodes s = .next { s with code := tb.code, len := tb.len, phase := .coded } := by
  have hbody : exec .gencodes s = gencodesBody s :=
    gated_of_accepts gencodesBody (by simp [hp]) (by simp [accepts, hp])
  rw [hbody, gencodesBody, h]

/-- The tables of the degenerate case (R162). -/
theorem genTables_degen {s : State} {e : NodeEntry} (hd : s.degen = true) (h : arenaGet s.node s.root = some e) :
    genTables s = some (CodeTables.cleared.assign e.sym 0#256 1) := by
  rw [genTables, if_pos hd, h, Option.map_some]

/-- In cleared tables each leaf gets the number of its path, and its depth as the length (R160, R161). -/
theorem cleared_assignPaths_of_mem {ps : List (Sym × List Bool)} {p : Sym × List Bool} (hp : p ∈ ps)
    (hnd : (ps.map Prod.fst).Nodup) (hlen : p.2.length ≤ 255) :
    (symGet (CodeTables.cleared.assignPaths 0#256 0 ps).code p.1).toNat = pathValue p.2 ∧
      (symGet (CodeTables.cleared.assignPaths 0#256 0 ps).len p.1).toNat = p.2.length := by
  obtain ⟨hcode, hlength⟩ := assignPaths_of_mem (tb := .cleared) (c := 0#256) (d := 0) hp hnd
  rw [hcode, hlength, pathWord_zero, Nat.zero_add]
  exact pathCode_toNat hlen

/-- In cleared tables a symbol outside the tree has no code (R161). -/
theorem cleared_assignPaths_of_not_mem {ps : List (Sym × List Bool)} {x : Sym} (hx : x ∉ ps.map Prod.fst) :
    symGet (CodeTables.cleared.assignPaths 0#256 0 ps).code x = 0#256 ∧
      symGet (CodeTables.cleared.assignPaths 0#256 0 ps).len x = 0#9 := by
  obtain ⟨hcode, hlength⟩ := assignPaths_of_not_mem (tb := .cleared) (c := 0#256) (d := 0) hx
  rw [hcode, hlength]
  exact ⟨symGet_replicate _ x, symGet_replicate _ x⟩

/-- Settles O30: the tables of the walk over the tree by `genTables_eq`, those of the sole leaf by `genTables_degen`. -/
theorem gencodesGivesEachLeafItsPath : Obligations.GencodesGivesEachLeafItsPath := by
  intro s
  refine ⟨rfl, fun tr hp hd hread hdepth hsize hnd => ?_, fun hp hd hroot => ?_,
    fun hp hne => exec_sequence hne (beq_false_of_ne hp),
    fun v hop hset hne => onCmdWrite_of_operand_set hop (by decide) hset hne⟩
  · rw [← Tree.paths_map_fst] at hnd ⊢
    exact ⟨_, exec_gencodes hp (genTables_eq hd hread (Nat.lt_succ_of_le hdepth) hsize),
      fun p hmem => cleared_assignPaths_of_mem hmem hnd ((Tree.path_length_le hmem).trans hdepth),
      fun x hx => cleared_assignPaths_of_not_mem hx, rfl⟩
  · have hget : arenaGet s.node s.root = some s.node[s.root.toNat] := Vector.getElem?_eq_getElem hroot
    exact ⟨_, exec_gencodes hp (genTables_degen hd hget), cleared_assign_sole _, rfl⟩

/-! ## Prefix-freedom (R163) -/

/-- In the degenerate case the sole symbol is the only one with a code (R162). -/
theorem HoldsCodes.eq_sole {s : State} {t : Tree} (h : HoldsCodes s t) (hd : s.degen = true) {x : Sym}
    (hx : symGet s.len x ≠ 0#9) : x = t.entry.sym := by
  obtain ⟨hsole, -⟩ := h
  obtain ⟨-, hlength⟩ := hsole hd x
  by_contra hne
  exact hx (hlength.trans (if_neg hne))

/-- Outside the degenerate case a symbol with a code is a leaf of the tree (R161). -/
theorem HoldsCodes.exists_path {s : State} {t : Tree} (h : HoldsCodes s t) (hd : s.degen = false) {x : Sym}
    (hx : symGet s.len x ≠ 0#9) : ∃ path, (x, path) ∈ t.paths := by
  obtain ⟨-, hpaths⟩ := h
  obtain ⟨-, hout⟩ := hpaths hd
  have hmem : x ∈ t.paths.map Prod.fst := by
    by_contra hnot
    exact hx (hout x hnot).2
  obtain ⟨p, hp, rfl⟩ := List.mem_map.1 hmem
  exact ⟨p.2, hp⟩

/-- Outside the degenerate case the bit string of a leaf's symbol is the leaf's path (R160). -/
theorem HoldsCodes.codeOf_eq_path {s : State} {t : Tree} (h : HoldsCodes s t) (hd : s.degen = false)
    (hdepth : t.depth ≤ 255) {x : Sym} {path : List Bool} (hx : (x, path) ∈ t.paths) : s.codeOf x = path := by
  obtain ⟨-, hpaths⟩ := h
  obtain ⟨hin, -⟩ := hpaths hd
  obtain ⟨hcode, hlength⟩ := hin _ hx
  have hle : path.length ≤ 255 := (Tree.path_length_le hx).trans hdepth
  rw [State.codeOf, hcode, hlength, (pathCode_toNat hle).2, codeBits_pathValue (hle.trans (by decide))]

/-- Settles O31: the codes are paths to distinct leaves; the degenerate case has one code only. -/
theorem codesArePrefixFree : Obligations.CodesArePrefixFree := by
  intro s ⟨_, _, htree⟩ hp x y hxy hx hy hprefix
  obtain ⟨-, t, hf, hr, hcodes⟩ := (treeInv_of_coded hp).1 htree
  cases hd : s.degen with
  | true => exact hxy ((hcodes.eq_sole hd hx).trans (hcodes.eq_sole hd hy).symm)
  | false =>
    obtain ⟨-, -, hdepth, -⟩ := hf.tree_facts hr
    obtain ⟨px, hpx⟩ := hcodes.exists_path hd hx
    obtain ⟨py, hpy⟩ := hcodes.exists_path hd hy
    rw [hcodes.codeOf_eq_path hd hdepth hpx, hcodes.codeOf_eq_path hd hdepth hpy] at hprefix
    exact hxy (congrArg Prod.fst (Tree.eq_of_path_prefix hpx hpy hprefix))

/-! ## The length bound (R164) -/

/-- Codes of a tree of depth at most 255 are at most 255 bits long, and have no bit at a position ≥ LEN (R33, R164). -/
theorem HoldsCodes.bounds {s : State} {t : Tree} (h : HoldsCodes s t) (hdepth : t.depth ≤ 255) (x : Sym) :
    (symGet s.len x).toNat ≤ 255 ∧ (symGet s.code x).toNat < 2 ^ (symGet s.len x).toNat := by
  obtain ⟨hsole, hpaths⟩ := h
  cases hd : s.degen with
  | true =>
    obtain ⟨hcode, hlength⟩ := hsole hd x
    rw [hcode, hlength]
    exact ⟨by split <;> decide, Nat.two_pow_pos _⟩
  | false =>
    obtain ⟨hin, hout⟩ := hpaths hd
    by_cases hx : x ∈ t.paths.map Prod.fst
    · obtain ⟨p, hp, rfl⟩ := List.mem_map.1 hx
      obtain ⟨hcode, hlength⟩ := hin p hp
      have hle : p.2.length ≤ 255 := (Tree.path_length_le hp).trans hdepth
      rw [hcode, hlength, (pathCode_toNat hle).1, (pathCode_toNat hle).2]
      exact ⟨hle, pathValue_lt p.2⟩
    · obtain ⟨hcode, hlength⟩ := hout x hx
      rw [hcode, hlength]
      decide

/-- GENCODES's walk ends in the tree that the merge engine left under ROOT (R164). -/
theorem HoldsForest.exists_genTables {s : State} {t : Tree} (h : HoldsForest s [t]) (hr : s.root.toNat = t.idx) :
    ∃ tb, genTables s = some tb := by
  cases hd : s.degen with
  | true => exact ⟨_, genTables_degen hd (h.arenaGet_root hr)⟩
  | false =>
    obtain ⟨hread, -, hdepth, hsize⟩ := h.tree_facts hr
    exact ⟨_, genTables_eq hd hread (Nat.lt_succ_of_le hdepth) hsize⟩

/-- Settles O32: the tree within the invariants has depth at most 255, so `HoldsCodes.bounds` applies and the walk ends. -/
theorem codeLengthsAreBounded : Obligations.CodeLengthsAreBounded := by
  intro s ⟨_, _, htree⟩
  refine ⟨fun hp x => ?_, fun hp => ?_⟩
  · have hcoded := (treeInv_of_coded hp).1 htree
    obtain ⟨-, t, hf, hr, hcodes⟩ := id hcoded
    obtain ⟨-, -, hdepth, -⟩ := hf.tree_facts hr
    obtain ⟨hlen, hcode⟩ := hcodes.bounds hdepth x
    exact ⟨hlen, hcoded.len_ne_zero_iff x, hcode⟩
  · obtain ⟨-, t, ht, hr⟩ := (treeInv_of_tree hp).1 htree
    obtain ⟨tb, htb⟩ := ht.exists_genTables hr
    exact ⟨_, exec_gencodes hp htb⟩

end Sys2Proof.Machine
end

section
/-! PROOFS, family 44_serializer: the fields of a node record and the reader that rebuilds the tree from its records
(spec R180, R181, R184, R185). -/

namespace Sys2Proof.Machine

/-! ## The fields of a record (R180) -/

/-- Bit 0 of a record is the leaf flag. -/
theorem leafFlag_nodeRecord (e : NodeEntry) : (nodeRecord e).getLsbD 0 = decide (e.kind = .leaf) := by
  rw [getLsbD_nodeRecord]
  simp

/-- The weight field keeps the low 55 bits of the weight. -/
theorem recordWeight_nodeRecord (e : NodeEntry) : recordWeight (nodeRecord e) = e.w.toNat % 2 ^ 55 := by
  have hfield : (nodeRecord e).extractLsb' 1 55 = e.w.setWidth 55 := extractLsb'_eq_of_getLsbD fun j hj => by
    have hlow : 1 + j < 56 := by omega
    rw [getLsbD_nodeRecord]
    simp [hj, hlow]
  rw [recordWeight, hfield, BitVec.toNat_setWidth]

/-- The top byte of a record is a leaf's symbol. -/
theorem recordSym_nodeRecord (e : NodeEntry) :
    (nodeRecord e).extractLsb' 56 8 = if e.kind = .leaf then e.sym else 0#8 := extractLsb'_eq_of_getLsbD fun j hj => by
  have hhigh : 56 + j < 64 := by omega
  rw [getLsbD_nodeRecord]
  simp [hhigh]

/-- A record has no bits outside its three fields. -/
theorem record_eq_of_fields {r q : NodeRecord} (hflag : r.getLsbD 0 = q.getLsbD 0)
    (hweight : recordWeight r = recordWeight q) (hsym : r.extractLsb' 56 8 = q.extractLsb' 56 8) : r = q := by
  have hweight : r.extractLsb' 1 55 = q.extractLsb' 1 55 := BitVec.eq_of_toNat_eq hweight
  refine BitVec.eq_of_getLsbD_eq fun j hj => ?_
  obtain rfl | ⟨k, rfl, hk⟩ | ⟨k, rfl, hk⟩ : j = 0 ∨ (∃ k, j = 1 + k ∧ k < 55) ∨ ∃ k, j = 56 + k ∧ k < 8 := by
    by_cases h0 : j = 0
    · exact .inl h0
    · by_cases h56 : j < 56
      · exact .inr (.inl ⟨j - 1, by omega, by omega⟩)
      · exact .inr (.inr ⟨j - 56, by omega, by omega⟩)
  · exact hflag
  · simpa [hk] using congrArg (·.getLsbD k) hweight
  · simpa [hk] using congrArg (·.getLsbD k) hsym

/-- Settles O33: the fields one by one. -/
theorem nodeRecordFields : Obligations.NodeRecordFields := fun e =>
  ⟨leafFlag_nodeRecord e, recordWeight_nodeRecord e, recordSym_nodeRecord e⟩

/-- Only an internal entry whose weight is a multiple of 2^55 has the sentinel as its record (R184). -/
theorem nodeRecord_eq_zero_iff (e : NodeEntry) :
    nodeRecord e = 0#64 ↔ e.kind = .internal ∧ e.w.toNat % 2 ^ 55 = 0 := by
  constructor
  · intro h
    have hflag := leafFlag_nodeRecord e
    have hweight := recordWeight_nodeRecord e
    rw [h] at hflag hweight
    refine ⟨?_, hweight.symm⟩
    cases hk : e.kind with
    | internal => rfl
    | leaf => simp [hk] at hflag
  · rintro ⟨hk, hw⟩
    refine record_eq_of_fields ?_ ?_ ?_
    · rw [leafFlag_nodeRecord, hk]; rfl
    · rw [recordWeight_nodeRecord, hw]; rfl
    · simp [recordSym_nodeRecord, hk]

/-- Settles O37: a nonzero multiple of 2^55 is at least 2^55. -/
theorem onlyTruncatedInternalRecordsAliasTheSentinel : Obligations.OnlyTruncatedInternalRecordsAliasTheSentinel := by
  intro e
  refine ⟨nodeRecord_eq_zero_iff e, fun hzero hne => (truncFlag_iff _).2 ⟨e, List.mem_singleton_self e, ?_⟩⟩
  obtain ⟨-, hmod⟩ := (nodeRecord_eq_zero_iff e).1 hzero
  have hpos : e.w.toNat ≠ 0 := fun h => hne (BitVec.eq_of_toNat_eq h)
  omega

/-! ## The reader (R185) -/

/-- The record of a leaf ends a branch. -/
theorem rebuild_leaf {e : NodeEntry} (hk : e.kind = .leaf) (hw : e.w.toNat < 2 ^ 55) (fuel : Nat) (rs : List NodeRecord) :
    rebuild (fuel + 1) (nodeRecord e :: rs) = some (.leaf e.sym e.w.toNat, rs) := by
  rw [rebuild, leafFlag_nodeRecord, recordSym_nodeRecord, recordWeight_nodeRecord, Nat.mod_eq_of_lt hw]
  simp only [hk, decide_true, if_true]

/-- The record of an internal node is followed by its left and then by its right subtree. -/
theorem rebuild_internal {e : NodeEntry} (hk : e.kind = .internal) (hw : e.w.toNat < 2 ^ 55) {fuel : Nat}
    {rs rs' rs'' : List NodeRecord} {l r : Shape} (hl : rebuild fuel rs = some (l, rs'))
    (hr : rebuild fuel rs' = some (r, rs'')) :
    rebuild (fuel + 1) (nodeRecord e :: rs) = some (.node e.w.toNat l r, rs'') := by
  rw [rebuild, leafFlag_nodeRecord, recordWeight_nodeRecord, Nat.mod_eq_of_lt hw]
  simp [hk, hl, hr]

/-- The records of a tree come first: rebuilding gives its shape, and what stands after them is left over. -/
theorem rebuild_preorder {node : Vector NodeEntry 511} {g i : Nat} {t : Tree} (h : readTree node g i = some t)
    (hw : ∀ e ∈ t.preorder, e.w.toNat < 2 ^ 55) {fuel : Nat} (hfuel : t.size ≤ fuel) (rs : List NodeRecord) :
    rebuild fuel (t.preorder.map nodeRecord ++ rs) = some (t.shape, rs) := by
  induction g generalizing i t fuel rs with
  | zero => cases h
  | succ g ih =>
    obtain ⟨hi, ⟨hk, rfl⟩ | ⟨hk, l, r, hl, hr, rfl⟩⟩ := readTree_succ h
    all_goals
      simp only [Tree.size] at hfuel
      obtain ⟨fuel, rfl⟩ : ∃ f, fuel = f + 1 := ⟨fuel - 1, by omega⟩
      simp only [Tree.preorder, List.forall_mem_cons] at hw
    · exact rebuild_leaf hk hw.1 fuel rs
    · rw [List.forall_mem_append] at hw
      obtain ⟨hroot, hleft, hright⟩ := hw
      simp only [Tree.preorder, List.map_cons, List.map_append, List.cons_append, List.append_assoc]
      exact rebuild_internal hk hroot (ih hl hleft (by omega) _) (ih hr hright (by omega) rs)

/-- The reader stops at the sentinel: it takes the records before it, when none of them is 0. -/
theorem takeWhile_records {rs : List NodeRecord} (h : ∀ r ∈ rs, r ≠ 0#64) (rest : List NodeRecord) :
    (rs ++ 0#64 :: rest).takeWhile (· != 0#64) = rs := by
  rw [List.takeWhile_append_of_pos (by simpa using h)]
  simp

/-- Settles O38: the records before the sentinel are those of the tree, and `rebuild_preorder` uses them all. -/
theorem readerRebuildsTheTree : Obligations.ReaderRebuildsTheTree := by
  intro node i tr hread hrec rest
  have hne : ∀ r ∈ tr.preorder.map nodeRecord, r ≠ 0#64 := List.forall_mem_map.2 fun e he => (hrec e he).2
  have hrebuild := rebuild_preorder hread (fun e he => (hrec e he).1) le_rfl []
  rw [List.append_nil] at hrebuild
  simp only [readTreeSection, takeWhile_records hne, List.length_map, Tree.preorder_length, hrebuild]

end Sys2Proof.Machine
end

section
/-! PROOFS, family 44_serializer: what SERIALIZE emits, its errors, and TRUNC (spec R182, R183). -/

namespace Sys2Proof.Machine

/-! ## The bytes and the errors (R182, R256) -/

/-- The bytes of SERIALIZE: MAGIC, the records, the zero sentinel (R182). -/
theorem serialBytes_eq (es : List NodeEntry) : serialBytes es =
    (List.finRange 8).map Config.magic ++ recordsBytes (es.map nodeRecord) ++ List.replicate 8 0#8 := by
  have hsentinel : bytesLE 0#64 = List.replicate 8 0#8 := by decide
  rw [serialBytes, hsentinel, recordsBytes, List.flatMap_map]
  rfl

/-- What a command stopped at byte n leaves (R256). -/
theorem abortedAfter_stoppedAt {s : State} (hp : s.phase ≠ .fault) {bs : List Byte} {n : Nat} (hn : n ≤ bs.length) :
    AbortedAfter n s (sinkIoFault (s.stoppedAt bs n)) := by
  have hraise : raiseFault .sinkIo (s.stoppedAt bs n) = (s.stoppedAt bs n).faultedWith .sinkIo :=
    raiseFault_eq (s := s.stoppedAt bs n) hp .sinkIo
  rw [AbortedAfter, sinkIoFault, hraise]
  simp [State.faultedWith, State.stoppedAt, State.delivered, hn]

/-- SERIALIZE of a tree within the bounds of R164 emits the bytes of its entries in pre-order (R181, R182). -/
theorem exec_serialize {s : State} {tr : Tree} (hp : s.phase = .coded) (hread : treeAt s.node s.root.toNat = some tr)
    (hdepth : tr.depth ≤ 255) (hsize : tr.size ≤ 511) : exec .serialize s =
      emitThen (serialBytes tr.preorder) (fun t => { t with trunc := truncFlag tr.preorder, phase := .pack }) s := by
  have hbody : exec .serialize s = serializeBody s := gated_of_accepts _ (by simp [hp]) (by simp [accepts, hp])
  rw [hbody, serializeBody, treeEntries_eq hread (Nat.lt_succ_of_le hdepth) hsize]

theorem serialBytes_preorder_length (tr : Tree) : (serialBytes tr.preorder).length = 16 + 8 * tr.size := by
  rw [serialBytes_length, Tree.preorder_length]

/-- The tree that SERIALIZE finds within the invariants, with its size by NSYM (R136, R182). -/
theorem HoldsForest.serial_tree {s : State} {t : Tree} (h : HoldsForest s [t]) (hr : s.root.toNat = t.idx) :
    treeAt s.node s.root.toNat = some t ∧ t.depth ≤ 255 ∧ t.size + 1 = 2 * s.nsym ∧ t.size ≤ 511 := by
  obtain ⟨hread, -, hdepth, hsize⟩ := h.tree_facts hr
  exact ⟨hread, hdepth, h.leaves_length ▸ t.size_eq, hsize⟩

/-- Settles O34: the emission by `exec_serialize`, and the rest by what holds of every command. -/
theorem serializeEmitsThePreorderRecords : Obligations.SerializeEmitsThePreorderRecords := by
  intro s
  refine ⟨rfl, fun tr hp hread hdepth hsize htakes => ?_, fun tr n hp hread hdepth hsize hn htakes hio => ?_,
    fun ⟨_, _, htree⟩ hp => ?_, fun hne hp => exec_sequence hp (beq_false_of_ne hne),
    fun v hop hset hp => onCmdWrite_of_operand_set hop (by decide) hset hp⟩
  · rw [← serialBytes_preorder_length] at htakes ⊢
    rw [exec_serialize hp hread hdepth hsize, emitThen_took _ _ s htakes]
    refine ⟨_, rfl, ?_, rfl, truncFlag_iff _, rfl⟩
    simp only [List.append_assoc, State.delivered, serialBytes_eq]
  · rw [← serialBytes_preorder_length] at hn
    rw [exec_serialize hp hread hdepth hsize, emitThen_ioError _ _ hn htakes hio]
    exact ⟨_, rfl, abortedAfter_stoppedAt (by simp [hp]) hn.le⟩
  · obtain ⟨t, ht, hr⟩ := htree.holdsTree (by simp [hp])
    exact ⟨t, ht.serial_tree hr⟩

/-! ## TRUNC (R183) -/

theorem Tree.entry_mem_preorder (t : Tree) : t.entry ∈ t.preorder := by cases t <;> simp [Tree.preorder, Tree.entry]

/-- The root is a heaviest node of its tree (R136). -/
theorem Tree.weight_le_root {t : Tree} (h : t.sumsOk = true) {e : NodeEntry} (he : e ∈ t.preorder) :
    e.w.toNat ≤ t.entry.w.toNat := by
  induction t with
  | leaf i e' => rw [List.mem_singleton.1 he]; exact le_rfl
  | node i e' l r hl hr =>
    simp only [Tree.sumsOk, Bool.and_eq_true, beq_iff_eq] at h
    obtain ⟨⟨hsum, hsl⟩, hsr⟩ := h
    simp only [Tree.preorder, List.mem_cons, List.mem_append] at he
    change e.w.toNat ≤ e'.w.toNat
    rcases he with rfl | he | he
    · exact le_rfl
    · have := hl hsl he; omega
    · have := hr hsr he; omega

/-- TRUNC of a whole tree looks at its root only. -/
theorem Tree.truncFlag_preorder {t : Tree} (h : t.sumsOk = true) :
    truncFlag t.preorder = true ↔ 2 ^ 55 ≤ t.entry.w.toNat := by
  rw [truncFlag_iff]
  exact ⟨fun ⟨_, he, hw⟩ => hw.trans (Tree.weight_le_root h he), fun hw => ⟨_, t.entry_mem_preorder, hw⟩⟩

/-- A SERIALIZE that reaches PACK wrote TRUNC from the entries it walked. -/
theorem exec_serialize_trunc {s t : State} (hp : s.phase = .coded) (h : exec .serialize s = .next t)
    (ht : t.phase = .pack) : ∃ es, treeEntries s = some es ∧ t.trunc = truncFlag es := by
  cases exec_next (by simp [hp]) h with
  | fault | sinkError => simp [State.faultedWith] at ht
  | serialize es _ hes => exact ⟨es, hes, rfl⟩

/-- Settles O36: the root weighs TOTAL and no node weighs more. -/
theorem truncReportsATotalOf55Bits : Obligations.TruncReportsATotalOf55Bits := by
  intro s t ⟨htot, _, htree⟩ hexec hp hpack
  obtain ⟨tr, hforest, hr⟩ := htree.holdsTree (by simp [hp])
  obtain ⟨hread, -, hdepth, hsize⟩ := hforest.tree_facts hr
  obtain ⟨es, hes, htrunc⟩ := exec_serialize_trunc hp hexec hpack
  obtain rfl : tr.preorder = es :=
    Option.some.inj ((treeEntries_eq hread (Nat.lt_succ_of_le hdepth) hsize).symm.trans hes)
  rw [htrunc, Tree.truncFlag_preorder (hforest.sums tr (List.mem_singleton_self tr)), hforest.root_weight htot]

end Sys2Proof.Machine
end

section
/-! PROOFS, family 45_bitpacker: the reversed code, what PACK and FLUSH emit and leave, and a second pass (spec R72, R200 to
R205). -/

namespace Sys2Proof.Machine

/-- Settles O39, by the sum that defines the reversed code. -/
theorem reversedCodeBits : Obligations.ReversedCodeBits := fun c L =>
  ⟨fun i hi => by simp [testBit_revCode, hi], fun i hi => by simp [testBit_revCode, Nat.not_lt.2 hi]⟩

/-! ## The sink over two emissions (R39, R76) -/

theorem delivered_append (s : State) (as bs : List Byte) : s.delivered (as ++ bs) = (s.delivered as).delivered bs := by
  have hcount : BitVec.ofNat 64 (as.length + bs.length) = BitVec.ofNat 64 as.length + BitVec.ofNat 64 bs.length :=
    BitVec.ofNat_add _ _
  simp [State.delivered, hcount, BitVec.add_assoc]

/-- The sink takes m + n bytes when it takes m and then n more. -/
theorem sinkTakes_add {s t : State} {m n : Nat} (h : t.sinkScript = s.sinkScript.drop m) :
    s.sinkTakes (m + n) = true ↔ s.sinkTakes m = true ∧ t.sinkTakes n = true := by
  rw [State.sinkTakes, State.sinkTakes, State.sinkTakes, h, List.take_add, List.all_append, Bool.and_eq_true]

theorem sinkTakes_of_le {s : State} {m n : Nat} (hmn : m ≤ n) (h : s.sinkTakes n = true) : s.sinkTakes m = true :=
  List.all_eq_true.2 fun a ha => List.all_eq_true.1 h a ((List.take_sublist_take_left hmn).subset ha)

/-! ## What packing leaves (R201, R204) -/

/-- t is s after packing `bits`, with `bs` the bytes that went to the sink on the way: nothing changes but the sink, ACC and
OFF, and the bytes and then the bits waiting in t are the bits waiting in s and then `bits`. -/
structure Packed (s t : State) (bs : List Byte) (bits : List Bool) : Prop where
  frame : t = { s.delivered bs with acc := t.acc, off := t.off }
  inv : PackerInv t
  bits_eq : bytesBits bs ++ t.waitingBits = s.waitingBits ++ bits

@[simp] theorem waitingBits_length (s : State) : s.waitingBits.length = s.off.toNat := by simp [State.waitingBits]

section
variable {s t : State} {bs : List Byte} {bits : List Bool}

theorem Packed.phase (h : Packed s t bs bits) : t.phase = s.phase := by rw [h.frame]; rfl
theorem Packed.len (h : Packed s t bs bits) : t.len = s.len := by rw [h.frame]; rfl
theorem Packed.code (h : Packed s t bs bits) : t.code = s.code := by rw [h.frame]; rfl
theorem Packed.out (h : Packed s t bs bits) : t.out = s.out ++ bs := by rw [h.frame]; rfl
theorem Packed.outcnt (h : Packed s t bs bits) : t.outcnt = s.outcnt + BitVec.ofNat 64 bs.length := by rw [h.frame]; rfl
theorem Packed.sinkScript (h : Packed s t bs bits) : t.sinkScript = s.sinkScript.drop bs.length := by rw [h.frame]; rfl

theorem Packed.codeOf_eq (h : Packed s t bs bits) : t.codeOf = s.codeOf := by
  funext x; rw [State.codeOf, State.codeOf, h.len, h.code]

theorem Packed.delivered_eq (h : Packed s t bs bits) (cs : List Byte) :
    t.delivered cs = { s.delivered (bs ++ cs) with acc := t.acc, off := t.off } := by
  rw [delivered_append]; exact congrArg (·.delivered cs) h.frame

theorem Packed.packedBits (h : Packed s t bs bits) : t.packedBits = s.packedBits ++ bits := by
  rw [State.packedBits, State.packedBits, h.out, bytesBits_append, List.append_assoc, h.bits_eq, List.append_assoc]

/-- Every bit is in a byte or waits, and fewer than eight wait: floor((OFF + L) / 8) bytes (R201). -/
theorem Packed.count (h : Packed s t bs bits) :
    bs.length = (s.off.toNat + bits.length) / 8 ∧ t.off.toNat = (s.off.toNat + bits.length) % 8 := by
  obtain ⟨hoff, -⟩ := h.inv
  have hlen := congrArg List.length h.bits_eq
  rw [List.length_append, List.length_append, bytesBits_length, waitingBits_length, waitingBits_length] at hlen
  omega

end

theorem Packed.refl {s : State} (hs : PackerInv s) : Packed s s [] [] :=
  ⟨by rw [delivered_nil], hs, (List.append_nil _).symm⟩

/-- Packing goes on where it stopped. -/
theorem Packed.trans {s t u : State} {as bs : List Byte} {xs ys : List Bool} (h : Packed s t as xs)
    (k : Packed t u bs ys) : Packed s u (as ++ bs) (xs ++ ys) where
  frame := by rw [k.frame, h.delivered_eq]
  inv := k.inv
  bits_eq := by rw [bytesBits_append, List.append_assoc, k.bits_eq, ← List.append_assoc, h.bits_eq, List.append_assoc]

/-! ## PACK (R201) -/

theorem exec_pack_eq_body {s : State} (hp : s.phase = .pack) (x : Sym) : exec (.pack x) s = packBody x s :=
  gated_of_accepts _ (by simp [hp]) (by simp [accepts, hp])

/-- PACK of a symbol without a code (R201). -/
theorem exec_pack_missing {s : State} (hp : s.phase = .pack) {x : Sym} (hx : symGet s.len x = 0#9) :
    exec (.pack x) s = .next (s.faultedWith .missingSymbol) := by
  rw [exec_pack_eq_body hp, packBody, if_pos hx, raiseFault_eq (by simp [hp])]

/-- PACK of a symbol with a code emits what the loop of R201 drains. -/
theorem exec_pack_eq_emitThen {s : State} (hp : s.phase = .pack) {x : Sym} (hx : symGet s.len x ≠ 0#9) :
    exec (.pack x) s = emitThen (packDrain x s).bytes
      (fun t => { t with acc := (packDrain x s).acc, off := BitVec.ofNat 9 (packDrain x s).off }) s := by
  rw [exec_pack_eq_body hp, packBody, if_neg hx]

/-- The symbol has a code, of a length that LEN can hold (R34). -/
def State.HasCode (s : State) (x : Sym) : Prop := symGet s.len x ≠ 0#9 ∧ (symGet s.len x).toNat ≤ 255

@[simp] theorem codeOf_length (s : State) (x : Sym) : (s.codeOf x).length = (symGet s.len x).toNat := codeBits_length _ _

/-- A PACK whose bytes the sink takes packs the bits of the code (R201, R204). -/
theorem exec_pack {s : State} (hp : s.phase = .pack) (hs : PackerInv s) {x : Sym} (hx : s.HasCode x)
    (ht : s.sinkTakes ((s.off.toNat + (symGet s.len x).toNat) / 8) = true) :
    ∃ t bs, exec (.pack x) s = .next t ∧ Packed s t bs (s.codeOf x) := by
  obtain ⟨hne, hL⟩ := hx
  have ⟨hoff, hacc, _⟩ := hs
  rw [← packDrain_bytes_length] at ht
  have hdrain : (BitVec.ofNat 9 (packDrain x s).off).toNat = (packDrain x s).off := by
    rw [packDrain_off, BitVec.toNat_ofNat]; omega
  refine ⟨_, _, (exec_pack_eq_emitThen hp hne).trans (emitThen_took _ _ s ht), rfl, hs.pack x hp rfl rfl, ?_⟩
  rw [← packDrain_bits x s hacc (by omega), State.waitingBits, hdrain]

/-- Settles O40: PACK packs the code's bits, which fixes the number of bytes and the bits that wait. -/
theorem packAppendsTheCodeBits : Obligations.PackAppendsTheCodeBits := by
  intro sym s L n
  have hcode (h : L ≠ 0) : symGet s.len sym ≠ 0#9 := fun e => h (congrArg BitVec.toNat e)
  refine ⟨cmdWord_toNat _ _, fun hp hs h0 hL ht => ?_, fun k hp h0 hk ht hio => ?_,
    fun hp h0 => exec_pack_missing hp (BitVec.eq_of_toNat_eq h0), fun hne hp => exec_sequence hp (beq_false_of_ne hne),
    fun v _ hrsv hp => onCmdWrite_of_fieldRsv_ne hrsv hp⟩
  · obtain ⟨t, bs, hexec, h⟩ := exec_pack hp hs ⟨hcode h0, hL⟩ ht
    have ⟨hbytes, hoff⟩ : bs.length = n ∧ t.off.toNat = (s.off.toNat + L) % 8 := by
      simpa only [codeOf_length] using h.count
    obtain ⟨-, hacc, -⟩ := h.inv
    obtain ⟨hoff7, -⟩ := hs
    refine ⟨t, bs, hexec, h.out, hbytes, by omega, hbytes ▸ h.outcnt, h.packedBits, hoff, hacc, ?_⟩
    rw [h.out, h.outcnt, ← hbytes]
    exact h.frame
  · rw [exec_pack_eq_emitThen hp (hcode h0), emitThen_ioError _ _ (by rwa [packDrain_bytes_length]) ht hio]
    exact ⟨_, rfl, abortedAfter_stoppedAt (by simp [hp]) (by rw [packDrain_bytes_length]; exact hk.le)⟩

/-! ## FLUSH (R202, R203) -/

/-- What FLUSH leaves. -/
def State.flushed (s : State) : State := { s.delivered (flushBytes s) with acc := 0#264, off := 0#9, phase := .done }

theorem exec_flush_eq_emitThen {s : State} (hp : s.phase = .pack) : exec .flush s =
    emitThen (flushBytes s) (fun t => { t with acc := 0#264, off := 0#9, phase := .done }) s :=
  gated_of_accepts flushBody (by simp [hp]) (by simp [accepts, hp])

theorem exec_flush {s : State} (hp : s.phase = .pack) (ht : s.sinkTakes (flushBytes s).length = true) :
    exec .flush s = .next s.flushed := (exec_flush_eq_emitThen hp).trans (emitThen_took _ _ s ht)

theorem flushBytes_of_off_eq_zero {s : State} (h : s.off = 0#9) : flushBytes s = [] := by simp [flushBytes, h]

theorem flushBytes_of_off_pos {s : State} (h : 0 < s.off.toNat) : flushBytes s = [s.acc.extractLsb' 0 8] := if_pos h

/-- The lowest byte of ACC is the waiting bits and 0 above them (R203). -/
theorem PackerInv.byteBits_acc {s : State} (hs : PackerInv s) :
    byteBits (s.acc.extractLsb' 0 8) = s.waitingBits ++ List.replicate (8 - s.off.toNat) false := by
  have ⟨hoff, _⟩ := hs
  have hpad : (List.range (8 - s.off.toNat)).map (fun j => s.acc.getLsbD (s.off.toNat + j)) =
      List.replicate (8 - s.off.toNat) false :=
    List.eq_replicate_iff.2 ⟨by simp, by simp [hs.getLsbD_acc]⟩
  have hrange : List.range 8 = List.range s.off.toNat ++ (List.range (8 - s.off.toNat)).map (s.off.toNat + ·) := by
    rw [← List.range_add]; congr 1; omega
  rw [byteBits_extract s.acc 0, State.waitingBits, ← hpad, hrange]
  simp [Function.comp_def]

/-- Only CLEAR leaves DONE, but into FAULT (R202). -/
theorem ExecNext.eq_clear_of_done {i : Instr} {s t : State} (h : ExecNext s i t) (hp : s.phase = .done)
    (hdone : t.phase ≠ .done) (hfault : t.phase ≠ .fault) : i = .clear := by
  cases h with
  | clear => rfl
  | fault => exact absurd rfl hfault
  | sinkError => exact absurd (sinkIoFault_phase _) hfault
  | flush => exact absurd rfl hdone
  | count | setfreq | finit | merge | build | buildTree | gencodes | serialize | pack => simp_all

/-- Settles O41: FLUSH emits `flushBytes`, and DONE accepts no command but CLEAR. -/
theorem flushEmitsTheLastByte : Obligations.FlushEmitsTheLastByte := by
  intro s
  refine ⟨rfl, fun hp h0 => ?_, fun hp hpos ht => ?_, fun hp hpos hio => ?_, fun hp => ⟨?_, fun sym => ?_, fun i t h => ?_⟩,
    PackerInv.byteBits_acc, fun hne hp => exec_sequence hp (beq_false_of_ne hne),
    fun v hop hset hp => onCmdWrite_of_operand_set hop (by decide) hset hp⟩
  · rw [exec_flush hp (by simp [flushBytes_of_off_eq_zero h0, State.sinkTakes]), State.flushed,
      flushBytes_of_off_eq_zero h0, delivered_nil]
  · rw [exec_flush hp (by rwa [flushBytes_of_off_pos hpos]), State.flushed, flushBytes_of_off_pos hpos]
    rfl
  · rw [exec_flush_eq_emitThen hp, emitThen_ioError (n := 0) _ _ (by simp [flushBytes_of_off_pos hpos])
      (by simp [State.sinkTakes]) (by rwa [← List.head?_eq_getElem?])]
    exact ⟨_, rfl, abortedAfter_stoppedAt (by simp [hp]) (Nat.zero_le _)⟩
  · exact exec_sequence (by simp [hp]) (by simp [accepts, hp])
  · exact exec_sequence (by simp [hp]) (by simp [accepts, hp])
  · exact (exec_next (by simp [hp]) h).eq_clear_of_done hp

/-- FLUSH fills up the last byte, if any bits wait (R202, R203). -/
theorem PackerInv.flushBytes_length {s : State} (hs : PackerInv s) : (flushBytes s).length = (s.off.toNat + 7) / 8 := by
  obtain ⟨hoff, -⟩ := hs
  by_cases hpos : 0 < s.off.toNat
  · rw [flushBytes_of_off_pos hpos, List.length_singleton]; omega
  · rw [flushBytes, if_neg hpos, List.length_nil]; omega

theorem PackerInv.bytesBits_flushBytes {s : State} (hs : PackerInv s) : bytesBits (flushBytes s) =
    s.waitingBits ++ List.replicate (8 * (flushBytes s).length - s.off.toNat) false := by
  by_cases hpos : 0 < s.off.toNat
  · rw [flushBytes_of_off_pos hpos, bytesBits, List.flatMap_singleton, hs.byteBits_acc, List.length_singleton]
  · simp [flushBytes, bytesBits, State.waitingBits, Nat.eq_zero_of_not_pos hpos]

/-! ## The second pass (R204, R205) -/

/-- PACKs whose bytes the sink takes pack the symbols' codes, one after the other. -/
theorem execAll_packs (is : List Instr) : ∀ {xs : List Sym} {s : State}, s.phase = .pack → PackerInv s →
    (∀ x ∈ xs, s.HasCode x) → s.sinkTakes ((s.off.toNat + (xs.flatMap s.codeOf).length) / 8) = true →
    ∃ t bs, execAll (xs.map .pack ++ is) s = execAll is t ∧ Packed s t bs (xs.flatMap s.codeOf)
  | [], s, _, hs, _, _ => ⟨s, [], rfl, .refl hs⟩
  | x :: xs, s, hp, hs, hx, ht => by
    rw [List.flatMap_cons] at ht ⊢
    obtain ⟨hcode, hcodes⟩ := List.forall_mem_cons.1 hx
    obtain ⟨t, as, hexec, h⟩ := exec_pack hp hs hcode
      (sinkTakes_of_le (by rw [List.length_append, codeOf_length]; omega) ht)
    obtain ⟨has, hoff⟩ := h.count
    have hsplit : (s.off.toNat + (s.codeOf x ++ xs.flatMap s.codeOf).length) / 8 =
        as.length + (t.off.toNat + (xs.flatMap s.codeOf).length) / 8 := by
      rw [List.length_append]; omega
    rw [hsplit, sinkTakes_add h.sinkScript] at ht
    obtain ⟨u, bs, hrest, k⟩ := execAll_packs is (xs := xs) (h.phase.trans hp) h.inv
      (by simpa only [State.HasCode, h.len] using hcodes) (by simpa only [h.codeOf_eq] using ht.2)
    rw [h.codeOf_eq] at k
    exact ⟨u, as ++ bs, (execAll_cons hexec _).trans hrest, h.trans k⟩

/-- FLUSH after some packing: the bytes of both reached the sink. -/
theorem Packed.flushed_eq {s t : State} {bs : List Byte} {bits : List Bool} (h : Packed s t bs bits) : t.flushed =
    { s.delivered (bs ++ flushBytes t) with acc := 0#264, off := 0#9, phase := .done } := by
  rw [State.flushed, h.delivered_eq]

/-- A second pass delivers one payload: the waiting bits, the codes' bits and the padding, in whole bytes (R204). -/
theorem execAll_secondPass {xs : List Sym} {s : State} (hp : s.phase = .pack) (hs : PackerInv s)
    (hx : ∀ x ∈ xs, s.HasCode x) (ht : s.sinkTakes ((s.off.toNat + (xs.flatMap s.codeOf).length + 7) / 8) = true) :
    ∃ payload, execAll (xs.map .pack ++ [.flush]) s =
        .next { s.delivered payload with acc := 0#264, off := 0#9, phase := .done } ∧
      payload.length = (s.off.toNat + (xs.flatMap s.codeOf).length + 7) / 8 ∧
      bytesBits payload = s.waitingBits ++ xs.flatMap s.codeOf ++
        List.replicate (8 * payload.length - (s.off.toNat + (xs.flatMap s.codeOf).length)) false := by
  obtain ⟨t, bs, hpacks, h⟩ := execAll_packs [.flush] hp hs hx (sinkTakes_of_le (by omega) ht)
  obtain ⟨hbs, hoff⟩ := h.count
  have hflush := h.inv.flushBytes_length
  have hlen : (bs ++ flushBytes t).length = (s.off.toNat + (xs.flatMap s.codeOf).length + 7) / 8 := by
    rw [List.length_append]; omega
  have hpad : 8 * (bs ++ flushBytes t).length - (s.off.toNat + (xs.flatMap s.codeOf).length) =
      8 * (flushBytes t).length - t.off.toNat := by
    rw [List.length_append]; omega
  rw [← hlen, List.length_append, sinkTakes_add h.sinkScript] at ht
  refine ⟨bs ++ flushBytes t, ?_, hlen, ?_⟩
  · rw [hpacks, execAll_cons (exec_flush (h.phase.trans hp) ht.2), h.flushed_eq, execAll]
  · rw [hpad, bytesBits_append, h.inv.bytesBits_flushBytes, ← List.append_assoc, h.bits_eq]

/-- A sum over a list of symbols, symbol by symbol. -/
theorem sum_map_eq_sum_symbols (xs : List Sym) (f : Sym → Nat) :
    (xs.map f).sum = (symbols.map fun x => f x * xs.count x).sum := by
  rw [Finset.sum_list_map_count, ← List.sum_toFinset _ symbols_nodup]
  simp only [smul_eq_mul, Nat.mul_comm]
  exact Finset.sum_subset (fun x _ => by simp) fun x _ hx => by
    rw [List.count_eq_zero_of_not_mem (by simpa using hx), Nat.mul_zero]

/-- Settles O42: the second pass from an empty packer, and the sum of LEN symbol by symbol. -/
theorem secondPassPacksTheCodes : Obligations.SecondPassPacksTheCodes := by
  intro xs s hp hoff hacc hx B ht
  have hwait : s.waitingBits = [] := by simp [State.waitingBits, hoff]
  have hB : s.off.toNat + (xs.flatMap s.codeOf).length = B := by simp [hoff, List.length_flatMap, B]
  refine ⟨?_, fun hcount => ?_⟩
  · obtain ⟨payload, hexec, hlen, hbits⟩ := execAll_secondPass hp (packerInv_of_zero hoff hacc) hx (hB ▸ ht)
    rw [hB] at hlen hbits
    rw [hwait, hlen] at hbits
    exact ⟨_, payload, hexec, rfl, rfl, hlen, hbits, rfl⟩
  · simp only [← hcount]
    exact sum_map_eq_sum_symbols xs _

end Sys2Proof.Machine
end

section
/-! PROOFS, family 46_control: the dispatch of a CMD write, CLEAR in every phase, and the register space outside the
windows (spec R45, R46, R63, R75, R230 to R233). -/

namespace Sys2Proof.Machine

/-! ## The dispatch of a CMD write (R233) -/

/-- The table of R233 by opcode number and the one by command agree on the phases outside FAULT. -/
theorem mem_acceptedPhases_encode (i : Instr) {p : Phase} (hp : p ≠ .fault) :
    p ∈ acceptedPhases ((encode i).extractLsb' 0 8).toNat ↔ accepts i p = true := by
  change p ∈ acceptedPhases (fieldOp (encode i)).toNat ↔ _
  cases i with
  | clear => cases p <;> simp [encode, acceptedPhases, accepts] at hp ⊢
  | count | setfreq | finit | merge | build | gencodes | serialize | pack | flush =>
    simp [encode, acceptedPhases, accepts]

/-- In FAULT only the word 0x00000001 has an effect, that of CLEAR (R233, R254). -/
theorem onCmdWrite_in_fault {v : Word32} {s : State} (hp : s.phase = .fault) :
    onCmdWrite v s = if v = 0x00000001#32 then .next (resetBlock s) else .next s :=
  if_pos hp

/-- Settles O5: outside FAULT a well-formed word is the word of a command, and the phases that accept the command decide
between SEQUENCE and its rule. -/
theorem cmdWriteDispatchOrder : Obligations.CmdWriteDispatchOrder := by
  intro v s
  refine ⟨onCmdWrite_in_fault, fun hp hv => onCmdWrite_of_not_wellFormed (ne_true_of_eq_false hv) hp,
    fun hp hv hout => ?_, fun _ hv _ => ?_⟩
  · obtain ⟨i, hi⟩ := exists_decode_of_wellFormed hv
    rw [← encode_of_decode hi, mem_acceptedPhases_encode i hp, Bool.not_eq_true] at hout
    rw [onCmdWrite_of_decode hi, exec_sequence hp hout]
  · obtain ⟨i, hi⟩ := exists_decode_of_wellFormed hv
    exact ⟨i, hi, onCmdWrite_of_decode hi s⟩

/-! ## CLEAR (R230, R290) -/

/-- NSYM is 0 exactly when no symbol has a count (R28). -/
theorem nsym_eq_zero_iff (s : State) : s.nsym = 0 ↔ ∀ x, symGet s.freq x = 0#64 := by
  rw [nsym_eq, List.length_eq_zero_iff, List.filter_eq_nil_iff]
  simp

/-- NSYM = 0 is a FREQ table as after a reset (R28). -/
theorem freq_eq_reset_of_nsym {s : State} (h : s.nsym = 0) : s.freq = State.reset.freq :=
  symTable_ext fun x => ((nsym_eq_zero_iff s).1 h x).trans (symGet_replicate 0#64 x).symm

/-- The state that CLEAR and the reset signal leave has every element at its reset value (R290). -/
theorem atResetValues_resetBlock (s : State) : AtResetValues (resetBlock s) := by
  have hnode : ∀ i (h : i < 511), (resetBlock s).node[i] = .zero := fun i h => Vector.getElem_replicate h
  have hactive : ∀ i (h : i < 511), (resetBlock s).active[i] = false := fun i h => Vector.getElem_replicate h
  refine ⟨rfl, rfl, rfl, rfl, rfl, rfl, symGet_replicate 0#64, rfl, fun i h => ?_, rfl,
    hactive, rfl, symGet_replicate 0#256, symGet_replicate 0#9, rfl, rfl, rfl, ?_, ?_, ?_⟩
  · rw [hnode i h]; exact ⟨rfl, rfl, rfl, rfl, rfl⟩
  · exact (nsym_eq_zero_iff _).2 (symGet_replicate 0#64)
  · rw [forest_eq_length, activeList_eq_nil.2 fun i => hactive i i.isLt, List.length_nil]
  · change State.reset.status = 0#32
    decide

/-- With FREQ as after a reset, TOTAL is 0 (R40 I1). -/
theorem TotalInv.total_eq_zero {s : State} (h : TotalInv s) (hf : s.freq = State.reset.freq) : s.total = 0#64 :=
  BitVec.eq_of_toNat_eq <| by rw [h, hf]; exact (totalInv_resetBlock s).symm

/-- Before the first COUNT of a block within the invariants, a reset writes DATA_LO, DATA_HI and OUTCNT only (R230). -/
theorem BlockInv.resetBlock_of_empty {s : State} (h : BlockInv s) (hp : s.phase = .count) (hn : s.nsym = 0) :
    resetBlock s = { s with dataLo := 0#32, dataHi := 0#32, outcnt := 0#64 } := by
  obtain ⟨htotal, -, htables⟩ := h
  have hreset := (treeInv_of_count hp).1 htables
  have hfreq := freq_eq_reset_of_nsym hn
  have houtcnt : s.outcnt = 0#64 := congrArg State.outcnt hreset
  rw [← houtcnt, ← hreset, ← hfreq, ← htotal.total_eq_zero hfreq]

/-- Settles O13: CLEAR is the reset of the block, and no other command leaves DONE or FAULT by `exec_next_cases`. -/
theorem clearRunsInEveryPhase : Obligations.ClearRunsInEveryPhase := by
  refine ⟨by decide, fun s => ⟨_, rfl, atResetValues_resetBlock s, rfl⟩, fun v s hop hset => ?_,
    fun s hs hp hn => congrArg Host.Outcome.next (hs.resetBlock_of_empty hp hn), fun i s t h => ?_⟩
  · split
    case isTrue hp =>
      have hv : v ≠ 0x00000001#32 := by rintro rfl; revert hset; decide
      rw [onCmdWrite_in_fault hp, if_neg hv]
    case isFalse hp => exact onCmdWrite_of_operand_set hop (by decide) hset hp
  · rcases exec_next_cases h with ⟨rfl, -⟩ | ⟨-, hp, rfl⟩ | ⟨-, hp, hnext⟩
    · exact ⟨fun _ _ => rfl, fun _ _ _ => rfl⟩
    · exact ⟨fun _ hne => absurd hp hne, fun _ _ hne => absurd hp hne⟩
    · exact ⟨fun hf => absurd hf hp, hnext.eq_clear_of_done⟩

/-! ## Reads outside the windows (R45, R63, R75, R232) -/

/-- FOREST counts entries of the arena, so it fits its register (R31). -/
theorem forest_le (s : State) : s.forest ≤ 511 :=
  List.count_le_length.trans_eq Vector.length_toList

/-- The offsets from 0x0030 on that lie in no window (R63). -/
theorem mmioRead_unmapped {off : Offset} (h : 0x0030 ≤ off.toNat ∧ off.toNat < 0x0100 ∨
    0x0D00 ≤ off.toNat ∧ off.toNat < 0x1000 ∨ 0x3000 ≤ off.toNat ∧ off.toNat < 0x4000 ∨
    0x5FF0 ≤ off.toNat ∧ off.toNat < 0x6000 ∨ 0x6040 ≤ off.toNat) (s : State) : mmioRead off s = 0#32 := by
  simp (disch := omega) only [mmioRead, if_neg]

/-- A read does not look at the host's coming accesses. -/
theorem mmioRead_hostQueue (off : Offset) (s : State) (q : List HostAccess) :
    mmioRead off { s with hostQueue := q } = mmioRead off s := rfl

/-- A 32-bit access at a multiple of 4 has a meaning (R62). -/
theorem checkedAccess_aligned {off : Offset} (h : off.toNat % 4 = 0) (act : Result) :
    checkedAccess off 32 act = act := by
  simp [checkedAccess, h]

/-- Settles O16: each register by its line of the map, the counts because they fit 32 bits. -/
theorem registerReadsAndUnmappedReads : Obligations.RegisterReadsAndUnmappedReads := by
  intro s
  refine ⟨rfl, rfl, rfl, rfl, ?_, ?_, ?_, ?_, rfl, rfl, rfl, rfl, fun off h => mmioRead_unmapped h s,
    fun off rest hoff hq => ?_⟩
  · exact Nat.mod_eq_of_lt ((nsym_le s).trans_lt (by decide))
  · exact BitVec.toNat_setWidth_of_le (by decide : 10 ≤ 32)
  · exact Nat.mod_eq_of_lt ((forest_le s).trans_lt (by decide))
  · exact BitVec.toNat_setWidth_of_le (by decide : 9 ≤ 32)
  · rw [step_read hq, checkedAccess_aligned hoff, mmioRead_hostQueue]

/-! ## Writes (R231) -/

/-- `mmioWrite` with its offsets as numbers. -/
theorem mmioWrite_eq (off : Offset) (v : Word32) (s : State) : mmioWrite off v s =
    if off.toNat = 0x0000 then onCmdWrite v s
    else if off.toNat = 0x0008 then .next { s with dataLo := v }
    else if off.toNat = 0x000C then .next { s with dataHi := v }
    else .next s := by
  simp only [mmioWrite, ← BitVec.toNat_inj]
  rfl

/-- Settles O17: the check of R62, then the three offsets that store. -/
theorem writesReachCmdAndDataOnly : Obligations.WritesReachCmdAndDataOnly := by
  intro s rest off width v hq
  rw [step_write hq]
  refine ⟨fun hw hoff => ?_, fun hbad => ?_⟩
  · subst hw
    rw [checkedAccess_aligned hoff, mmioWrite_eq]
  · obtain ⟨r, hr, -⟩ := checkedAccess_refused hbad.symm (mmioWrite off v { s with hostQueue := rest })
    exact ⟨r, hr⟩

end Sys2Proof.Machine
end

section
/-! PROOFS, family 60_exceptions: the two ways into FAULT, what FAULT ignores, and the ways out of it (spec R251, R253 to
R256). -/

namespace Sys2Proof.Machine

/-! ## Into FAULT (R253, R256) -/

/-- SINK_IO writes its code (R256). -/
theorem AbortedAfter.err {n : Nat} {s t : State} (h : AbortedAfter n s t) : t.err = .sinkIo :=
  congrArg State.err h

/-- An emission that the sink refuses at byte n aborts its command there (R256). -/
theorem emitThen_aborted (bs : List Byte) (commit : State → State) {s : State} {n : Nat} (hp : s.phase ≠ .fault)
    (hn : n < bs.length) (ht : s.sinkTakes n = true) (hio : s.sinkScript[n]? = some .ioError) :
    ∃ t, emitThen bs commit s = .next t ∧ AbortedAfter n s t :=
  ⟨_, emitThen_ioError bs commit hn ht hio, abortedAfter_stoppedAt hp hn.le⟩

/-- A merge raises no fault (R131). -/
theorem MergeFrame.phase_ne_fault {s t : State} (h : MergeFrame s t) (hp : s.phase ≠ .fault) : t.phase ≠ .fault := by
  obtain ⟨-, hsame | htree⟩ := h
  · rwa [hsame]
  · simp [htree]

/-- A command enters FAULT by the precise fault entry with a code 1 to 5, or it emits and the sink refuses a byte
(R253, R256). -/
theorem ExecNext.fault_cases {i : Instr} {s t : State} (h : ExecNext s i t) (hp : s.phase ≠ .fault)
    (ht : t.phase = .fault) :
    (∃ e, e ≠ .none ∧ e ≠ .sinkIo ∧ t = s.faultedWith e) ∨
    ((i = .serialize ∨ i = .flush ∨ ∃ sym, i = .pack sym) ∧
      ∃ n, s.sinkTakes n = true ∧ s.sinkScript[n]? = some .ioError ∧ AbortedAfter n s t) := by
  cases h with
  | fault i e hnone hsink => exact .inl ⟨e, hnone, hsink, rfl⟩
  | sinkError i n bs hi hn htakes hio => exact .inr ⟨hi, n, htakes, hio, abortedAfter_stoppedAt hp hn.le⟩
  | merge t _ hm => exact absurd ht ((mergeOnce_frame hm).phase_ne_fault hp)
  | build t _ hm => exact absurd ht ((mergeLoop_frame hm).phase_ne_fault hp)
  | finit => simp only at ht; split at ht <;> cases ht
  | count | setfreq | buildTree | pack => exact absurd ht hp
  | clear | gencodes | serialize | flush => cases ht

/-- Settles O6: an ill-formed word faults precisely, and a command does by `ExecNext.fault_cases`. -/
theorem faultEntryIsPrecise : Obligations.FaultEntryIsPrecise := by
  intro v s t hp h ht hne
  have precise : ∀ e, e ≠ .none → t = s.faultedWith e → t.err ≠ .none ∧ t = s.faultedWith t.err := by
    rintro e hnone rfl; exact ⟨hnone, rfl⟩
  rcases onCmdWrite_cases v s with ⟨hf, -⟩ | ⟨hf, -⟩ | ⟨-, -, e⟩ | ⟨-, i, -, e⟩
  · exact absurd hf hp
  · exact absurd hf hp
  · exact precise .illegalCmd nofun (Host.Outcome.next.inj (h.symm.trans e))
  · rcases (exec_next hp (e.symm.trans h)).fault_cases hp ht with ⟨c, hnone, -, hc⟩ | ⟨-, n, -, -, habort⟩
    · exact precise c hnone hc
    · exact absurd (AbortedAfter.err habort) hne

/-- Settles O10: each emitting command is an `emitThen` of its bytes, and the converse is `ExecNext.fault_cases`. -/
theorem sinkErrorStopsTheCommand : Obligations.SinkErrorStopsTheCommand := by
  refine ⟨fun s n htakes hio => ⟨fun sym hp hlen hn => ?_, fun hp hoff hn => ?_,
    fun tr hp hread hdepth hsize hn => ?_⟩, fun i s t hp h ht herr => ?_⟩
  · rw [exec_pack_eq_emitThen hp hlen]
    exact emitThen_aborted _ _ (by simp [hp]) (by rwa [packDrain_bytes_length]) htakes hio
  · rw [exec_flush_eq_emitThen hp]
    exact emitThen_aborted _ _ (by simp [hp]) (by simp [flushBytes_of_off_pos hoff, hn]) htakes hio
  · rw [exec_serialize hp hread hdepth hsize]
    exact emitThen_aborted _ _ (by simp [hp]) (by rwa [serialBytes_preorder_length]) htakes hio
  · rcases (exec_next hp h).fault_cases hp ht with ⟨e, -, hsink, rfl⟩ | hsink
    · exact absurd herr hsink
    · exact hsink

/-! ## In FAULT, and out of it (R254, R255) -/

/-- Settles O7: a CMD write by the dispatch in FAULT, the other accesses by their lines of R231 and R232. -/
theorem faultPhaseIgnoresAllButClear : Obligations.FaultPhaseIgnoresAllButClear := by
  intro s rest v hp
  have hcmd (w : Word32) := onCmdWrite_in_fault (v := w) (s := { s with hostQueue := rest }) hp
  refine ⟨fun hq => ?_, fun hq hv => ?_, fun hq => ?_, fun hq => ?_, fun off hoff hq => ?_⟩
  · rw [step_write_cmd hq, hcmd, if_pos rfl]
  · rw [step_write_cmd hq, hcmd, if_neg hv]
  · rw [step_write hq, checkedAccess_aligned (by decide)]; rfl
  · rw [step_write hq, checkedAccess_aligned (by decide)]; rfl
  · rw [step_read hq, checkedAccess_aligned hoff, mmioRead_hostQueue]

/-- Settles O8: every access but the reset signal and a CMD write keeps PHASE, and in FAULT so does every CMD write but
that of CLEAR. -/
theorem onlyClearAndResetLeaveFault : Obligations.OnlyClearAndResetLeaveFault := by
  intro s t hp h hne
  have kept : t.phase ≠ s.phase := hp ▸ hne
  rcases step_next h with ⟨-, rfl⟩ | ⟨rest, ⟨hq, rfl⟩ | ⟨_, -, -, rfl⟩ | ⟨v, hq, hc⟩ | ⟨_, -, rfl⟩ | ⟨_, -, rfl⟩ |
    ⟨_, _, -, -, rfl⟩⟩
  case inr.inl => exact ⟨rest, .inl hq, rfl⟩
  case inr.inr.inr.inl =>
    rw [onCmdWrite_in_fault (s := { s with hostQueue := rest }) hp] at hc
    split at hc
    case isTrue hv => cases hc; exact ⟨rest, .inr (hv ▸ hq), rfl⟩
    case isFalse => cases hc; exact absurd rfl kept
  all_goals exact absurd rfl kept

end Sys2Proof.Machine
end

section
/-! PROOFS, family 60_exceptions: within the invariants a step that does not end waits on a silent sink (spec R131, R136,
R164, R260). -/

namespace Sys2Proof.Machine

/-! ## A sink that never answers (R260) -/

/-- An emission whose first bytes the sink takes and then never answers waits forever (R260, log 13). -/
theorem emitThen_silent (bs : List Byte) (commit : State → State) {s : State} {n : Nat} (hn : n < bs.length)
    (ht : s.sinkTakes n) (hs : s.sinkScript[n]? = some .silent) : emitThen bs commit s = .fault .sinkSilent := by
  rcases emitThen_cases bs commit s with ⟨-, hm⟩ | ⟨m, -, hm, hr, -⟩ | ⟨-, -, -, -, e⟩
  · exact absurd (le_of_sinkTakes hm hs (by decide)) (Nat.not_le.2 hn)
  · obtain rfl : m = n := le_antisymm (le_of_sinkTakes hm hs (by decide)) (le_of_sinkTakes ht hr (by decide))
    rw [hr] at hs; cases hs
  · exact e

/-- An emission stops for no other reason (R260). -/
theorem emitThen_fault {bs : List Byte} {commit : State → State} {s : State} {e : Fault}
    (h : emitThen bs commit s = .fault e) : e = .sinkSilent ∧ SinkReply.silent ∈ s.sinkScript := by
  rcases emitThen_cases bs commit s with ⟨hok, -⟩ | ⟨_, -, -, -, hio⟩ | ⟨_, -, -, hs, hwait⟩
  · rw [hok] at h; cases h
  · rw [hio] at h; cases h
  · exact ⟨(Host.Outcome.fault.inj (hwait.symm.trans h)).symm, List.mem_of_getElem? hs⟩

/-! ## Commands within the invariants -/

/-- The command answers a next state, or all it does is an emission and a commit. -/
def EndsOrEmits (i : Instr) (s : State) : Prop :=
  (∃ t, exec i s = .next t) ∨ ∃ bs commit, exec i s = emitThen bs commit s

theorem endsOrEmits_count {s : State} (hp : s.phase = .count) (x : Sym) : EndsOrEmits (.count x) s := by
  by_cases ht : s.total.toNat = Config.totalMax
  · exact .inl ⟨_, exec_count_overflow hp ht x⟩
  · exact .inl ⟨_, exec_count hp ht x⟩

theorem endsOrEmits_setfreq {s : State} (hp : s.phase = .count) (x : Sym) : EndsOrEmits (.setfreq x) s := by
  by_cases ht : setfreqTotal x s ≤ Config.totalMax
  · exact .inl ⟨_, exec_setfreq hp ht⟩
  · exact .inl ⟨_, exec_setfreq_overflow hp (not_le.1 ht)⟩

theorem endsOrEmits_finit {s : State} (hp : s.phase = .count) : EndsOrEmits .finit s := by
  by_cases hn : s.nsym = 0
  · exact .inl ⟨_, exec_finit_empty hp hn⟩
  · exact .inl ⟨_, exec_finit hp hn⟩

theorem endsOrEmits_pack {s : State} (hp : s.phase = .pack) (x : Sym) : EndsOrEmits (.pack x) s := by
  by_cases hx : symGet s.len x = 0#9
  · exact .inl ⟨_, exec_pack_missing hp hx⟩
  · exact .inr ⟨_, _, exec_pack_eq_emitThen hp hx⟩

/-- The forest is never too small and the arena never full (R131, R134). -/
theorem BlockInv.endsOrEmits_build {s : State} (hs : BlockInv s) (hp : s.phase = .merge ∨ s.phase = .tree) :
    EndsOrEmits .build s := by
  rcases hp with hm | ht
  · obtain ⟨t, -, hbuild, -⟩ := hs.execAll_merges (n := s.forest - 1) (.inl hm)
      (by have := hs.two_le_forest hm; omega)
    exact .inl ⟨t, hbuild⟩
  · exact .inl ⟨s, exec_build_of_tree ht⟩

/-- GENCODES's walk ends (R164). -/
theorem BlockInv.endsOrEmits_gencodes {s : State} (hs : BlockInv s) (hp : s.phase = .tree) :
    EndsOrEmits .gencodes s := by
  obtain ⟨-, -, htree⟩ := hs
  obtain ⟨t, ht, hr⟩ := htree.holdsTree (by simp [hp])
  obtain ⟨tb, htb⟩ := ht.exists_genTables hr
  exact .inl ⟨_, exec_gencodes hp htb⟩

/-- SERIALIZE's walk ends (R136, R181). -/
theorem BlockInv.endsOrEmits_serialize {s : State} (hs : BlockInv s) (hp : s.phase = .coded) :
    EndsOrEmits .serialize s := by
  obtain ⟨-, -, htree⟩ := hs
  obtain ⟨t, ht, hr⟩ := htree.holdsTree (by simp [hp])
  obtain ⟨hread, hdepth, -, hsize⟩ := ht.serial_tree hr
  exact .inr ⟨_, _, exec_serialize hp hread hdepth hsize⟩

/-- Within the invariants no command stops but in an emission: a refused one answers at once, and one whose rule runs finds
the tables it needs. -/
theorem BlockInv.endsOrEmits {s : State} (hs : BlockInv s) (i : Instr) : EndsOrEmits i s := by
  by_cases hf : s.phase = .fault
  · rw [EndsOrEmits, exec_in_fault hf]
    split <;> exact .inl ⟨_, rfl⟩
  by_cases ha : accepts i s.phase = true
  case neg => exact .inl ⟨_, exec_sequence hf (by simpa using ha)⟩
  case pos =>
    cases i with
    | clear => exact .inl ⟨_, rfl⟩
    | count x => exact endsOrEmits_count (beq_iff_eq.1 ha) x
    | setfreq x => exact endsOrEmits_setfreq (beq_iff_eq.1 ha) x
    | finit => exact endsOrEmits_finit (beq_iff_eq.1 ha)
    | merge =>
      obtain ⟨t, ht⟩ := hs.exists_mergedOnce (beq_iff_eq.1 ha)
      exact .inl ⟨t, ht.run⟩
    | build => exact hs.endsOrEmits_build (by simpa [accepts] using ha)
    | gencodes => exact hs.endsOrEmits_gencodes (beq_iff_eq.1 ha)
    | serialize => exact hs.endsOrEmits_serialize (beq_iff_eq.1 ha)
    | pack x => exact endsOrEmits_pack (beq_iff_eq.1 ha) x
    | flush => exact .inr ⟨_, _, exec_flush_eq_emitThen (beq_iff_eq.1 ha)⟩

theorem BlockInv.exec_fault {s : State} (hs : BlockInv s) {i : Instr} {e : Fault} (h : exec i s = .fault e) :
    e = .sinkSilent ∧ SinkReply.silent ∈ s.sinkScript := by
  rcases hs.endsOrEmits i with ⟨t, ht⟩ | ⟨bs, commit, hemit⟩
  · rw [ht] at h; cases h
  · exact emitThen_fault (hemit.symm.trans h)

/-! ## A step that does not end -/

theorem checkedAccess_fault {off : Offset} {width : Nat} {act : Result} {e : Fault}
    (h : checkedAccess off width act = .fault e) : act = .fault e := by
  unfold checkedAccess at h
  split at h
  · cases h
  · split at h
    · cases h
    · exact h

theorem mmioWrite_fault {off : Offset} {v : Word32} {s : State} {e : Fault} (h : mmioWrite off v s = .fault e) :
    onCmdWrite v s = .fault e := by
  rw [mmioWrite_eq] at h
  split at h
  · exact h
  · split at h
    · cases h
    · split at h <;> cases h

/-- A CMD write that does not end runs a command (R233). -/
theorem onCmdWrite_fault {v : Word32} {s : State} {e : Fault} (h : onCmdWrite v s = .fault e) :
    ∃ i, exec i s = .fault e := by
  rcases onCmdWrite_cases v s with ⟨-, -, hc⟩ | ⟨-, -, hc⟩ | ⟨-, -, hc⟩ | ⟨-, i, -, hc⟩
  all_goals rw [hc] at h
  · cases h
  · cases h
  · cases h
  · exact ⟨i, h⟩

/-- Of the host's accesses only the write of a command can fail to end (R260). -/
theorem step_fault {s : State} {e : Fault} (h : step s = .fault e) :
    ∃ q i, exec i { s with hostQueue := q } = .fault e := by
  cases hq : s.hostQueue with
  | nil => rw [step, performNext, hq] at h; cases h
  | cons a q =>
    cases a with
    | reset => rw [step_reset hq] at h; cases h
    | read off width => rw [step_read hq] at h; cases checkedAccess_fault h
    | write off width v =>
      rw [step_write hq] at h
      exact ⟨q, onCmdWrite_fault (mmioWrite_fault (checkedAccess_fault h))⟩

/-- Settles O11: a step that stops runs a command, and within the invariants a command stops only in an emission. -/
theorem onlyASilentSinkHangs : Obligations.OnlyASilentSinkHangs := by
  intro s hs
  refine ⟨fun e h => ?_, fun hp hoff hsilent => ?_⟩
  · obtain ⟨q, i, hi⟩ := step_fault h
    exact (hs.bus q s.readLog s.dataLo s.dataHi).exec_fault hi
  · rw [exec_flush_eq_emitThen hp]
    exact emitThen_silent _ _ (n := 0) (by simp [flushBytes_of_off_pos hoff]) rfl (List.head?_eq_getElem? ▸ hsilent)

end Sys2Proof.Machine
end

section
/-! PROOFS, family 70_reset_and_hazards: the reset values, and one complete encode operation, stage by stage (spec R73,
R290, R296). -/

namespace Sys2Proof.Machine

/-! ## Reset and CLEAR (R290) -/

/-- Settles O12: the reset signal and CLEAR both leave `resetBlock`, whose elements are at their reset values. -/
theorem resetAndClearSetEveryElement : Obligations.ResetAndClearSetEveryElement :=
  ⟨atResetValues_resetBlock State.reset, fun s =>
    ⟨fun rest h => ⟨_, step_reset h, atResetValues_resetBlock { s with hostQueue := rest }, rfl, rfl, rfl⟩,
      resetBlock s, rfl, atResetValues_resetBlock s, rfl⟩⟩

/-! ## The first pass: the COUNTs (R110) -/

/-- t is s after one COUNT for each byte of `text`: only FREQ and TOTAL change, each count by the number of times
that its symbol is in the text, and the invariants hold. -/
structure Counted (s t : State) (text : List Byte) : Prop where
  frame : t = { s with freq := t.freq, total := t.total }
  inv : BlockInv t
  freq : ∀ x : Sym, (symGet t.freq x).toNat = (symGet s.freq x).toNat + text.count x

theorem Counted.refl {s : State} (hs : BlockInv s) : Counted s s [] := ⟨rfl, hs, fun _ => rfl⟩

/-- One COUNT before the others. -/
theorem Counted.cons {s t : State} {x : Sym} {text : List Byte} (hs : BlockInv s)
    (ht : s.total.toNat ≠ Config.totalMax) (h : Counted (s.counted x) t text) : Counted s t (x :: text) := by
  obtain ⟨htot, -⟩ := hs
  refine ⟨h.frame, h.inv, fun y => ?_⟩
  rw [h.freq y]
  by_cases hy : y = x
  · subst hy
    rw [htot.symGet_counted_toNat ht, List.count_cons_self]
    omega
  · rw [symGet_counted, if_neg hy, List.count_cons_of_ne (Ne.symm hy)]

/-- COUNTs that do not carry TOTAL over its end all complete (R110). -/
theorem execAll_counts (is : List Instr) : ∀ {text : List Byte} {s : State}, s.phase = .count → BlockInv s →
    s.total.toNat + text.length ≤ Config.totalMax →
    ∃ t, execAll (text.map .count ++ is) s = execAll is t ∧ Counted s t text
  | [], s, _, hs, _ => ⟨s, rfl, .refl hs⟩
  | x :: text, s, hp, hs, hle => by
    rw [List.length_cons] at hle
    have hlt : s.total.toNat ≠ Config.totalMax := by omega
    have hcount := exec_count hp hlt x
    obtain ⟨t, hrun, ht⟩ := execAll_counts is (text := text) (s := s.counted x) hp (exec_keeps_blockInv hs hcount)
      (by rw [counted_total_toNat hlt]; omega)
    exact ⟨t, (execAll_cons hcount _).trans hrun, ht.cons hs hlt⟩

/-! ## From the counts to the codes (R132, R134, R161) -/

/-- FINIT, BUILD and GENCODES on a nonempty alphabet complete; they leave the counts, ERR, the packer and the sink
alone. -/
theorem BlockInv.execAll_coding {s : State} (hs : BlockInv s) (hp : s.phase = .count) (hn : s.nsym ≠ 0)
    (is : List Instr) : ∃ t, execAll (.finit :: .build :: .gencodes :: is) s = execAll is t ∧ BlockInv t ∧
      t = { s with node := t.node, active := t.active, nnodes := t.nnodes, root := t.root, degen := t.degen,
                   code := t.code, len := t.len, phase := .coded } := by
  have hfinit := exec_finit hp hn
  have hphase : s.finited.phase = .merge ∨ s.finited.phase = .tree := (ite_eq_or_eq ..).symm
  obtain ⟨u, -, hbuild, hu, htree, hframe, -⟩ := (exec_keeps_blockInv hs hfinit).execAll_merges (n := s.nsym - 1)
    hphase (by rw [finited_forest]; omega)
  obtain ⟨-, -, htables⟩ := id hu
  obtain ⟨-, tr, hforest, hr⟩ := (treeInv_of_tree htree).1 htables
  obtain ⟨tb, htb⟩ := hforest.exists_genTables hr
  have hgencodes := exec_gencodes htree htb
  refine ⟨_, by rw [execAll_cons hfinit, execAll_cons hbuild, execAll_cons hgencodes],
    exec_keeps_blockInv hu hgencodes, ?_⟩
  rw [hframe]
  rfl

/-! ## The second pass: the container (R73, R182, R204) -/

/-- A sink that never refuses a byte takes any number of them (R81). -/
theorem sinkTakes_of_all {s : State} (h : s.sinkScript.all (· == .takes) = true) (n : Nat) : s.sinkTakes n = true :=
  List.all_eq_true.2 fun a ha => List.all_eq_true.1 h a (List.mem_of_mem_take ha)

/-- From GENCODES on, every counted symbol has a code (R40 I5, R164). -/
theorem BlockInv.hasCode {s : State} (hs : BlockInv s) (hp : s.phase = .coded ∨ s.phase = .pack ∨ s.phase = .done)
    {x : Sym} (hx : symGet s.freq x ≠ 0#64) : s.HasCode x := by
  obtain ⟨hlen, hiff, -⟩ := (codeLengthsAreBounded s hs).1 hp x
  exact ⟨hiff.2 hx, hlen⟩

/-- What SERIALIZE of the tree `tr` leaves (R182). -/
def State.serialized (s : State) (tr : Tree) : State :=
  { s.delivered (serialBytes tr.preorder) with trunc := truncFlag tr.preorder, phase := .pack }

/-- In phase CODED, a SERIALIZE whose bytes the sink takes completes (R182). -/
theorem HoldsForest.exec_serialize_next {s : State} {tr : Tree} (h : HoldsForest s [tr]) (hr : s.root.toNat = tr.idx)
    (hp : s.phase = .coded) (ht : s.sinkTakes (serialBytes tr.preorder).length = true) :
    exec .serialize s = .next (s.serialized tr) := by
  obtain ⟨hread, -, hdepth, hsize⟩ := h.tree_facts hr
  exact (exec_serialize hp hread hdepth hsize).trans (emitThen_took _ _ s ht)

/-- What SERIALIZE of the tree `tr` and a second pass with the bytes `payload` leave: the container's bytes on the sink,
and an empty packer in phase DONE (R182, R204). -/
def State.encoded (s : State) (tr : Tree) (payload : List Byte) : State :=
  { s.delivered (serialBytes tr.preorder ++ payload) with
    trunc := truncFlag tr.preorder, acc := 0#264, off := 0#9, phase := .done }

/-- SERIALIZE and a second pass over counted symbols deliver the container of R73: the tree section, then the
payload. -/
theorem BlockInv.execAll_container {s : State} {tr : Tree} {text : List Byte} (hs : BlockInv s) (hp : s.phase = .coded)
    (hforest : HoldsForest s [tr]) (hr : s.root.toNat = tr.idx) (htext : ∀ x ∈ text, symGet s.freq x ≠ 0#64)
    (htakes : ∀ n, s.sinkTakes n = true) :
    ∃ payload, execAll (.serialize :: (text.map .pack ++ [.flush])) s = .next (s.encoded tr payload) ∧
      payload.length = ((text.flatMap s.codeOf).length + 7) / 8 ∧
      bytesBits payload = text.flatMap s.codeOf ++
        List.replicate (8 * payload.length - (text.flatMap s.codeOf).length) false := by
  obtain ⟨-, ⟨-, -, hempty⟩, -⟩ := id hs
  obtain ⟨hoff, hacc⟩ := hempty (by simp [hp])
  have hwait : (s.serialized tr).waitingBits = [] := by
    simp [State.waitingBits, State.serialized, State.delivered, hoff]
  have hzero : (s.serialized tr).off.toNat = 0 := congrArg BitVec.toNat hoff
  have htakesPayload (n : Nat) : (s.serialized tr).sinkTakes n = true :=
    ((sinkTakes_add (s := s) (t := s.serialized tr) rfl).1 (htakes _)).2
  obtain ⟨payload, hrun, hlen, hbits⟩ := execAll_secondPass (xs := text) (s := s.serialized tr) rfl
    (packerInv_of_zero hoff hacc) (fun x hx => hs.hasCode (.inl hp) (htext x hx)) (htakesPayload _)
  rw [hzero, Nat.zero_add] at hlen hbits
  rw [hwait, List.nil_append] at hbits
  refine ⟨payload, ?_, hlen, hbits⟩
  rw [execAll_cons (hforest.exec_serialize_next hr hp (htakes _)), hrun, State.encoded, delivered_append]
  rfl

/-! ## One encode operation (R296) -/

/-- The commands of R296, the second pass set apart. -/
theorem encodeCommands_eq (text : List Byte) : encodeCommands text = .clear :: (text.map .count ++
    .finit :: .build :: .gencodes :: .serialize :: (text.map .pack ++ [.flush])) := by
  simp [encodeCommands]

/-- After CLEAR the counts are the text's own (R110, R290). -/
theorem Counted.freq_of_reset {s t : State} {text : List Byte} (h : Counted (resetBlock s) t text) (x : Sym) :
    (symGet t.freq x).toNat = text.count x := by
  have hzero : symGet (resetBlock s).freq x = 0#64 := symGet_replicate _ x
  rw [h.freq, hzero, BitVec.toNat_zero, Nat.zero_add]

/-- Where the counts are the text's own, every byte of the text is in the alphabet (R26). -/
theorem freq_ne_zero_of_mem {s : State} {text : List Byte} (h : ∀ x : Sym, (symGet s.freq x).toNat = text.count x)
    {x : Sym} (hx : x ∈ text) : symGet s.freq x ≠ 0#64 := fun hzero => by
  have hpos := List.count_pos_iff.2 hx
  rw [← h x, hzero] at hpos
  exact Nat.lt_irrefl 0 hpos

/-- u is what CLEAR, the COUNTs of `text`, FINIT, BUILD and GENCODES leave of s: the text's own counts and their codes
within the invariants, OUTCNT 0, and the sink as it was. -/
structure FirstPass (s u : State) (text : List Byte) : Prop where
  inv : BlockInv u
  phase : u.phase = .coded
  err : u.err = .none
  freq : ∀ x : Sym, (symGet u.freq x).toNat = text.count x
  out : u.out = s.out
  outcnt : u.outcnt = 0#64
  sinkScript : u.sinkScript = s.sinkScript

/-- The operation up to GENCODES completes on every nonempty text whose length fits TOTAL (R296). -/
theorem execAll_firstPass {text : List Byte} (hne : text ≠ []) (hlen : text.length ≤ Config.totalMax) (s : State)
    (is : List Instr) : ∃ u, execAll (.clear :: (text.map .count ++ .finit :: .build :: .gencodes :: is)) s =
      execAll is u ∧ FirstPass s u text := by
  have hzero : (resetBlock s).total.toNat = 0 := rfl
  obtain ⟨t, hcounts, hcounted⟩ := execAll_counts (.finit :: .build :: .gencodes :: is) (text := text)
    (s := resetBlock s) rfl (blockInv_resetBlock s) (by omega)
  have hphase : t.phase = .count := by rw [hcounted.frame]; rfl
  obtain ⟨x, hx⟩ := List.exists_mem_of_ne_nil text hne
  have hnsym : 0 < t.nsym := nsym_pos (freq_ne_zero_of_mem hcounted.freq_of_reset hx)
  obtain ⟨u, hcoding, hu, hframe⟩ := hcounted.inv.execAll_coding hphase hnsym.ne' is
  exact ⟨u, (execAll_cons rfl _).trans (hcounts.trans hcoding), {
    inv := hu
    phase := by rw [hframe]
    err := by rw [hframe, hcounted.frame]; rfl
    freq := fun y => by rw [hframe]; exact hcounted.freq_of_reset y
    out := by rw [hframe, hcounted.frame]; rfl
    outcnt := by rw [hframe, hcounted.frame]; rfl
    sinkScript := by rw [hframe, hcounted.frame]; rfl }⟩

/-- Settles O50: the operation up to GENCODES by `execAll_firstPass`, the output by `BlockInv.execAll_container`. -/
theorem encodeOperationEmitsTheContainer : Obligations.EncodeOperationEmitsTheContainer := by
  intro text s hne hlen hsink
  obtain ⟨u, hfirst, h⟩ := execAll_firstPass hne hlen s (.serialize :: (text.map .pack ++ [.flush]))
  obtain ⟨-, -, htables⟩ := h.inv
  obtain ⟨-, tr, hforest, hr, -⟩ := (treeInv_of_coded (.inl h.phase)).1 htables
  obtain ⟨hread, -, hsize, -⟩ := hforest.serial_tree hr
  obtain ⟨payload, hsecond, hbytes, hbits⟩ := h.inv.execAll_container h.phase hforest hr
    (fun x => freq_ne_zero_of_mem h.freq)
    (sinkTakes_of_all (h.sinkScript ▸ hsink))
  have hleaves : tr.leaves.Perm u.mapping := by simpa using hforest.leaves
  have hB : (text.flatMap u.codeOf).length = (text.map fun x => (symGet u.len x).toNat).sum := by
    simp [List.length_flatMap]
  rw [hB] at hbytes hbits
  have hcount : (serialBytes tr.preorder ++ payload).length = 16 + 8 * (2 * u.nsym - 1) + payload.length := by
    rw [List.length_append, serialBytes_preorder_length, ← hsize, Nat.add_sub_cancel]
  refine ⟨u.encoded tr payload, tr, payload, ?_, ?_, hread, h.freq, hleaves, ?_, hbits, hbytes, ?_⟩
  · rw [encodeCommands_eq, hfirst, hsecond]
  · simp [State.completed, State.encoded, State.delivered, h.err]
  · simp only [State.encoded, State.delivered, h.out, serialBytes_eq, List.append_assoc]
  · change u.outcnt + BitVec.ofNat 64 (serialBytes tr.preorder ++ payload).length = _
    rw [h.outcnt, hcount, BitVec.zero_add]
    rfl

end Sys2Proof.Machine
end
